-- ==== Sys2Proof/Word.lean ====
section
/-!
DEFINITION. Sys2Proof/Word.lean: the data types every file of the model uses (00_scope R10, R12, R13, R16;
10_state R32).
-/

namespace Sys2Proof

/-- A register, a window word, a table entry or a command word: 32 bits (10_state R32). -/
abbrev Word := BitVec 32

/-- One byte lane of a word (20_memory R94). -/
abbrev Byte := BitVec 8

/-- The 4096-bit value of a polynomial window, PW = 4096 (00_scope R10). -/
abbrev Window := BitVec 4096

/-- A binary polynomial as the finite bit vector of 00_scope R13: bit i is the coefficient of x^i.
It is the number the spec writes for it (0xB is x^3 + x + 1), so it has no fixed width. A field element
(00_scope R16) is such a polynomial of degree below m. -/
abbrev Poly := Nat

/-- The 4096 entries of a table window, TW = 4096 (00_scope R10): entry j is the j-th word of the list and
every entry past its end is 0. The canonical form (no trailing 0) is `Table.wf`. -/
abbrev Table := List Word

end Sys2Proof
end

