-- ==== Sys2Proof/Syntax.lean ====
section
/-!
DEFINITION. Sys2Proof/Syntax.lean: the twelve commands (30_encoding R123), the names of the register block
(10_state R32), and the accesses and lines of a host program (20_memory R91, 30_encoding R132, R133, R136).
-/

namespace Sys2Proof

/-- The commands, one constructor per row of spec/opcode_table.json. A command has no operand field
(30_encoding R122): every operand is a fixed register. -/
inductive Instr where
  | nop
  | gen
  | load
  | save
  | enc
  | dec
  | padd
  | pmul
  | pmod
  | fred
  | fmul
  | fdiv
  deriving DecidableEq, Repr

/-- The named 32-bit registers of the map of 10_state R32. -/
inductive Reg where
  | id
  | hwcfg
  | ctrl
  | cmd
  | status
  | errcode
  | errinfo
  | n
  | b
  | d
  | r
  | codeM
  | codeK
  | codeT
  | codeOrd
  | opa
  | opb
  | reslo
  | reshi
  | decE
  | decNerr
  | decFlags
  deriving DecidableEq, Repr

/-- The polynomial windows of 10_state R32, 128 words each. -/
inductive PolyWin where
  | g
  | msg
  | cw
  | errmask
  deriving DecidableEq, Repr

/-- The table windows of 10_state R32, 4096 entries each. -/
inductive TableWin where
  | syn
  | elp
  | errpos
  | pow
  | log
  deriving DecidableEq, Repr

/-- What stands at a word offset of the register block (10_state R32). -/
inductive Loc where
  /-- A named register. -/
  | reg (name : Reg)
  /-- Word j of a polynomial window. -/
  | poly (w : PolyWin) (j : Nat)
  /-- Entry j of a table window. -/
  | table (t : TableWin) (j : Nat)
  /-- Reserved space (10_state R40). -/
  | reserved
  deriving DecidableEq, Repr

/-- A host bus access at a byte offset from BASE, of a width in bytes (20_memory R91). -/
inductive Access where
  | read (width addr : Nat)
  | write (width addr : Nat) (v : Word)
  deriving DecidableEq, Repr

/-- What the host agent does next, after the pseudo-instructions of 30_encoding R133 are expanded. -/
inductive HostOp where
  /-- One access; the value of a read is discarded. -/
  | access (a : Access)
  /-- `rd NAME == v`: a read whose value the program asserts (30_encoding R132). -/
  | assertRead (addr : Nat) (v : Word)
  /-- `wait`: read STATUS until bit 0 of the value read is 0 (30_encoding R133). -/
  | wait
  deriving DecidableEq, Repr

/-- The two agents (00_scope R3). -/
inductive Agent where
  | host
  | engine
  deriving DecidableEq, Repr

/-- A line of a host program in the notation of 30_encoding R132 and R133. -/
inductive Line where
  /-- `wr NAME, v` and `wr WIN[j], v`. -/
  | wr (l : Loc) (v : Word)
  /-- `rd NAME` and `rd WIN[j]`. -/
  | rd (l : Loc)
  /-- `rd NAME == v` and `rd WIN[j] == v`. -/
  | rdEq (l : Loc) (v : Word)
  /-- `cmd MNEMONIC`. -/
  | cmd (i : Instr)
  | wait
  /-- `run MNEMONIC`. -/
  | run (i : Instr)
  | wrpoly (w : PolyWin) (p : Poly)
  | rdpolyEq (w : PolyWin) (p : Poly)
  | ack
  deriving DecidableEq, Repr

/-- R or W of a bus transaction (30_encoding R134). -/
inductive Direction where
  | read
  | write
  deriving DecidableEq, Repr

/-- The data of a transaction in an encoded program (30_encoding R134). -/
inductive TransactionData where
  /-- The word written, or the value `rd NAME == v` states. -/
  | word (v : Word)
  /-- Of a plain `rd`: the value the read returns, which the program discards and does not fix (30_encoding R132,
  log 20). -/
  | returned
  /-- The `-` of `wait`: the read is repeated until bit 0 of the data is 0. -/
  | untilClear
  deriving DecidableEq, Repr

/-- A bus transaction of the encoded program: R or W, the offset, the data (30_encoding R134). -/
structure Transaction where
  dir : Direction
  offset : Nat
  data : TransactionData
  deriving DecidableEq, Repr

/-- A bus transaction as it takes place in a run: its data is a 32-bit word, for a read the value returned
(30_encoding R134, 20_memory R92, R93). -/
structure Transfer where
  dir : Direction
  offset : Nat
  data : Word
  deriving DecidableEq, Repr

end Sys2Proof
end

