-- ==== Sys2Proof/WellFormed.lean ====
section
/-!
DEFINITION. Sys2Proof/WellFormed.lean: which commands, command words, accesses and configurations are well formed.
-/

namespace Sys2Proof

/-- A command has no operand field, so every one is well formed (30_encoding R122). -/
def Instr.wellFormed (_ : Instr) : Bool := true

/-- The OP values of 30_encoding R123. -/
def legalOpcodes : List Nat :=
  [0x00, 0x01, 0x02, 0x03, 0x04, 0x05, 0x08, 0x09, 0x0A, 0x0B, 0x0C, 0x0D]

/-- A command word is legal exactly when RSVD is 0 and OP is one of the twelve (30_encoding R124). -/
def legalCommandWord (w : Word) : Bool :=
  decide (w.extractLsb' 8 24 = 0) && legalOpcodes.contains (w.extractLsb' 0 8).toNat

/-- The offset, width and alignment for which the spec defines an access (20_memory R91, R97). -/
def definedAt (width addr : Nat) : Bool :=
  decide (width = 4) && decide (addr % 4 = 0) && decide (addr < 0x20000)

/-- An access of the admitted subset (20_memory R97). -/
def Access.wellFormed : Access → Bool
  | .read width addr => definedAt width addr
  | .write width addr _ => definedAt width addr

/-- A host operation of the admitted subset (30_encoding R136). -/
def HostOp.wellFormed : HostOp → Bool
  | .access a => a.wellFormed
  | .assertRead addr _ => definedAt 4 addr
  | .wait => true

/-- MMAX is an integer with 2 <= MMAX <= 12 (00_scope R8). -/
def legalMmax (mmax : Nat) : Bool := decide (2 ≤ mmax) && decide (mmax ≤ 12)

end Sys2Proof
end

