-- ==== Sys2Proof/Decode.lean ====
section
/-!
DEFINITION. Sys2Proof/Decode.lean: decoding a command word (30_encoding R120, R121, R123, R124) and, after it, the encoder.
-/

namespace Sys2Proof

/-- Why a word is no legal command (30_encoding R124). -/
inductive Reject where
  /-- RSVD, bits 31:8, is not 0. -/
  | reservedField
  /-- OP, bits 7:0, is 0x06, 0x07 or 0x0E to 0xFF. -/
  | reservedOpcode
  deriving DecidableEq, Repr

/-- OP, bits 7:0 (30_encoding R121). -/
def opField (w : Word) : BitVec 8 := w.extractLsb' 0 8

/-- RSVD, bits 31:8 (30_encoding R121). -/
def rsvdField (w : Word) : BitVec 24 := w.extractLsb' 8 24

/-- The opcode map of 30_encoding R123, read from OP to mnemonic. -/
def instrOf (op : BitVec 8) : Option Instr :=
  match op.toNat with
  | 0x00 => some .nop
  | 0x01 => some .gen
  | 0x02 => some .load
  | 0x03 => some .save
  | 0x04 => some .enc
  | 0x05 => some .dec
  | 0x08 => some .padd
  | 0x09 => some .pmul
  | 0x0A => some .pmod
  | 0x0B => some .fred
  | 0x0C => some .fmul
  | 0x0D => some .fdiv
  | _ => none

/-- The command a word stands for, or why it is illegal (30_encoding R124). -/
def decode (w : Word) : Except Reject Instr :=
  if rsvdField w ≠ 0 then .error .reservedField
  else
    match instrOf (opField w) with
    | some i => .ok i
    | none => .error .reservedOpcode

/-- The word whose byte lane j is the j-th byte of the list (20_memory R94); a command has exactly four
(30_encoding R120). -/
def wordOfLanes : List Byte → Option Word
  | [b0, b1, b2, b3] => some (b3 ++ b2 ++ b1 ++ b0)
  | _ => none

/-- The four byte lanes of a word, lane 0 first (20_memory R94). -/
def lanesOfWord (w : Word) : List Byte :=
  [w.extractLsb' 0 8, w.extractLsb' 8 8, w.extractLsb' 16 8, w.extractLsb' 24 8]

/-- Decode the bytes of a command as the bus lays them out. -/
def decodeLanes (bs : List Byte) : Option Instr :=
  match wordOfLanes bs with
  | none => none
  | some w =>
    match decode w with
    | .ok i => some i
    | .error _ => none

/-- The command word whose bits spec/opcode_table.json numbers 0 .. nbits-1 are those of w, the rest 0. -/
def tableWord (nbits w : Nat) : Word := BitVec.ofNat 32 (w % 2 ^ nbits)

/-- What the decoder reads from a row's word, numbered as spec/opcode_table.json numbers it. A command has one
length, 32 bits (30_encoding R120). -/
def decodeTableWord (nbits w : Nat) : Option Instr :=
  if nbits ≤ 32 then decodeLanes (lanesOfWord (tableWord nbits w)) else none

/-- The opcode map of 30_encoding R123, read from mnemonic to OP. -/
def opcodeOf : Instr → BitVec 8
  | .nop => 0x00
  | .gen => 0x01
  | .load => 0x02
  | .save => 0x03
  | .enc => 0x04
  | .dec => 0x05
  | .padd => 0x08
  | .pmul => 0x09
  | .pmod => 0x0A
  | .fred => 0x0B
  | .fmul => 0x0C
  | .fdiv => 0x0D

/-- The command word of a command: RSVD 0, OP its opcode (30_encoding R121, R123). -/
def encode (i : Instr) : Word := (0 : BitVec 24) ++ opcodeOf i

end Sys2Proof
end

