-- ==== Sys2Proof/Config.lean ====
section
/-!
DEFINITION. Sys2Proof/Config.lean: what an implementation or the platform fixes, and the free values. Each opaque
constant has no body a proof could use: a claim about it holds for every value.
-/

namespace Sys2Proof

/-- The platform's choice of BASE, in units of 0x20000 (00_scope R11, log 5). -/
opaque Config.baseUnit : Nat

/-- BASE, the bus address of the register block, a multiple of 0x20000 (00_scope R11). -/
def Config.base : Nat := Config.baseUnit * 0x20000

/-- The k-th value a read of a running command's output returns: any value, drawn afresh for each read
(20_memory R104, log 3). -/
opaque Config.freeWord : Nat → Word

/-- The "quotient" of a by b modulo r, m being the degree, where no field element is one. The spec states none
because there is none to state: for the irreducible r of an active code and b ≠ 0 the quotient exists
(41_field_arithmetic R144), so no run reaches it (log 11). -/
opaque Config.noQuotient : (m : Nat) → (r a b : Poly) → Poly

end Sys2Proof
end

