-- ==== Sys2Proof/Machine/State.lean ====
section
/-!
DEFINITION. Sys2Proof/Machine/State.lean: the state of the core (10_state R30), plain data, and its reset (10_state R69).
-/

namespace Sys2Proof.Machine

/-- The engine's phase (10_state R68). -/
inductive Phase where
  | idle
  | busy
  deriving DecidableEq, Repr

/-- The error codes of 60_exceptions R300; codes 10 to 255 are never produced, so they have no constructor. -/
inductive ErrCode where
  | noError
  | invalidParameters
  | noValidExtension
  | minimalPolynomialError
  | messageTooLarge
  | codewordTooLarge
  | divisionByZero
  | noCode
  | capacityExceeded
  | illegalCommand
  deriving DecidableEq, Repr

/-- What `raise <Error>(info)` carries (00_scope R18, 60_exceptions R302). -/
structure Raise where
  code : ErrCode
  info : Nat
  deriving DecidableEq, Repr

/-- The Code value with its order and tables (10_state R54). -/
structure Code where
  n : Nat
  b : Nat
  d : Nat
  m : Nat
  k : Nat
  t : Nat
  q : Nat
  /-- The field-defining polynomial r(x). -/
  r : Poly
  /-- The generator polynomial g(x). -/
  g : Poly
  /-- Cord, the multiplicative order of alpha under r. -/
  ord : Nat
  /-- CPOW: entry e is alpha^e for e < ord. -/
  pow : List Poly
  /-- CLOG: entry v is the exponent of v, none where it has no exponent (NOLOG). -/
  log : List (Option Nat)
  deriving DecidableEq, Repr

/-- The descriptor staging registers N, B, D, R and the G window: the record of 45_descriptor_and_control R280. -/
structure Staging where
  n : Word
  b : Word
  d : Word
  r : Word
  g : Window
  deriving DecidableEq, Repr

/-- The decoder diagnostics (10_state R61 to R67). -/
structure Diagnostics where
  errmask : Window
  syn : Table
  elp : Table
  errpos : Table
  decE : Word
  decNerr : Word
  synNz : Bool
  deriving DecidableEq, Repr

/-- The host agent: the input of the machine and the host's end of the bus. These are the model's own fields
(log 1, log 2). -/
structure HostAgent where
  /-- The accesses still to come (30_encoding R136). -/
  program : List HostOp
  /-- Which agent moves, consulted only while BUSY; when it is used up the engine completes (30_encoding R129). -/
  turns : List Agent
  /-- The value the last read returned (20_memory R92). -/
  readData : Word
  /-- Whether every `rd NAME == v` so far read v (30_encoding R132). -/
  assertsHold : Bool
  deriving DecidableEq, Repr

/-- The state of the core (10_state R30), with the configuration, the host agent and the index of the next free value. -/
structure State where
  /-- MMAX, constant for a configuration; HWCFG shows it (10_state R34, log 4). -/
  mmax : Nat
  phase : Phase
  lastCmd : Word
  irqEn : Bool
  done : Bool
  err : Bool
  ovr : Bool
  errCode : ErrCode
  errInfo : Word
  staged : Staging
  msg : Window
  cw : Window
  opa : Word
  opb : Word
  reslo : Word
  reshi : Word
  /-- The active code; CV is whether there is one (10_state R54). -/
  code : Option Code
  diag : Diagnostics
  host : HostAgent
  /-- How many free values have been drawn: the model's own counter (log 3). -/
  draws : Nat
  deriving DecidableEq, Repr

/-- Why the machine stops with a fault. Nobody raises one: the core has no trap, machine check or bus error
(60_exceptions R310, R311), every command completes, so there is no constructor (safe: nothing to get wrong). -/
inductive Fault where
  deriving DecidableEq, Repr

/-- Why a step gives no next state. -/
inductive Refusal where
  /-- Raised by an arm of exec for a command without a meaning; safe. No arm raises it. -/
  | notModelled (mnemonic : String)
  /-- Raised by the host's step for an access of another width, misaligned or outside the block, for which
  20_memory R97 gives no effect and says that a model refuses it; safe: the machine stops. -/
  | undefinedAccess (width addr : Nat)
  deriving DecidableEq, Repr

/-- Every staging register 0 (10_state R69). -/
def Staging.reset : Staging := ⟨0, 0, 0, 0, 0⟩

/-- Every diagnostic 0 (10_state R69). -/
def Diagnostics.reset : Diagnostics := ⟨0, [], [], [], 0, 0, false⟩

/-- No access to come and nothing read yet (the model's own fields: log 1, log 2). -/
def HostAgent.reset : HostAgent := ⟨[], [], 0, true⟩

/-- The machine right after power-on (70_reset_and_hazards R340): the table of 10_state R69, in the reference
configuration MMAX = 8 (00_scope R8, log 4). -/
def State.reset : State where
  mmax := 8
  phase := .idle
  lastCmd := 0
  irqEn := false
  done := false
  err := false
  ovr := false
  errCode := .noError
  errInfo := 0
  staged := Staging.reset
  msg := 0
  cw := 0
  opa := 0
  opb := 0
  reslo := 0
  reshi := 0
  code := none
  diag := Diagnostics.reset
  host := HostAgent.reset
  draws := 0

end Sys2Proof.Machine
end

