-- ==== Sys2Proof/Machine/Poly.lean ====
section
/-!
DEFINITION. Sys2Proof/Machine/Poly.lean: arithmetic of binary polynomials over GF(2) (00_scope R13 to R15).
-/

namespace Sys2Proof.Machine

/-- The degree; none for the zero polynomial, whose degree is -∞ (00_scope R14). -/
def deg (p : Poly) : Option Nat := if p = 0 then none else some p.log2

/-- deg p ≥ k, false for every k when p = 0 (00_scope R14). -/
def degGe (p : Poly) (k : Nat) : Bool :=
  match deg p with
  | none => false
  | some e => decide (k ≤ e)

/-- The degree as a number, 0 for the zero polynomial: used where p ≠ 0 is known. -/
def degNat (p : Poly) : Nat := p.log2

/-- Addition (and subtraction): exclusive or (00_scope R15). -/
def padd (a b : Poly) : Poly := a ^^^ b

/-- The sum of b·x^i over the set bits i < k of a. -/
def pmulBelow (a b : Poly) : Nat → Poly
  | 0 => 0
  | k + 1 => padd (pmulBelow a b k) (if a.testBit k then b <<< k else 0)

/-- The carry-less product a ⊗ b (00_scope R15). -/
def pmul (a b : Poly) : Poly := pmulBelow a b (a.log2 + 1)

/-- Long division by b of degree e: from the top, bit e + k of the remainder is cleared by b·x^k. -/
def pdivmodFrom (b e : Nat) : (k : Nat) → (q s : Poly) → Poly × Poly
  | 0, q, s => (q, s)
  | k + 1, q, s =>
    if s.testBit (e + k) then pdivmodFrom b e k (padd q (2 ^ k)) (padd s (b <<< k))
    else pdivmodFrom b e k q s

/-- divmod(a, b) for b ≠ 0: quotient and remainder (00_scope R15). -/
def pdivmod (a b : Poly) : Poly × Poly := pdivmodFrom b b.log2 (a.log2 + 1 - b.log2) 0 a

/-- a div b (00_scope R15). -/
def pdiv (a b : Poly) : Poly := (pdivmod a b).1

/-- a mod b, the source's modulo(a, b) (00_scope R15). -/
def pmodulo (a b : Poly) : Poly := (pdivmod a b).2

/-- Euclid's algorithm; each turn lowers the degree of the divisor. -/
def pgcdFrom : (fuel : Nat) → (a b : Poly) → Poly
  | 0, a, _ => a
  | k + 1, a, b => if b = 0 then a else pgcdFrom k b (pmodulo a b)

/-- gcd(a, b); over GF(2) every nonzero polynomial is monic (00_scope R15). -/
def pgcd (a b : Poly) : Poly := pgcdFrom (b.log2 + 2) a b

/-- lcm(a, b) = (a ⊗ b) div gcd(a, b) for a, b ≠ 0 (00_scope R15). -/
def plcm (a b : Poly) : Poly := pdiv (pmul a b) (pgcd a b)

/-- x^n + 1, which is x^n − 1 over GF(2) (42_code_generator R185). -/
def xnPlusOne (n : Nat) : Poly := padd (2 ^ n) 1

/-- The polynomial with the given coefficients 0 or 1, lowest degree first (00_scope R17). -/
def ofCoeffs : List Poly → Poly
  | [] => 0
  | c :: cs => padd (c % 2) (2 * ofCoeffs cs)

/-- The coefficients of p, lowest degree first (00_scope R17). -/
def coeffs (p : Poly) : List Poly :=
  (List.range (p.log2 + 1)).map (fun i => if p.testBit i then 1 else 0)

end Sys2Proof.Machine
end

