-- ==== Sys2Proof/Machine/Field.lean ====
section
/-!
DEFINITION. Sys2Proof/Machine/Field.lean: GF(2^m) modulo a field-defining polynomial r, its power and logarithm tables
(00_scope R16, R17; 41_field_arithmetic R140 to R144, R151), and the search for r (42_code_generator R174 to R176).
-/

namespace Sys2Proof.Machine

/-- red(p) = p mod r (41_field_arithmetic R140). -/
def red (r p : Poly) : Poly := pmodulo p r

/-- The field product red(a ⊗ b) (41_field_arithmetic R140). -/
def fmul (r a b : Poly) : Poly := red r (pmul a b)

/-- The powers v_e, v_(e+1), ... of alpha up to the last before 1 returns, starting from v = v_e; none when 1 does
not return within the fuel (41_field_arithmetic R141). -/
def powersFrom (r : Poly) : (fuel : Nat) → (v : Poly) → Option (List Poly)
  | 0, _ => none
  | k + 1, v =>
    if v = 1 then some []
    else
      match powersFrom r k (red r (2 * v)) with
      | none => none
      | some vs => some (v :: vs)

/-- CPOW: v_0 = 1, v_1, ..., v_(ord-1); none when no e with 1 ≤ e ≤ 2^m − 1 has v_e = 1, so that ord(r) is
undefined (41_field_arithmetic R141, R142). The product v ⊗ x is the shift 2·v. -/
def powTable (m : Nat) (r : Poly) : Option (List Poly) :=
  match powersFrom r (2 ^ m - 1) (red r 2) with
  | none => none
  | some vs => some (1 :: vs)

/-- CLOG: entry v of the 2^m is the exponent of v, none (NOLOG) where v is no power of alpha
(41_field_arithmetic R142). -/
def logTable (m : Nat) (pow : List Poly) : List (Option Nat) :=
  (List.range (2 ^ m)).map (fun v => pow.idxOf? v)

/-- alpha^e = CPOW[e mod Cord] (41_field_arithmetic R151). -/
def alphaPow (pow : List Poly) (e : Nat) : Poly := pow.getD (e % pow.length) 0

/-- a / b: the field element q, of degree below m, with q · b = a (41_field_arithmetic R144). -/
def fquot (m : Nat) (r a b : Poly) : Poly :=
  match (List.range (2 ^ m)).find? (fun q => decide (fmul r q b = a)) with
  | some q => q
  | none => Config.noQuotient m r a b

/-- L(y) for a polynomial over GF(2^m), lowest degree first (00_scope R17). -/
def evalList (r : Poly) : List Poly → Poly → Poly
  | [], _ => 0
  | c :: cs, y => padd c (fmul r y (evalList r cs y))

/-- p(y) for a binary polynomial: the same formula with coefficients 0 and 1 (00_scope R17). -/
def evalBin (r p y : Poly) : Poly := evalList r (coeffs p) y

/-- No polynomial f with 1 ≤ deg f ≤ m − 1 divides r, of degree m (42_code_generator R174). -/
def irreducible (m : Nat) (r : Poly) : Bool :=
  (List.range (2 ^ m)).all (fun f => decide (f < 2) || decide (pmodulo r f ≠ 0))

/-- The least i ≥ i0 within the fuel with 2^i mod n = 1, p being 2^i0 mod n. -/
def orderFrom (n : Nat) : (fuel : Nat) → (i p : Nat) → Option Nat
  | 0, _, _ => none
  | k + 1, i, p => if p = 1 then some i else orderFrom n k (i + 1) (2 * p % n)

/-- order(2, n): the least m with 1 ≤ m ≤ n and 2^m mod n = 1; there is none when n is even
(42_code_generator R172). -/
def order2 (n : Nat) : Option Nat :=
  if n % 2 = 0 then none else orderFrom n n 1 (2 % n)

/-- The power table of a candidate of degree m accepted for length n: irreducible and ord ≥ n
(42_code_generator R176). -/
def acceptCandidate (m n : Nat) (r : Poly) : Option (List Poly) :=
  if irreducible m r then
    match powTable m r with
    | none => none
    | some pow => if n ≤ pow.length then some pow else none
  else none

/-- The first accepted candidate among r, r + 1, ... (42_code_generator R175). -/
def searchFrom (m n : Nat) : (fuel : Nat) → (r : Poly) → Option (Poly × List Poly)
  | 0, _ => none
  | k + 1, r =>
    match acceptCandidate m n r with
    | some pow => some (r, pow)
    | none => searchFrom m n k (r + 1)

/-- The candidates of degree m are 2^m, ..., 2^(m+1) − 1, tried in increasing order (42_code_generator R175). -/
def searchField (m n : Nat) : Option (Poly × List Poly) := searchFrom m n (2 ^ m) (2 ^ m)

end Sys2Proof.Machine
end

