-- ==== Sys2Proof/Machine/Operands.lean ====
section
/-!
DEFINITION. Sys2Proof/Machine/Operands.lean: the operands of the commands (30_encoding R122) and the forms in which
windows and tables hold values (20_memory R95, R96).
-/

namespace Sys2Proof.Machine

/-- OPA as a binary polynomial (10_state R50). -/
def opA (s : State) : Poly := s.opa.toNat

/-- OPB as a binary polynomial (10_state R51). -/
def opB (s : State) : Poly := s.opb.toNat

/-- x[MSG], all 4096 bits (10_state R48). -/
def msgPoly (s : State) : Poly := s.msg.toNat

/-- x[CW], all 4096 bits (10_state R49). -/
def cwPoly (s : State) : Poly := s.cw.toNat

/-- A polynomial as the 4096 bits of a window (20_memory R95). -/
def toWindow (p : Poly) : Window := BitVec.ofNat 4096 p

/-- A polynomial or an integer as a 32-bit word (20_memory R96). -/
def toWord (p : Nat) : Word := BitVec.ofNat 32 p

/-- Word j of a polynomial window: bits 32·j + 31 : 32·j (10_state R32). -/
def windowWord (p : Window) (j : Nat) : Word := p.extractLsb' (32 * j) 32

/-- The window with word j replaced (20_memory R93, R95). -/
def setWindowWord (p : Window) (j : Nat) (v : Word) : Window :=
  let mask : Window := (BitVec.allOnes 32).setWidth 4096 <<< (32 * j)
  (p &&& ~~~mask) ||| (v.setWidth 4096 <<< (32 * j))

/-- Entry j of a table window; the entries past the list are 0 (log 8). -/
def tableEntry (t : Table) (j : Nat) : Word := t.getD j 0

/-- The canonical table with the given first entries and 0 in the others: trailing zeros are dropped (log 8). -/
def trimTable : Table → Table
  | [] => []
  | w :: ws =>
    match trimTable ws with
    | [] => if w = 0 then [] else [w]
    | v :: vs => w :: v :: vs

/-- The table whose first entries are the given numbers (44_decoder R250). -/
def toTable (vs : List Nat) : Table := trimTable (vs.map toWord)

/-- The canonical form of a table: at most TW = 4096 entries, the last of them not 0 (log 8). -/
def tableWf (t : Table) : Bool := decide (t.length ≤ 4096) && decide (t.getLast? ≠ some 0)

/-- The active code, or NoCode(0) (60_exceptions R301). -/
def needCode (s : State) : Except Raise Code :=
  match s.code with
  | none => .error ⟨.noCode, 0⟩
  | some c => .ok c

/-- alpha^e in the field of a code (41_field_arithmetic R151). -/
def codeAlpha (c : Code) (e : Nat) : Poly := alphaPow c.pow e

/-- The Code value of parameters, r with its power table, and g: k = n − deg g, t = ⌊(d − 1)/2⌋, q = 2
(42_code_generator R183, 45_descriptor_and_control R282). -/
def mkCode (n b d m : Nat) (r : Poly) (pow : List Poly) (g : Poly) : Code where
  n := n
  b := b
  d := d
  m := m
  k := n - degNat g
  t := (d - 1) / 2
  q := 2
  r := r
  g := g
  ord := pow.length
  pow := pow
  log := logTable m pow

end Sys2Proof.Machine
end

