-- ==== Sys2Proof/Machine/Flags.lean ====
section
/-!
DEFINITION. Sys2Proof/Machine/Flags.lean: STATUS, the error code numbers, DEC_FLAGS and irq (10_state R37, R38, R41,
R67; 60_exceptions R300, R315).
-/

namespace Sys2Proof.Machine

/-- STATUS.BUSY is 1 exactly when PHASE = BUSY (10_state R37). -/
def busy (s : State) : Bool := decide (s.phase = .busy)

/-- CV, which STATUS.CODE_VALID mirrors (10_state R37, R54). -/
def codeValid (s : State) : Bool := s.code.isSome

/-- A word with the given bit 4, 3, 2, 1 and 0, the rest 0. -/
def flagWord (b4 b3 b2 b1 b0 : Bool) : Word :=
  (0 : BitVec 27) ++ BitVec.ofBool b4 ++ BitVec.ofBool b3 ++ BitVec.ofBool b2 ++ BitVec.ofBool b1 ++ BitVec.ofBool b0

/-- STATUS as read: CODE_VALID, OVR, ERR, DONE, BUSY in bits 4:0 (10_state R37). -/
def statusWord (s : State) : Word := flagWord (codeValid s) s.ovr s.err s.done (busy s)

/-- CTRL as read: IRQ_EN in bit 0; SRST reads 0 (10_state R35). -/
def ctrlWord (s : State) : Word := flagWord false false false false s.irqEn

/-- DEC_FLAGS as read: SYN_NZ in bit 0 (10_state R67). -/
def decFlagsWord (s : State) : Word := flagWord false false false false s.diag.synNz

/-- A STATUS write: each of DONE, ERR, OVR whose bit is 1 is cleared, a 0 has no effect, the other bits are
ignored (10_state R37). -/
def writeStatus (v : Word) (s : State) : State :=
  { s with
    done := s.done && !(v.getLsbD 1)
    err := s.err && !(v.getLsbD 2)
    ovr := s.ovr && !(v.getLsbD 3) }

/-- The numbers of the error codes (60_exceptions R300). -/
def errNumber : ErrCode → Nat
  | .noError => 0
  | .invalidParameters => 1
  | .noValidExtension => 2
  | .minimalPolynomialError => 3
  | .messageTooLarge => 4
  | .codewordTooLarge => 5
  | .divisionByZero => 6
  | .noCode => 7
  | .capacityExceeded => 8
  | .illegalCommand => 9

/-- The completion interrupt: IRQ_EN and DONE, a level (60_exceptions R315). -/
def irq (s : State) : Bool := s.irqEn && s.done

/-- Set the sticky STATUS.OVR (10_state R42). -/
def setOvr (s : State) : State := { s with ovr := true }

end Sys2Proof.Machine
end

