-- ==== Sys2Proof/Machine/Ops.lean ====
section
/-!
DEFINITION. Sys2Proof/Machine/Ops.lean: the named operations on the state: accept, completion, error completion (the
one way a command reports an error; the core has no trap entry and no return, 60_exceptions R311, R312), soft reset,
and the outputs commands write.
-/

namespace Sys2Proof.Machine

/-- The accept of a command word in PHASE = IDLE (30_encoding R127). -/
def startCommand (w : Word) (s : State) : State :=
  { s with
    lastCmd := w
    done := false
    err := false
    errCode := .noError
    errInfo := 0
    phase := .busy }

/-- A host write of w to CMD: accepted when IDLE, dropped with OVR when BUSY (30_encoding R127). -/
def acceptCommand (w : Word) (s : State) : State :=
  if busy s then setOvr s else startCommand w s

/-- Successful completion, after the outputs are written (30_encoding R128). -/
def complete (s : State) : State :=
  { s with
    err := false
    errCode := .noError
    errInfo := 0
    done := true
    phase := .idle }

/-- Error completion `raise E(info)` (60_exceptions R305). -/
def raiseError (e : Raise) (s : State) : State :=
  { s with
    errCode := e.code
    errInfo := toWord e.info
    err := true
    done := true
    phase := .idle }

/-- The completion step of a command: its result installed and `complete()`, or its error raised with nothing
else changed (30_encoding R128; 60_exceptions R303, R305, R306). -/
def finish {α : Type} (s : State) (res : Except Raise α) (install : α → State → State) :
    Host.Outcome State Fault Refusal :=
  match res with
  | .ok a => .next (complete (install a s))
  | .error e => .next (raiseError e s)

/-- The completion step of an illegal word: IllegalCommand, ERRINFO the whole word (30_encoding R124). -/
def finishIllegal (s : State) : Host.Outcome State Fault Refusal :=
  .next (raiseError ⟨.illegalCommand, s.lastCmd.toNat⟩ s)

/-- The command the engine runs, none for an illegal word (30_encoding R124). -/
def runningCommand (s : State) : Option Instr :=
  match decode s.lastCmd with
  | .ok i => some i
  | .error _ => none

/-- Soft reset: every state element of the core takes its power-on value, in either phase
(70_reset_and_hazards R341, R342). The configuration, the host's own side and the free-value counter are no
state of the core. -/
def softReset (s : State) : State :=
  { State.reset with mmax := s.mmax, host := s.host, draws := s.draws }

/-- Write RESLO and RESHI (10_state R52, R53). -/
def setResult (lo hi : Nat) (s : State) : State := { s with reslo := toWord lo, reshi := toWord hi }

/-- Make c the active code, all fields at once (10_state R54). -/
def installCode (c : Code) (s : State) : State := { s with code := some c }

/-- Write R and all 4096 bits of G (42_code_generator R186). -/
def setGenerated (r g : Poly) (s : State) : State :=
  { s with staged := { s.staged with r := toWord r, g := toWindow g } }

/-- Write the record of a code into N, B, D, R and G (45_descriptor_and_control R286). -/
def setRecord (c : Code) (s : State) : State :=
  { s with staged := ⟨toWord c.n, toWord c.b, toWord c.d, toWord c.r, toWindow c.g⟩ }

/-- Write all 4096 bits of CW (43_encoder R211). -/
def setCw (p : Poly) (s : State) : State := { s with cw := toWindow p }

/-- Write all 4096 bits of MSG and the decoder diagnostics (44_decoder R250). -/
def setDecoded (msg : Poly) (dg : Diagnostics) (s : State) : State :=
  { s with msg := toWindow msg, diag := dg }

/-- Which agent moves next: the host while IDLE; while BUSY as the turns say, the engine once they are used up
(30_encoding R129, log 2). -/
def mover (s : State) : Agent :=
  match s.phase, s.host.turns with
  | .idle, _ => .host
  | .busy, [] => .engine
  | .busy, a :: _ => a

/-- The turn that `mover` read is used up; in PHASE = IDLE none is (log 2). -/
def takeTurn (s : State) : State :=
  match s.phase with
  | .idle => s
  | .busy => { s with host := { s.host with turns := s.host.turns.tail } }

/-- What the host agent still has to do. -/
def setProgram (ops : List HostOp) (s : State) : State := { s with host := { s.host with program := ops } }

/-- `rd NAME == v` asserts that the value just read is v (30_encoding R132). -/
def recordAssert (v : Word) (s : State) : State :=
  { s with host := { s.host with assertsHold := s.host.assertsHold && decide (s.host.readData = v) } }

/-- The accepted command of word w is the next thing to happen (log 7). -/
def placeCommand (w : Word) (s : State) : State :=
  startCommand w { s with host := { s.host with turns := [] } }

end Sys2Proof.Machine
end

