-- ==== Sys2Proof/Machine/CodeGenerator.lean ====
section
/-!
DEFINITION. Sys2Proof/Machine/CodeGenerator.lean: GEN (42_code_generator R170 to R186).
-/

namespace Sys2Proof.Machine

/-- The parameter check shared by GEN and LOAD: true when it fails (42_code_generator R171). -/
def badParameters (n b d : Nat) : Bool :=
  decide (n < 3) || decide (b < 1) || decide (d < 1) || decide (n < d)

/-- The conjugacy class from c on, until doubling modulo n comes back to c0 (42_code_generator R179). -/
def classFrom (n c0 : Nat) : (fuel : Nat) → (c : Nat) → List Nat
  | 0, _ => []
  | k + 1, c =>
    if 2 * c % n = c0 then [c] else c :: classFrom n c0 k (2 * c % n)

/-- The conjugacy class C(i) modulo n, at most n members (42_code_generator R179). -/
def conjClass (n i : Nat) : List Nat := classFrom n (i % n) n (i % n)

/-- (x + a)·P over GF(2^m), coefficient lists lowest degree first (42_code_generator R180). -/
def mulLinear (r : Poly) (P : List Poly) (a : Poly) : List Poly :=
  List.zipWith padd (0 :: P) (P.map (fmul r a) ++ [0])

/-- P_i, the product of (x + alpha^c) over C(i) in the order of the class (42_code_generator R180). -/
def minProduct (r : Poly) (pow : List Poly) (n i : Nat) : List Poly :=
  (conjClass n i).foldl (fun P c => mulLinear r P (alphaPow pow c)) [1]

/-- M_i, when every coefficient of P_i is 0 or 1 (42_code_generator R181). -/
def minPoly (r : Poly) (pow : List Poly) (n i : Nat) : Option Poly :=
  let P := minProduct r pow n i
  if P.all (fun c => decide (c < 2)) then some (ofCoeffs P) else none

/-- The lcm of g with M_(b+s), M_(b+s+1), ..., in increasing order, stopping at the first index whose product is
not binary; ERRINFO is its offset s = i − b (42_code_generator R181, R182). -/
def lcmFrom (r : Poly) (pow : List Poly) (n b : Nat) : (count s : Nat) → (g : Poly) → Except Raise Poly
  | 0, _, g => .ok g
  | k + 1, s, g =>
    match minPoly r pow n (b + s) with
    | none => .error ⟨.minimalPolynomialError, s⟩
    | some M => lcmFrom r pow n b k (s + 1) (plcm g M)

/-- The check of deg g shared by GEN and LOAD: true when it fails (42_code_generator R185,
45_descriptor_and_control R281 step 7). -/
def badDegree (n : Nat) (g : Poly) : Bool := !(degGe g 1) || degGe g n

/-- The divisibility check shared by GEN and LOAD: true when it fails (42_code_generator R185,
45_descriptor_and_control R281 step 8). -/
def notDivisor (n : Nat) (g : Poly) : Bool := decide (pmodulo (xnPlusOne n) g ≠ 0)

/-- The generator polynomial of (n, b, d) in the field of r, checked (42_code_generator R182, R185). -/
def generatorPoly (r : Poly) (pow : List Poly) (n b d : Nat) : Except Raise Poly :=
  match lcmFrom r pow n b (d - 1) 0 1 with
  | .error e => .error e
  | .ok g =>
    if badDegree n g then .error ⟨.invalidParameters, 2⟩
    else if notDivisor n g then .error ⟨.invalidParameters, 4⟩
    else .ok g

/-- The source's generate(n, b, d), with the checks in GEN's order (42_code_generator R186). -/
def generate (mmax n b d : Nat) : Except Raise Code :=
  if badParameters n b d then .error ⟨.invalidParameters, 1⟩
  else
    match order2 n with
    | none => .error ⟨.noValidExtension, 1⟩
    | some m =>
      if mmax < m then .error ⟨.capacityExceeded, m⟩
      else
        match searchField m n with
        | none => .error ⟨.noValidExtension, 2⟩
        | some (r, pow) =>
          match generatorPoly r pow n b d with
          | .error e => .error e
          | .ok g => .ok (mkCode n b d m r pow g)

/-- What a successful GEN writes: the active code, R and G (42_code_generator R186). -/
def installGenerated (c : Code) (s : State) : State := setGenerated c.r c.g (installCode c s)

/-- GEN (42_code_generator R186). -/
def execGen (s : State) : Host.Outcome State Fault Refusal :=
  finish s (generate s.mmax s.staged.n.toNat s.staged.b.toNat s.staged.d.toNat) installGenerated

end Sys2Proof.Machine
end

