-- ==== Sys2Proof/Machine/Decoder.lean ====
section
/-!
DEFINITION. Sys2Proof/Machine/Decoder.lean: DEC (44_decoder R230 to R250).
-/

namespace Sys2Proof.Machine

/-- A matrix over GF(2^m), by rows. -/
abbrev Rows := List (List Poly)

/-- syn[s] = rx(alpha^(b+s)) for s = 0 .. d − 2 (44_decoder R232). -/
def syndromes (c : Code) (rx : Poly) : List Poly :=
  (List.range (c.d - 1)).map (fun s => evalBin c.r rx (codeAlpha c (c.b + s)))

/-- Some syndrome is nonzero (44_decoder R233, 10_state R67). -/
def synNonzero (syn : List Poly) : Bool := syn.any (fun v => decide (v ≠ 0))

/-- The matrix with e rows and w columns whose entry (i, j) is syn[i + j]: M_e for w = e, and for w = e + 1
the augmented [M_e | C_e] (44_decoder R235, R243). -/
def synRows (syn : List Poly) (e w : Nat) : Rows :=
  (List.range e).map (fun i => (List.range w).map (fun j => syn.getD (i + j) 0))

/-- The first row whose head is not 0, with the other rows. -/
def takePivot : Rows → Option (List Poly × Rows)
  | [] => none
  | row :: rows =>
    if row.headD 0 ≠ 0 then some (row, rows)
    else
      match takePivot rows with
      | none => none
      | some (p, others) => some (p, row :: others)

/-- x − f·p for rows, subtraction being ⊕. -/
def subScaled (r f : Poly) (row p : List Poly) : List Poly :=
  List.zipWith (fun x y => padd x (fmul r f y)) row p

/-- The determinant over GF(2^m) of a matrix of e rows: the pivot times the determinant of what is left after its
column is cleared, 1 for e = 0, 0 when the column has no pivot. Row exchanges do not matter in characteristic 2
(44_decoder R236, D28; log 10). -/
def det (m : Nat) (r : Poly) : (e : Nat) → Rows → Poly
  | 0, _ => 1
  | e + 1, rows =>
    match takePivot rows with
    | none => 0
    | some (p, others) =>
      fmul r (p.headD 0)
        (det m r e (others.map (fun row => (subScaled r (fquot m r (row.headD 0) (p.headD 0)) row p).tail)))

/-- The shrink loop: the largest size ≤ e with a nonzero determinant, 0 at the end (44_decoder R240). -/
def shrink (m : Nat) (r : Poly) (syn : List Poly) : (e : Nat) → Nat
  | 0 => 0
  | e + 1 => if det m r (e + 1) (synRows syn (e + 1) (e + 1)) = 0 then shrink m r syn e else e + 1

/-- Entry (i, j) of a matrix. -/
def entry (A : Rows) (i j : Nat) : Poly := (A.getD i []).getD j 0

/-- The first row p ≥ col of the e rows with A[p][col] ≠ 0 (44_decoder R243). -/
def pivotRow (A : Rows) (e col : Nat) : Option Nat :=
  (List.range e).find? (fun p => decide (col ≤ p) && decide (entry A p col ≠ 0))

/-- Rows p and q exchanged. -/
def swapRows (A : Rows) (p q : Nat) : Rows := (A.set p (A.getD q [])).set q (A.getD p [])

/-- One column of the reduction: swap, divide row col by its diagonal entry, and clear the column in every other
row (44_decoder R243). -/
def reduceColumn (m : Nat) (r : Poly) (A : Rows) (p col : Nat) : Rows :=
  let B := swapRows A p col
  let piv := (B.getD col []).map (fun x => fquot m r x (entry B col col))
  B.mapIdx (fun q row => if q = col then piv else subScaled r (row.getD col 0) row piv)

/-- Gauss-Jordan elimination of columns col, col + 1, ..., the number left being the fuel (44_decoder R243). -/
def gaussJordanFrom (m : Nat) (r : Poly) (e : Nat) : (left col : Nat) → Rows → Except Raise Rows
  | 0, _, A => .ok A
  | k + 1, col, A =>
    match pivotRow A e col with
    | none => .error ⟨.divisionByZero, col⟩
    | some p => gaussJordanFrom m r e k (col + 1) (reduceColumn m r A p col)

/-- The solution u of M_e · u = C_e, read off the last column (44_decoder R242, R243). -/
def solveSyndromes (m : Nat) (r : Poly) (syn : List Poly) (e : Nat) : Except Raise (List Poly) :=
  (gaussJordanFrom m r e e 0 (synRows syn e (e + 1))).map
    (fun A => (List.range e).map (fun i => entry A i e))

/-- l(x) = [1, u[e−1], ..., u[0]], lowest degree first (44_decoder R244). -/
def locator (u : List Poly) : List Poly := 1 :: u.reverse

/-- The positions i = 1 .. n with l(alpha^i) = 0, increasing (44_decoder R245). -/
def rootPositions (c : Code) (l : List Poly) : List Nat :=
  ((List.range c.n).map (fun j => j + 1)).filter (fun i => decide (evalList c.r l (codeAlpha c i) = 0))

/-- The sum of x^(n−i) over the positions i (44_decoder R246, R248). -/
def maskOf (n : Nat) (pos : List Nat) : Poly := pos.foldl (fun acc i => padd acc (2 ^ (n - i))) 0

/-- What DEC has found before it writes its outputs (44_decoder R250). -/
structure Decoded where
  syn : List Poly
  e : Nat
  l : List Poly
  pos : List Nat
  mask : Poly
  deriving DecidableEq, Repr

/-- LOCATOR and SEARCH for syndromes that are not all zero (44_decoder R240 to R248). -/
def locateErrors (c : Code) (syn : List Poly) : Except Raise Decoded :=
  let e := shrink c.m c.r syn c.t
  (solveSyndromes c.m c.r syn e).map (fun u =>
    let l := locator u
    let pos := rootPositions c l
    ⟨syn, e, l, pos, maskOf c.n pos⟩)

/-- INPUT, SYNDROME and, unless every syndrome is zero, LOCATOR and SEARCH (44_decoder R230 to R248). -/
def decodeWord (c : Code) (rx : Poly) : Except Raise Decoded :=
  if degGe rx c.n then .error ⟨.codewordTooLarge, degNat rx⟩
  else
    let syn := syndromes c rx
    if synNonzero syn then locateErrors c syn else .ok ⟨syn, 0, [1], [], 0⟩

/-- The diagnostics DEC writes (44_decoder R250). -/
def diagnosticsOf (dw : Decoded) : Diagnostics where
  errmask := toWindow dw.mask
  syn := toTable dw.syn
  elp := toTable dw.l
  errpos := toTable dw.pos
  decE := toWord dw.e
  decNerr := toWord dw.pos.length
  synNz := synNonzero dw.syn

/-- The decoded message: the k high coefficients of the corrected word (44_decoder R249). -/
def messageOf (c : Code) (rx mask : Poly) : Poly := padd rx mask >>> (c.n - c.k)

/-- The source's decode(Code, received): the message and the diagnostics (44_decoder R250). -/
def decodeReceived (c : Code) (rx : Poly) : Except Raise (Poly × Diagnostics) :=
  (decodeWord c rx).map (fun dw => (messageOf c rx dw.mask, diagnosticsOf dw))

/-- OUTPUT (44_decoder R249, R250). -/
def installDecoded (p : Poly × Diagnostics) (s : State) : State := setDecoded p.1 p.2 s

/-- DEC (44_decoder R250). -/
def execDec (s : State) : Host.Outcome State Fault Refusal :=
  finish s ((needCode s).bind (fun c => decodeReceived c (cwPoly s))) installDecoded

end Sys2Proof.Machine
end

