-- ==== Sys2Proof/Machine/Descriptor.lean ====
section
/-!
DEFINITION. Sys2Proof/Machine/Descriptor.lean: LOAD, SAVE and NOP (45_descriptor_and_control R280 to R288).
-/

namespace Sys2Proof.Machine

/-- Steps 4 to 6 of the LOAD validation: r has degree m, is irreducible, and ord(r) ≥ n; the power table of r
(45_descriptor_and_control R281). -/
def checkFieldPoly (m n : Nat) (r : Poly) : Except Raise (List Poly) :=
  if deg r ≠ some m then .error ⟨.invalidParameters, 3⟩
  else if !(irreducible m r) then .error ⟨.noValidExtension, 3⟩
  else
    match powTable m r with
    | none => .error ⟨.noValidExtension, 4⟩
    | some pow => if pow.length < n then .error ⟨.noValidExtension, 4⟩ else .ok pow

/-- The source's load(record), with the checks in the order of 45_descriptor_and_control R281. -/
def loadRecord (mmax n b d : Nat) (r g : Poly) : Except Raise Code :=
  if badParameters n b d then .error ⟨.invalidParameters, 1⟩
  else
    match order2 n with
    | none => .error ⟨.noValidExtension, 1⟩
    | some m =>
      if mmax < m then .error ⟨.capacityExceeded, m⟩
      else
        match checkFieldPoly m n r with
        | .error e => .error e
        | .ok pow =>
          if badDegree n g then .error ⟨.invalidParameters, 2⟩
          else if notDivisor n g then .error ⟨.invalidParameters, 4⟩
          else .ok (mkCode n b d m r pow g)

/-- LOAD (45_descriptor_and_control R282). -/
def execLoad (s : State) : Host.Outcome State Fault Refusal :=
  finish s
    (loadRecord s.mmax s.staged.n.toNat s.staged.b.toNat s.staged.d.toNat s.staged.r.toNat s.staged.g.toNat)
    installCode

/-- SAVE (45_descriptor_and_control R286). -/
def execSave (s : State) : Host.Outcome State Fault Refusal :=
  finish s (needCode s) setRecord

/-- NOP (45_descriptor_and_control R288). -/
def execNop (s : State) : Host.Outcome State Fault Refusal :=
  finish s (.ok ()) (fun _ s => s)

end Sys2Proof.Machine
end

