-- ==== Sys2Proof/Machine/Encoder.lean ====
section
/-!
DEFINITION. Sys2Proof/Machine/Encoder.lean: ENC (43_encoder R210, R211).
-/

namespace Sys2Proof.Machine

/-- The systematic codeword of msg: s ⊕ (s mod g) with s = x^(n−k) ⊗ msg (43_encoder R210). -/
def codeword (c : Code) (msg : Poly) : Poly :=
  let shifted := msg <<< (c.n - c.k)
  padd shifted (pmodulo shifted c.g)

/-- The source's encode(Code, message) (43_encoder R211). -/
def encodeMessage (c : Code) (msg : Poly) : Except Raise Poly :=
  if degGe msg c.k then .error ⟨.messageTooLarge, degNat msg⟩
  else .ok (codeword c msg)

/-- ENC (43_encoder R211). -/
def execEnc (s : State) : Host.Outcome State Fault Refusal :=
  finish s ((needCode s).bind (fun c => encodeMessage c (msgPoly s))) setCw

end Sys2Proof.Machine
end

