-- ==== Sys2Proof/Machine/FieldArithmetic.lean ====
section
/-!
DEFINITION. Sys2Proof/Machine/FieldArithmetic.lean: the six field-arithmetic commands (41_field_arithmetic R145 to R150).
-/

namespace Sys2Proof.Machine

/-- Install a (RESLO, RESHI) pair. -/
def setPair (p : Nat × Nat) (s : State) : State := setResult p.1 p.2 s

/-- PADD (41_field_arithmetic R145). -/
def execPadd (s : State) : Host.Outcome State Fault Refusal :=
  finish s (.ok (padd (opA s) (opB s), 0)) setPair

/-- PMUL: the 63-bit product, low word in RESLO, high word in RESHI (41_field_arithmetic R146). -/
def execPmul (s : State) : Host.Outcome State Fault Refusal :=
  let p := pmul (opA s) (opB s)
  finish s (.ok (p % 2 ^ 32, p >>> 32)) setPair

/-- PMOD's checks and result: remainder and quotient (41_field_arithmetic R147). -/
def pmodResult (a b : Poly) : Except Raise (Nat × Nat) :=
  if b = 0 then .error ⟨.divisionByZero, 0⟩
  else .ok (pmodulo a b, pdiv a b)

/-- PMOD (41_field_arithmetic R147). -/
def execPmod (s : State) : Host.Outcome State Fault Refusal :=
  finish s (pmodResult (opA s) (opB s)) setPair

/-- FRED (41_field_arithmetic R148). -/
def execFred (s : State) : Host.Outcome State Fault Refusal :=
  finish s ((needCode s).map (fun c => (red c.r (opA s), 0))) setPair

/-- FMUL (41_field_arithmetic R149). -/
def execFmul (s : State) : Host.Outcome State Fault Refusal :=
  finish s ((needCode s).map (fun c => (fmul c.r (opA s) (opB s), 0))) setPair

/-- FDIV's check of the reduced divisor and its quotient (41_field_arithmetic R150). -/
def fdivResult (c : Code) (a b : Poly) : Except Raise (Nat × Nat) :=
  if red c.r b = 0 then .error ⟨.divisionByZero, 0⟩
  else .ok (fquot c.m c.r (red c.r a) (red c.r b), 0)

/-- FDIV (41_field_arithmetic R150). -/
def execFdiv (s : State) : Host.Outcome State Fault Refusal :=
  finish s ((needCode s).bind (fun c => fdivResult c (opA s) (opB s))) setPair

end Sys2Proof.Machine
end

