-- ==== Sys2Proof/Machine/Dispatch.lean ====
section
/-!
DEFINITION. Sys2Proof/Machine/Dispatch.lean: the completion step of each command of 30_encoding R123, one arm each.
-/

namespace Sys2Proof.Machine

def exec (i : Instr) (s : State) : Host.Outcome State Fault Refusal :=
  match i with
  | .nop => Sys2Proof.Machine.execNop s
  | .gen => Sys2Proof.Machine.execGen s
  | .load => Sys2Proof.Machine.execLoad s
  | .save => Sys2Proof.Machine.execSave s
  | .enc => Sys2Proof.Machine.execEnc s
  | .dec => Sys2Proof.Machine.execDec s
  | .padd => Sys2Proof.Machine.execPadd s
  | .pmul => Sys2Proof.Machine.execPmul s
  | .pmod => Sys2Proof.Machine.execPmod s
  | .fred => Sys2Proof.Machine.execFred s
  | .fmul => Sys2Proof.Machine.execFmul s
  | .fdiv => Sys2Proof.Machine.execFdiv s

end Sys2Proof.Machine
end

