-- ==== Sys2Proof/Machine/Bus.lean ====
section
/-!
DEFINITION. Sys2Proof/Machine/Bus.lean: the register block seen from the bus: the address map (10_state R32), reads
(20_memory R92, R104) and writes (20_memory R93, 10_state R42).
-/

namespace Sys2Proof.Machine

/-- The registers at word offsets 0x000 to 0x058; 0x01C and 0x05C to 0xFFC are reserved (10_state R32). -/
def locateReg (addr : Nat) : Loc :=
  match addr / 4 with
  | 0 => .reg .id
  | 1 => .reg .hwcfg
  | 2 => .reg .ctrl
  | 3 => .reg .cmd
  | 4 => .reg .status
  | 5 => .reg .errcode
  | 6 => .reg .errinfo
  | 8 => .reg .n
  | 9 => .reg .b
  | 10 => .reg .d
  | 11 => .reg .r
  | 12 => .reg .codeM
  | 13 => .reg .codeK
  | 14 => .reg .codeT
  | 15 => .reg .codeOrd
  | 16 => .reg .opa
  | 17 => .reg .opb
  | 18 => .reg .reslo
  | 19 => .reg .reshi
  | 20 => .reg .decE
  | 21 => .reg .decNerr
  | 22 => .reg .decFlags
  | _ => .reserved

/-- What stands at a byte offset of the block (10_state R32). -/
def locate (addr : Nat) : Loc :=
  if addr < 0x1000 then locateReg addr
  else if addr < 0x1200 then .poly .g ((addr - 0x1000) / 4)
  else if addr < 0x1400 then .poly .msg ((addr - 0x1200) / 4)
  else if addr < 0x1600 then .poly .cw ((addr - 0x1400) / 4)
  else if addr < 0x1800 then .poly .errmask ((addr - 0x1600) / 4)
  else if addr < 0x4000 then .reserved
  else if addr < 0x8000 then .table .syn ((addr - 0x4000) / 4)
  else if addr < 0xC000 then .table .elp ((addr - 0x8000) / 4)
  else if addr < 0x10000 then .table .errpos ((addr - 0xC000) / 4)
  else if addr < 0x14000 then .table .pow ((addr - 0x10000) / 4)
  else if addr < 0x18000 then .table .log ((addr - 0x14000) / 4)
  else .reserved

/-- The bus address of an offset (00_scope R11). -/
def busAddress (offset : Nat) : Nat := Config.base + offset

/-- ID: the letters BCH and the interface revision 1 (10_state R33). -/
def idWord : Word := 0x42434801

/-- NOLOG (10_state R60). -/
def nolog : Word := 0xFFFFFFFF

/-- A view of the active code: f of it when CV = 1, else 0 (10_state R55 to R58). -/
def codeView (f : Code → Nat) (s : State) : Word :=
  match s.code with
  | none => 0
  | some c => toWord (f c)

/-- POW entry e: alpha^e when CV = 1 and e < Cord, else 0 (10_state R59). -/
def powEntry (s : State) (e : Nat) : Word :=
  match s.code with
  | none => 0
  | some c => toWord (c.pow.getD e 0)

/-- LOG entry v: the exponent of v when CV = 1 and v has one, else NOLOG (10_state R60). -/
def logEntry (s : State) (v : Nat) : Word :=
  match s.code with
  | none => nolog
  | some c =>
    match c.log.getD v none with
    | none => nolog
    | some e => toWord e

/-- The value a register holds, reserved bits 0 (10_state R33 to R67). -/
def peekReg (s : State) : Reg → Word
  | .id => idWord
  | .hwcfg => (BitVec.ofNat 4 s.mmax).setWidth 32
  | .ctrl => ctrlWord s
  | .cmd => s.lastCmd
  | .status => statusWord s
  | .errcode => toWord (errNumber s.errCode)
  | .errinfo => s.errInfo
  | .n => s.staged.n
  | .b => s.staged.b
  | .d => s.staged.d
  | .r => s.staged.r
  | .codeM => codeView (·.m) s
  | .codeK => codeView (·.k) s
  | .codeT => codeView (·.t) s
  | .codeOrd => codeView (·.ord) s
  | .opa => s.opa
  | .opb => s.opb
  | .reslo => s.reslo
  | .reshi => s.reshi
  | .decE => s.diag.decE
  | .decNerr => s.diag.decNerr
  | .decFlags => decFlagsWord s

/-- The 4096-bit value of a polynomial window (10_state R47 to R49, R61). -/
def peekWindow (s : State) : PolyWin → Window
  | .g => s.staged.g
  | .msg => s.msg
  | .cw => s.cw
  | .errmask => s.diag.errmask

/-- Entry j of a table window (10_state R59, R60, R62 to R64). -/
def peekTable (s : State) (j : Nat) : TableWin → Word
  | .syn => tableEntry s.diag.syn j
  | .elp => tableEntry s.diag.elp j
  | .errpos => tableEntry s.diag.errpos j
  | .pow => powEntry s j
  | .log => logEntry s j

/-- The value held at a location; reserved space holds 0 (10_state R40). -/
def peek (s : State) : Loc → Word
  | .reg name => peekReg s name
  | .poly w j => windowWord (peekWindow s w) j
  | .table t j => peekTable s j t
  | .reserved => 0

/-- Byte lane j of a word (20_memory R94). -/
def laneOf (w : Word) (j : Nat) : Byte := w.extractLsb' (8 * j) 8

/-- The byte the block holds at a byte offset (20_memory R94). -/
def byteAt (s : State) (addr : Nat) : Byte := laneOf (peek s (locate addr)) (addr % 4)

/-- Is a location an output of a command (20_memory R104)? -/
def isOutput (i : Instr) (l : Loc) : Bool :=
  match i, l with
  | .gen, .reg .r | .gen, .poly .g _ => true
  | .gen, .reg .codeM | .gen, .reg .codeK | .gen, .reg .codeT | .gen, .reg .codeOrd => true
  | .gen, .table .pow _ | .gen, .table .log _ => true
  | .load, .reg .codeM | .load, .reg .codeK | .load, .reg .codeT | .load, .reg .codeOrd => true
  | .load, .table .pow _ | .load, .table .log _ => true
  | .save, .reg .n | .save, .reg .b | .save, .reg .d | .save, .reg .r | .save, .poly .g _ => true
  | .enc, .poly .cw _ => true
  | .dec, .poly .msg _ | .dec, .poly .errmask _ => true
  | .dec, .table .syn _ | .dec, .table .elp _ | .dec, .table .errpos _ => true
  | .dec, .reg .decE | .dec, .reg .decNerr | .dec, .reg .decFlags => true
  | .padd, .reg .reslo | .padd, .reg .reshi | .pmul, .reg .reslo | .pmul, .reg .reshi => true
  | .pmod, .reg .reslo | .pmod, .reg .reshi | .fred, .reg .reslo | .fred, .reg .reshi => true
  | .fmul, .reg .reslo | .fmul, .reg .reshi | .fdiv, .reg .reslo | .fdiv, .reg .reshi => true
  | _, _ => false

/-- A read returns any value: the engine is BUSY and the location is an output of the running command
(20_memory R92, R104). -/
def readsFree (s : State) (l : Loc) : Bool :=
  busy s &&
    match runningCommand s with
    | none => false
    | some i => isOutput i l

/-- A read: its value, which the host takes, and the next free value used up when the read is a free one.
Nothing of the core changes (20_memory R92, R99). -/
def readLoc (l : Loc) (s : State) : State :=
  if readsFree s l then
    { s with host := { s.host with readData := Config.freeWord s.draws }, draws := s.draws + 1 }
  else { s with host := { s.host with readData := peek s l } }

/-- The busy-write rejection: an operand write is stored when IDLE and sets OVR when BUSY (10_state R42). -/
def storeOperand (store : State → State) (s : State) : State := if busy s then setOvr s else store s

/-- A write to CTRL: the soft reset wins over IRQ_EN (10_state R35, 70_reset_and_hazards R341). -/
def writeCtrl (v : Word) (s : State) : State :=
  if v.getLsbD 1 then softReset s else { s with irqEn := v.getLsbD 0 }

/-- A write to a register; a read-only register ignores it (20_memory R93, 10_state R40). -/
def writeReg (name : Reg) (v : Word) (s : State) : State :=
  match name with
  | .ctrl => writeCtrl v s
  | .cmd => acceptCommand v s
  | .status => writeStatus v s
  | .n => storeOperand (fun s => { s with staged := { s.staged with n := v } }) s
  | .b => storeOperand (fun s => { s with staged := { s.staged with b := v } }) s
  | .d => storeOperand (fun s => { s with staged := { s.staged with d := v } }) s
  | .r => storeOperand (fun s => { s with staged := { s.staged with r := v } }) s
  | .opa => storeOperand (fun s => { s with opa := v }) s
  | .opb => storeOperand (fun s => { s with opb := v }) s
  | .id | .hwcfg | .errcode | .errinfo | .codeM | .codeK | .codeT | .codeOrd | .reslo | .reshi
  | .decE | .decNerr | .decFlags => s

/-- A write to word j of a polynomial window; ERRMASK is read only (20_memory R93, 10_state R61). -/
def writeWindow (w : PolyWin) (j : Nat) (v : Word) (s : State) : State :=
  match w with
  | .g => storeOperand (fun s => { s with staged := { s.staged with g := setWindowWord s.staged.g j v } }) s
  | .msg => storeOperand (fun s => { s with msg := setWindowWord s.msg j v }) s
  | .cw => storeOperand (fun s => { s with cw := setWindowWord s.cw j v }) s
  | .errmask => s

/-- A write to a location; tables are read only, reserved space ignores writes (20_memory R93, 10_state R40). -/
def writeLoc (l : Loc) (v : Word) (s : State) : State :=
  match l with
  | .reg name => writeReg name v s
  | .poly w j => writeWindow w j v s
  | .table _ _ => s
  | .reserved => s

/-- One bus access; outside the admitted subset the model refuses it (20_memory R91 to R93, R97). -/
def busAccess (a : Access) (s : State) : Host.Outcome State Fault Refusal :=
  match a with
  | .read width addr =>
    if definedAt width addr then .next (readLoc (locate addr) s) else .refused (.undefinedAccess width addr)
  | .write width addr v =>
    if definedAt width addr then .next (writeLoc (locate addr) v s) else .refused (.undefinedAccess width addr)

/-- The host agent's next operation, the rest of its program left (30_encoding R132, R133, R136). A `wait` whose
read returns BUSY = 1 stays; a host with nothing left to do leaves the core as it is. -/
def hostStep (s : State) : Host.Outcome State Fault Refusal :=
  match s.host.program with
  | [] => .next s
  | .access a :: rest => busAccess a (setProgram rest s)
  | .assertRead addr v :: rest =>
    if definedAt 4 addr then .next (recordAssert v (readLoc (locate addr) (setProgram rest s)))
    else .refused (.undefinedAccess 4 addr)
  | .wait :: rest =>
    let t := readLoc (.reg .status) s
    if t.host.readData.getLsbD 0 then .next t else .next (setProgram rest t)

end Sys2Proof.Machine
end

