-- ==== Sys2Proof/Machine/HostProgram.lean ====
section
/-!
DEFINITION. Sys2Proof/Machine/HostProgram.lean: the notation of host programs, its expansion and its encoding as bus
transactions (30_encoding R132 to R136), and the end of a run (70_reset_and_hazards R345).
-/

namespace Sys2Proof.Machine

/-- offset(NAME) for a register (10_state R32). -/
def regOffset : Reg → Nat
  | .id => 0x000
  | .hwcfg => 0x004
  | .ctrl => 0x008
  | .cmd => 0x00C
  | .status => 0x010
  | .errcode => 0x014
  | .errinfo => 0x018
  | .n => 0x020
  | .b => 0x024
  | .d => 0x028
  | .r => 0x02C
  | .codeM => 0x030
  | .codeK => 0x034
  | .codeT => 0x038
  | .codeOrd => 0x03C
  | .opa => 0x040
  | .opb => 0x044
  | .reslo => 0x048
  | .reshi => 0x04C
  | .decE => 0x050
  | .decNerr => 0x054
  | .decFlags => 0x058

/-- The base of a polynomial window (10_state R32). -/
def windowBase : PolyWin → Nat
  | .g => 0x1000
  | .msg => 0x1200
  | .cw => 0x1400
  | .errmask => 0x1600

/-- The base of a table window (10_state R32). -/
def tableBase : TableWin → Nat
  | .syn => 0x4000
  | .elp => 0x8000
  | .errpos => 0xC000
  | .pow => 0x10000
  | .log => 0x14000

/-- The offset of a named location: window base + 4·j (30_encoding R132). A reserved place has no name in the
notation; the first reserved offset stands for it. -/
def locOffset : Loc → Nat
  | .reg name => regOffset name
  | .poly w j => windowBase w + 4 * j
  | .table t j => tableBase t + 4 * j
  | .reserved => 0x01C

/-- `wr` of a location (30_encoding R132). -/
def opWrite (l : Loc) (v : Word) : HostOp := .access (.write 4 (locOffset l) v)

/-- `cmd MNEMONIC`: write its word to CMD (30_encoding R132). -/
def opCommand (i : Instr) : HostOp := opWrite (.reg .cmd) (encode i)

/-- p[32·j+31 : 32·j] (30_encoding R133). -/
def polyWord (p : Poly) (j : Nat) : Word := toWord (p >>> (32 * j))

/-- A line of the notation as operations (30_encoding R132, R133). -/
def expandLine : Line → List HostOp
  | .wr l v => [opWrite l v]
  | .rd l => [.access (.read 4 (locOffset l))]
  | .rdEq l v => [.assertRead (locOffset l) v]
  | .cmd i => [opCommand i]
  | .wait => [.wait]
  | .run i => [opCommand i, .wait]
  | .wrpoly w p => (List.range (degNat p / 32 + 1)).map (fun j => opWrite (.poly w j) (polyWord p j))
  | .rdpolyEq w p => (List.range 128).map (fun j => .assertRead (locOffset (.poly w j)) (polyWord p j))
  | .ack => [opWrite (.reg .status) 0x0000000E]

/-- A host program as the operations of the host agent (30_encoding R136). -/
def expandProgram (ls : List Line) : List HostOp := ls.flatMap expandLine

/-- The transaction an operation is encoded as; a `wait` is the one read of STATUS that is repeated until bit 0 of the
data is 0 (30_encoding R134). -/
def transactionOf : HostOp → Transaction
  | .access (.read _ addr) => ⟨.read, addr, .returned⟩
  | .access (.write _ addr v) => ⟨.write, addr, .word v⟩
  | .assertRead addr v => ⟨.read, addr, .word v⟩
  | .wait => ⟨.read, 0x010, .untilClear⟩

/-- The encoding of a host program (30_encoding R134). -/
def encodeProgram (ls : List Line) : List Transaction := (expandProgram ls).map transactionOf

/-- May the transfer stand for the transaction, once or as one of its repetitions? -/
def admitsTransfer (x : Transaction) (y : Transfer) : Bool :=
  decide (x.dir = y.dir) && decide (x.offset = y.offset) &&
    match x.data with
    | .word v => decide (y.data = v)
    | .returned | .untilClear => true

/-- Is the transaction repeated after the transfer? Only a `wait` whose read returned bit 0 = 1 is
(30_encoding R133, R134). -/
def repeatsAfter (x : Transaction) (y : Transfer) : Bool := decide (x.data = .untilClear) && y.data.getLsbD 0

/-- Are the transfers, in their order, those the encoded program stands for? A `wait` stands for any number of reads of
STATUS with bit 0 = 1 and then one with bit 0 = 0 (30_encoding R129, R134). -/
def unrolls : List Transfer → List Transaction → Bool
  | [], xs => xs.isEmpty
  | _ :: _, [] => false
  | y :: ys, x :: xs => admitsTransfer x y && if repeatsAfter x y then unrolls ys (x :: xs) else unrolls ys xs

/-- The transfer the host's next operation performs, given the value its read returns; none when the host has nothing
left to do (30_encoding R134). -/
def transferOf (ops : List HostOp) (returned : Word) : Option Transfer :=
  match ops with
  | [] => none
  | .access (.write _ addr v) :: _ => some ⟨.write, addr, v⟩
  | .access (.read _ addr) :: _ => some ⟨.read, addr, returned⟩
  | .assertRead addr _ :: _ => some ⟨.read, addr, returned⟩
  | .wait :: _ => some ⟨.read, 0x010, returned⟩

/-- A state whose host agent runs the program next (30_encoding R136, log 7). -/
def withProgram (ls : List Line) (s : State) : State := setProgram (expandProgram ls) s

/-- The run has ended: the last access is applied and PHASE = IDLE (70_reset_and_hazards R345). -/
def runEnded (s : State) : Bool := s.host.program.isEmpty && !(busy s)

end Sys2Proof.Machine
end

