-- ==== Sys2Proof/Machine/Step.lean ====
section
/-!
DEFINITION. Sys2Proof/Machine/Step.lean: one step: one host operation or the completion of the running command
(20_memory R98, R101; 30_encoding R128, R129).
-/

namespace Sys2Proof.Machine

/-- The engine's completion step: the latched command's meaning, or IllegalCommand (30_encoding R124, R128). -/
def engineStep (s : State) : Host.Outcome State Fault Refusal :=
  match runningCommand s with
  | some i => exec i s
  | none => finishIllegal s

/-- One step of the machine: the agent whose turn it is moves. -/
def step (s : State) : Host.Outcome State Fault Refusal :=
  match mover s with
  | .host => hostStep (takeTurn s)
  | .engine => engineStep (takeTurn s)

/-- s right after the accept of the command word w, the engine to move next (log 7). -/
def State.withFetchWord (s : State) (nbits w : Nat) : State := placeCommand (tableWord nbits w) s

end Sys2Proof.Machine
end

