-- ==== Sys2Proof/Machine/Trace.lean ====
section
/-!
DEFINITION. Sys2Proof/Machine/Trace.lean: the bus transactions that take place in a run (30_encoding R134, 20_memory R101).
-/

namespace Sys2Proof.Machine

/-- The transfer that takes place in the step from s to t: the host's, none when the engine completes, which performs
no bus access (20_memory R91). -/
def stepTransfer (s t : State) : Option Transfer :=
  match mover s with
  | .engine => none
  | .host => transferOf s.host.program t.host.readData

/-- The ordered list of the transfers of the first k steps, up to a refused access (30_encoding R134). -/
def transfers : (k : Nat) → (s : State) → List Transfer
  | 0, _ => []
  | k + 1, s =>
    match step s with
    | .next t => (stepTransfer s t).toList ++ transfers k t
    | .fault _ => []
    | .refused _ => []

end Sys2Proof.Machine
end

