-- ==== Sys2Proof/Safety.lean ====
section
/-!
DEFINITION. Sys2Proof/Safety.lean: what the claims say of a good state and a safe run, in the spec's own declarative terms:
the invariants of an active code (10_state R70), of the machine, and the hazards a host must respect
(70_reset_and_hazards R350).
-/

namespace Sys2Proof

open Sys2Proof.Machine

/-- m = order(2, n): the least m with 1 ≤ m ≤ n and 2^m mod n = 1 (42_code_generator R172). -/
def IsOrder (n m : Nat) : Prop :=
  1 ≤ m ∧ m ≤ n ∧ 2 ^ m % n = 1 ∧ ∀ i, 1 ≤ i → i < m → 2 ^ i % n ≠ 1

/-- No binary polynomial f with 1 ≤ deg f ≤ m − 1 has r mod f = 0 (42_code_generator R174). -/
def IsIrreducible (m : Nat) (r : Poly) : Prop :=
  ∀ f e, deg f = some e → 1 ≤ e → e ≤ m - 1 → pmodulo r f ≠ 0

/-- v_e of 41_field_arithmetic R141: v_0 = 1, v_(e+1) = red_r(v_e ⊗ x). -/
def alphaSeq (r : Poly) : Nat → Poly
  | 0 => 1
  | e + 1 => red r (pmul (alphaSeq r e) 2)

/-- e = ord(r) for r of degree m: the least e with 1 ≤ e ≤ 2^m − 1 and v_e = 1 (41_field_arithmetic R141). -/
def IsOrd (m : Nat) (r : Poly) (e : Nat) : Prop :=
  1 ≤ e ∧ e ≤ 2 ^ m - 1 ∧ alphaSeq r e = 1 ∧ ∀ i, 1 ≤ i → i < e → alphaSeq r i ≠ 1

/-- r is accepted for length n: irreducible of degree m, its ord at least n (42_code_generator R176). -/
def IsAccepted (m n : Nat) (r : Poly) : Prop :=
  deg r = some m ∧ IsIrreducible m r ∧ ∃ e, IsOrd m r e ∧ n ≤ e

/-- r is the first accepted candidate of degree m in increasing value (42_code_generator R175, R176). -/
def IsFirstAccepted (m n : Nat) (r : Poly) : Prop :=
  IsAccepted m n r ∧ ∀ r' < r, ¬ IsAccepted m n r'

/-- g divides p over GF(2). -/
def PolyDivides (g p : Poly) : Prop := ∃ h, pmul h g = p

/-- g = lcm of the list over GF(2): the multiples of g are the common multiples (42_code_generator R182). Over GF(2)
this names one polynomial, and 1 for the empty list. -/
def IsLcmOf (Ms : List Poly) (g : Poly) : Prop := ∀ h, PolyDivides g h ↔ ∀ M ∈ Ms, PolyDivides M h

/-- The coefficient of x^j in the product of (x + a) over the list, in GF(2^m) modulo r (42_code_generator R180). -/
def prodCoeff (r : Poly) : List Poly → Nat → Poly
  | [], j => if j = 0 then 1 else 0
  | a :: as, 0 => fmul r a (prodCoeff r as 0)
  | a :: as, j + 1 => padd (prodCoeff r as j) (fmul r a (prodCoeff r as (j + 1)))

/-- M = M_i: the binary polynomial with the coefficients of the product of (x + alpha^c) over the class C(i)
(42_code_generator R180, R181). There is none when some coefficient is neither 0 nor 1. -/
def IsMinPoly (r : Poly) (n i : Nat) (M : Poly) : Prop :=
  ∀ j, prodCoeff r ((conjClass n i).map (alphaSeq r)) j = if M.testBit j then 1 else 0

/-- (q, s) = divmod(a, b): a = (q ⊗ b) ⊕ s and deg s < deg b (00_scope R15). -/
def IsDivMod (a b q s : Poly) : Prop :=
  a = padd (pmul q b) s ∧ ∀ e, deg b = some e → degGe s e = false

/-- The tables of r: CPOW the powers, CLOG their exponents and NOLOG elsewhere (41_field_arithmetic R142). -/
structure TablesOk (m : Nat) (r : Poly) (ord : Nat) (pow : List Poly) (log : List (Option Nat)) : Prop where
  pow_length : pow.length = ord
  pow_entry : ∀ e, e < ord → pow.getD e 0 = alphaSeq r e
  log_length : log.length = 2 ^ m
  log_entry : ∀ v e, log.getD v none = some e ↔ v < 2 ^ m ∧ e < ord ∧ alphaSeq r e = v

/-- The invariants of the active code (10_state R54, R70; 42_code_generator R183). -/
structure CodeOk (mmax : Nat) (c : Code) : Prop where
  n_ge : 3 ≤ c.n
  b_ge : 1 ≤ c.b
  d_ge : 1 ≤ c.d
  d_le : c.d ≤ c.n
  order : IsOrder c.n c.m
  m_ge : 2 ≤ c.m
  m_le : c.m ≤ mmax
  r_deg : deg c.r = some c.m
  r_irreducible : IsIrreducible c.m c.r
  ord_is : IsOrd c.m c.r c.ord
  ord_ge : c.n ≤ c.ord
  g_deg_pos : 0 < degNat c.g
  g_deg_lt : degNat c.g < c.n
  g_divides : PolyDivides c.g (xnPlusOne c.n)
  k_eq : c.k = c.n - degNat c.g
  t_eq : c.t = (c.d - 1) / 2
  q_eq : c.q = 2
  tables : TablesOk c.m c.r c.ord c.pow c.log

/-- The invariant every step keeps: MMAX legal, the active code as R70 says and its b that of
a 32-bit register B (10_state R44), DONE, ERR, ERRCODE and ERRINFO clear
while BUSY (10_state R37, R38, R39), ERRINFO 0 without an error code, ERR only with one, and the tables in
canonical form. -/
structure MachineInv (s : State) : Prop where
  mmax_legal : legalMmax s.mmax = true
  code_ok : ∀ c, s.code = some c → CodeOk s.mmax c
  code_b_lt : ∀ c, s.code = some c → c.b < 2 ^ 32
  busy_clear : s.phase = .busy → s.done = false ∧ s.err = false ∧ s.errCode = .noError
  info_clear : s.errCode = .noError → s.errInfo = 0
  err_coded : s.err = true → s.errCode ≠ .noError
  syn_wf : tableWf s.diag.syn = true
  elp_wf : tableWf s.diag.elp = true
  errpos_wf : tableWf s.diag.errpos = true

/-- The registers and windows a host write of which is dropped while BUSY (10_state R42). -/
def isOperandLoc : Loc → Bool
  | .reg .cmd | .reg .n | .reg .b | .reg .d | .reg .r | .reg .opa | .reg .opb => true
  | .poly .g _ | .poly .msg _ | .poly .cw _ => true
  | _ => false

/-- The host's next operation respects the completion hazard: while BUSY it reads no output of the running command
and writes neither CMD nor an operand (70_reset_and_hazards R350). -/
def respectsHazards (s : State) : Bool :=
  match s.host.program with
  | .access (.read _ addr) :: _ => !(readsFree s (locate addr))
  | .assertRead addr _ :: _ => !(readsFree s (locate addr))
  | .access (.write _ addr _) :: _ => !(busy s && isOperandLoc (locate addr))
  | .wait :: _ => true
  | [] => true

/-- A step is safe when the machine does not stop: its access is one the spec defines (20_memory R97). -/
def stepIsSafe (s : State) : Bool :=
  match step s with
  | .next _ => true
  | .fault _ => false
  | .refused _ => false

end Sys2Proof
end

