-- ==== Sys2Proof/Certificates/Slice0/Obligations.lean ====
section
/-!
DEFINITION. Sys2Proof/Certificates/Slice0/Obligations.lean: the statements for the provers, each from the numbered rules of
spec/ that OBLIGATIONS.json cites.
-/

namespace Sys2Proof.Claims

open Sys2Proof Sys2Proof.Machine

/-! ### Words the statements use -/

/-- u with the flags of a successful completion (30_encoding R128). -/
def completed (u : State) : State :=
  { u with err := false, errCode := .noError, errInfo := 0, done := true, phase := .idle }

/-- The command completes in state u with success (30_encoding R128). -/
def SucceedsIn (i : Instr) (s u : State) : Prop := exec i s = .next (completed u)

/-- The command completes with the error and changes nothing else (60_exceptions R305, R306). -/
def FailsWith (i : Instr) (s : State) (code : ErrCode) (info : Nat) : Prop :=
  exec i s = .next
    { s with errCode := code, errInfo := BitVec.ofNat 32 info, err := true, done := true, phase := .idle }

/-- The configuration is legal and c is the active code, with the invariants of 10_state R70 and a b that the 32-bit
register B can hold (10_state R44); `Obligations.StepKeepsMachineInv` says that every step keeps these. -/
def GoodCode (s : State) (c : Code) : Prop :=
  legalMmax s.mmax = true ∧ s.code = some c ∧ CodeOk s.mmax c ∧ c.b < 2 ^ 32

/-- A location the block has: word j < 128 of a window, entry j < 4096 of a table (10_state R32). -/
def ValidLoc : Loc → Prop
  | .poly _ j => j < 128
  | .table _ j => j < 4096
  | _ => True

/-- Bit j of a ⊗ b: the exclusive or over i of a[i] AND b[j − i] (00_scope R15). -/
def convBit (a b j : Nat) : Bool :=
  (List.range (j + 1)).foldl (fun acc i => xor acc (a.testBit i && b.testBit (j - i))) false

/-- The sum of a list of field elements. -/
def fieldSum (l : List Nat) : Nat := l.foldl (fun acc v => acc ^^^ v) 0

/-- pow is the power table of r: alpha^e for e below ord(r) (41_field_arithmetic R142). -/
def IsPowTable (m : Nat) (r : Poly) (pow : List Poly) : Prop :=
  ∀ e, IsOrd m r e → pow = (List.range e).map (alphaSeq r)

/-- det(M_e) = 0 for the matrix M_e[i][j] = syn[i + j] over GF(2^m) (44_decoder R235, R236): over a field, that is
M_e · v = 0 for some column v of field elements that is not 0. The 0×0 matrix is not singular. -/
def SyndromeSingular (m : Nat) (r : Poly) (syn : Nat → Poly) (e : Nat) : Prop :=
  ∃ v : Nat → Poly, (∀ j, v j < 2 ^ m) ∧ (∃ j < e, v j ≠ 0) ∧
    ∀ i < e, fieldSum ((List.range e).map (fun j => fmul r (syn (i + j)) (v j))) = 0

/-- The number of set bits of a window. -/
def windowWeight (w : Window) : Nat := (List.range 4096).countP (fun p => w.getLsbD p)

/-- The outputs of each command, by the table of 20_memory R104. -/
def OutputOf (i : Instr) (l : Loc) : Prop :=
  (i = .gen ∧ (l = .reg .r ∨ ∃ j, l = .poly .g j)) ∨
  ((i = .gen ∨ i = .load) ∧
    ((l = .reg .codeM ∨ l = .reg .codeK ∨ l = .reg .codeT ∨ l = .reg .codeOrd) ∨
      ∃ j, l = .table .pow j ∨ l = .table .log j)) ∨
  (i = .save ∧ ((l = .reg .n ∨ l = .reg .b ∨ l = .reg .d ∨ l = .reg .r) ∨ ∃ j, l = .poly .g j)) ∨
  (i = .enc ∧ ∃ j, l = .poly .cw j) ∨
  (i = .dec ∧ ((l = .reg .decE ∨ l = .reg .decNerr ∨ l = .reg .decFlags) ∨
    ∃ j, l = .poly .msg j ∨ l = .poly .errmask j ∨ l = .table .syn j ∨ l = .table .elp j ∨ l = .table .errpos j)) ∨
  ((i = .padd ∨ i = .pmul ∨ i = .pmod ∨ i = .fred ∨ i = .fmul ∨ i = .fdiv) ∧
    (l = .reg .reslo ∨ l = .reg .reshi))

/-- The registers every completion writes (30_encoding R128, 60_exceptions R305). -/
def IsStatusLoc (l : Loc) : Prop := l = .reg .status ∨ l = .reg .errcode ∨ l = .reg .errinfo

/-- The host's next operation is a write of v at an offset, and the host moves. -/
def HostWrites (s : State) (addr : Nat) (v : Word) : Prop :=
  mover s = .host ∧ ∃ rest, s.host.program = .access (.write 4 addr v) :: rest

end Sys2Proof.Claims

section Statements

open Sys2Proof Sys2Proof.Machine Sys2Proof.Claims

/-! ### Command words and steps -/

/-- 30_encoding R123, R124: decoding and encoding agree on every word, and the legal words are exactly those with
w[31:8] = 0 and one of the twelve OP values. -/
def Obligations.DecodeAgreesWithEncode : Prop :=
  (∀ (w : Word) (i : Instr), decode w = .ok i ↔ encode i = w) ∧
  ∀ w : Word, (∃ i, decode w = .ok i) ↔
    w.extractLsb' 8 24 = 0 ∧
      (w.extractLsb' 0 8).toNat ∈
        [0x00, 0x01, 0x02, 0x03, 0x04, 0x05, 0x08, 0x09, 0x0A, 0x0B, 0x0C, 0x0D]

/-- 30_encoding R121, R123: some words written out from the format and the opcode map. -/
def Obligations.SpecCommandWordsDecode : Prop :=
  decode 0b00000000000000000000000000000000#32 = .ok .nop ∧
  decode 0b00000000000000000000000000000001#32 = .ok .gen ∧
  decode 0b00000000000000000000000000000101#32 = .ok .dec ∧
  decode 0b00000000000000000000000000001001#32 = .ok .pmul ∧
  decode 0b00000000000000000000000000001101#32 = .ok .fdiv ∧
  decode 0b00000000000000000000000000000110#32 = .error .reservedOpcode ∧
  decode 0b10000000000000000000000000000001#32 = .error .reservedField

/-- 30_encoding R127, R128: when the engine moves and the latched word decodes to i, the step is the completion of i
in the state whose turn has been taken; a turn is no state of the core. The schedule is the model's (log 2). -/
def Obligations.StepRunsLatchedCommand : Prop :=
  (∀ (s : State) (i : Instr), mover s = .engine → decode s.lastCmd = .ok i → step s = exec i (takeTurn s)) ∧
  (∀ s : State, takeTurn s = { s with host := { s.host with turns := (takeTurn s).host.turns } }) ∧
  (∀ (s : State) (w : Nat) (i : Instr), decode (BitVec.ofNat 32 w) = .ok i → w < 2 ^ 32 →
    step (s.withFetchWord 32 w) = exec i (s.withFetchWord 32 w))

/-- 30_encoding R126, R129, R132, 20_memory R91 to R93, R97, R101: who moves, and what the host's step is. The engine
moves only while BUSY; while IDLE the host does, and while BUSY it may; an access of the host program is performed on
the bus, an asserted read is performed and compared, an undefined one is refused, and an idle host changes nothing
(the schedule and the host's fields are the model's, log 1, log 2, log 13). -/
def Obligations.StepsOfEngineAndHost : Prop :=
  (∀ s : State, mover s = .engine ↔
    s.phase = .busy ∧ (s.host.turns = [] ∨ s.host.turns.head? = some .engine)) ∧
  (∀ s : State, mover s = .host → step s = hostStep (takeTurn s)) ∧
  (∀ s : State, s.phase = .idle → mover s = .host ∧ takeTurn s = s) ∧
  (∀ s : State, s.phase = .busy → s.host.turns.head? = some .host → mover s = .host) ∧
  (∀ s : State, s.phase = .busy → (takeTurn s).host.turns = s.host.turns.tail) ∧
  (∀ (s : State) (a : Access) (rest : List HostOp), mover s = .host → s.host.program = .access a :: rest →
    step s = busAccess a { takeTurn s with host := { (takeTurn s).host with program := rest } }) ∧
  (∀ (s : State) (addr : Nat) (v : Word) (rest : List HostOp), mover s = .host →
    s.host.program = .assertRead addr v :: rest →
    (addr % 4 = 0 ∧ addr < 0x20000 → ∃ u,
      busAccess (.read 4 addr) { takeTurn s with host := { (takeTurn s).host with program := rest } } = .next u ∧
      step s = .next
        { u with host := { u.host with assertsHold := s.host.assertsHold && decide (u.host.readData = v) } }) ∧
    (addr % 4 ≠ 0 ∨ 0x20000 ≤ addr → step s = .refused (.undefinedAccess 4 addr))) ∧
  ∀ s : State, mover s = .host → s.host.program = [] → step s = .next (takeTurn s)

/-- 30_encoding R124: an illegal word completes with IllegalCommand, ERRINFO the word, and changes nothing else. -/
def Obligations.IllegalWordCompletes : Prop :=
  ∀ (s : State) (e : Reject), mover s = .engine → decode s.lastCmd = .error e →
    step s = .next
      { takeTurn s with
        errCode := .illegalCommand, errInfo := s.lastCmd, err := true, done := true, phase := .idle }

/-- 30_encoding R129, R131: a command that was accepted completes after finitely many steps of a host that does
nothing: at most one for each turn still in the schedule (log 2). -/
def Obligations.AcceptedCommandCompletes : Prop :=
  ∀ s : State, s.phase = .busy → s.host.program = [] →
    ∃ k t u, k ≤ s.host.turns.length ∧ Host.Core.run core k s = .next t ∧ mover t = .engine ∧
      step t = .next u ∧ u.phase = .idle ∧ u.done = true

/-- 30_encoding R128, 60_exceptions R305: every command completes in every state: PHASE IDLE, DONE 1, and ERR 1
exactly when an error code is reported; ERRINFO is 0 after a success. -/
def Obligations.EveryCommandCompletes : Prop :=
  ∀ (i : Instr) (s : State), ∃ t, exec i s = .next t ∧ t.phase = .idle ∧ t.done = true ∧
    (t.err = true ↔ t.errCode ≠ .noError) ∧ (t.errCode = .noError → t.errInfo = 0)

/-- 60_exceptions R306: a command word, legal or not, that completes with an error changes nothing but STATUS, ERRCODE and
ERRINFO (LASTCMD was set at accept). -/
def Obligations.ErrorChangesNothingElse : Prop :=
  ∀ s t : State, engineStep s = .next t → t.err = true →
    t = { s with errCode := t.errCode, errInfo := t.errInfo, err := true, done := true, phase := .idle }

/-- 30_encoding R123, 20_memory R104: a command changes no byte of the block but its outputs and the status
registers, and neither IRQ_EN, LASTCMD, OVR nor MMAX; only GEN and LOAD change the active code. -/
def Obligations.CommandWritesOnlyItsOutputs : Prop :=
  ∀ (i : Instr) (s t : State), exec i s = .next t →
    (∀ addr, ¬ OutputOf i (locate addr) → ¬ IsStatusLoc (locate addr) → byteAt t addr = byteAt s addr) ∧
    t.ovr = s.ovr ∧ t.mmax = s.mmax ∧ t.host = s.host ∧ t.draws = s.draws ∧
    (i ≠ .gen → i ≠ .load → t.code = s.code)

/-- 30_encoding R130: error code, ERRINFO and, on success, the outputs are a function of the operand registers and the
active code (and MMAX), whatever the rest of the state. -/
def Obligations.ResultDependsOnOperandsOnly : Prop :=
  ∀ (i : Instr) (s s' t t' : State), s.mmax = s'.mmax → s.staged = s'.staged → s.msg = s'.msg → s.cw = s'.cw →
    s.opa = s'.opa → s.opb = s'.opb → s.code = s'.code → exec i s = .next t → exec i s' = .next t' →
    t.err = t'.err ∧ t.errCode = t'.errCode ∧ t.errInfo = t'.errInfo ∧ t.code = t'.code ∧
    (t.err = false → ∀ l, OutputOf i l → peek t l = peek t' l)

/-! ### The register block -/

/-- 10_state R32: the offsets of the register map; and 30_encoding R132: offset(NAME) of every named location is the
aligned offset where it stands. -/
def Obligations.RegisterMapOffsets : Prop :=
  locate 0x000 = .reg .id ∧ locate 0x004 = .reg .hwcfg ∧ locate 0x008 = .reg .ctrl ∧ locate 0x00C = .reg .cmd ∧
  locate 0x010 = .reg .status ∧ locate 0x014 = .reg .errcode ∧ locate 0x018 = .reg .errinfo ∧
  locate 0x020 = .reg .n ∧ locate 0x024 = .reg .b ∧ locate 0x028 = .reg .d ∧ locate 0x02C = .reg .r ∧
  locate 0x030 = .reg .codeM ∧ locate 0x034 = .reg .codeK ∧ locate 0x038 = .reg .codeT ∧
  locate 0x03C = .reg .codeOrd ∧ locate 0x040 = .reg .opa ∧ locate 0x044 = .reg .opb ∧
  locate 0x048 = .reg .reslo ∧ locate 0x04C = .reg .reshi ∧ locate 0x050 = .reg .decE ∧
  locate 0x054 = .reg .decNerr ∧ locate 0x058 = .reg .decFlags ∧
  (∀ j < 128, locate (0x1000 + 4 * j) = .poly .g j ∧ locate (0x1200 + 4 * j) = .poly .msg j ∧
    locate (0x1400 + 4 * j) = .poly .cw j ∧ locate (0x1600 + 4 * j) = .poly .errmask j) ∧
  (∀ j < 4096, locate (0x4000 + 4 * j) = .table .syn j ∧ locate (0x8000 + 4 * j) = .table .elp j ∧
    locate (0xC000 + 4 * j) = .table .errpos j ∧ locate (0x10000 + 4 * j) = .table .pow j ∧
    locate (0x14000 + 4 * j) = .table .log j) ∧
  ∀ l, ValidLoc l → l ≠ .reserved → locate (locOffset l) = l ∧ locOffset l % 4 = 0 ∧ locOffset l < 0x20000

/-- 10_state R40: the reserved offsets, that they read 0, that writes to them and to read-only registers change
nothing, and that reserved bits read 0 and ignore writes. -/
def Obligations.ReservedSpaceReadsZero : Prop :=
  (∀ addr, definedAt 4 addr = true →
    (locate addr = .reserved ↔
      addr = 0x01C ∨ (0x05C ≤ addr ∧ addr < 0x1000) ∨ (0x1800 ≤ addr ∧ addr < 0x4000) ∨ 0x18000 ≤ addr)) ∧
  (∀ s : State, peek s .reserved = 0) ∧
  (∀ (s : State) (v : Word) (l : Loc),
    (l = .reserved ∨ (∃ t j, l = .table t j) ∨ (∃ j, l = .poly .errmask j) ∨
      l ∈ [.reg .id, .reg .hwcfg, .reg .errcode, .reg .errinfo, .reg .codeM, .reg .codeK, .reg .codeT,
        .reg .codeOrd, .reg .reslo, .reg .reshi, .reg .decE, .reg .decNerr, .reg .decFlags]) →
    writeLoc l v s = s) ∧
  (∀ (s : State) (i : Nat),
    (1 ≤ i → (peek s (.reg .ctrl)).getLsbD i = false) ∧ (5 ≤ i → (peek s (.reg .status)).getLsbD i = false) ∧
    (8 ≤ i → (peek s (.reg .errcode)).getLsbD i = false) ∧ (4 ≤ i → (peek s (.reg .hwcfg)).getLsbD i = false) ∧
    (1 ≤ i → (peek s (.reg .decFlags)).getLsbD i = false)) ∧
  (∀ (s : State) (v : Word), writeLoc (.reg .ctrl) v s = writeLoc (.reg .ctrl) (v &&& 3) s ∧
    writeLoc (.reg .status) v s = writeLoc (.reg .status) (v &&& 0xE) s)

/-- 20_memory R97: an access of another width, misaligned, or at or above 0x20000 is refused by name; every other one
is performed. -/
def Obligations.UndefinedAccessIsRefused : Prop :=
  ∀ (s : State) (width addr : Nat) (v : Word),
    (width ≠ 4 ∨ addr % 4 ≠ 0 ∨ 0x20000 ≤ addr →
      busAccess (.read width addr) s = .refused (.undefinedAccess width addr) ∧
      busAccess (.write width addr v) s = .refused (.undefinedAccess width addr)) ∧
    (width = 4 ∧ addr % 4 = 0 ∧ addr < 0x20000 →
      busAccess (.read width addr) s = .next (readLoc (locate addr) s) ∧
      busAccess (.write width addr v) s = .next (writeLoc (locate addr) v s))

/-- 20_memory R92, R99: a read returns the value held, or a free value for an output of the running command, and
changes nothing else (the free-value counter is the model's, log 3). 10_state R33 to R67, 60_exceptions R300: the value
held at each named register and table entry, CTRL, STATUS, the windows, POW and LOG apart, which
`Obligations.CtrlWriteAndSoftReset`, `Obligations.StatusFieldsAndClear`, `Obligations.WindowCoefficientLayout` and
`Obligations.PowAndLogWindows` give. -/
def Obligations.ReadReturnsHeldValue : Prop :=
  (∀ (s : State) (l : Loc),
    (readsFree s l = false → readLoc l s = { s with host := { s.host with readData := peek s l } }) ∧
    (readsFree s l = true →
      readLoc l s =
        { s with host := { s.host with readData := Config.freeWord s.draws }, draws := s.draws + 1 })) ∧
  (∀ s : State,
    peek s (.reg .cmd) = s.lastCmd ∧
    peek s (.reg .errcode) =
      (match s.errCode with
      | .noError => 0
      | .invalidParameters => 1
      | .noValidExtension => 2
      | .minimalPolynomialError => 3
      | .messageTooLarge => 4
      | .codewordTooLarge => 5
      | .divisionByZero => 6
      | .noCode => 7
      | .capacityExceeded => 8
      | .illegalCommand => 9) ∧
    peek s (.reg .errinfo) = s.errInfo ∧
    peek s (.reg .n) = s.staged.n ∧ peek s (.reg .b) = s.staged.b ∧ peek s (.reg .d) = s.staged.d ∧
    peek s (.reg .r) = s.staged.r ∧ peek s (.reg .opa) = s.opa ∧ peek s (.reg .opb) = s.opb ∧
    peek s (.reg .reslo) = s.reslo ∧ peek s (.reg .reshi) = s.reshi ∧
    peek s (.reg .decE) = s.diag.decE ∧ peek s (.reg .decNerr) = s.diag.decNerr ∧
    ((peek s (.reg .decFlags)).getLsbD 0 = s.diag.synNz ∧
      ∀ i, 1 ≤ i → (peek s (.reg .decFlags)).getLsbD i = false) ∧
    ∀ j, peek s (.table .syn j) = (s.diag.syn[j]?).getD 0 ∧ peek s (.table .elp j) = (s.diag.elp[j]?).getD 0 ∧
      peek s (.table .errpos j) = (s.diag.errpos[j]?).getD 0) ∧
  (∀ s : State, s.code = none →
    peek s (.reg .codeM) = 0 ∧ peek s (.reg .codeK) = 0 ∧ peek s (.reg .codeT) = 0 ∧ peek s (.reg .codeOrd) = 0) ∧
  ∀ (s : State) (c : Code), GoodCode s c →
    (peek s (.reg .codeM)).toNat = c.m ∧ (peek s (.reg .codeK)).toNat = c.n - degNat c.g ∧
    (peek s (.reg .codeT)).toNat = (c.d - 1) / 2 ∧ (peek s (.reg .codeOrd)).toNat = c.ord

/-- 20_memory R92, R104: which reads return any value: those of the outputs of the running command while BUSY, and no
others; STATUS, ERRCODE, ERRINFO and CMD read exactly at all times. -/
def Obligations.OnlyRunningOutputsReadFree : Prop :=
  (∀ (s : State) (l : Loc),
    readsFree s l = true ↔ s.phase = .busy ∧ ∃ i, decode s.lastCmd = .ok i ∧ OutputOf i l) ∧
  ∀ s : State, readsFree s (.reg .status) = false ∧ readsFree s (.reg .errcode) = false ∧
    readsFree s (.reg .errinfo) = false ∧ readsFree s (.reg .cmd) = false

/-- 30_encoding R127: a write to CMD is accepted when IDLE and dropped with OVR when BUSY. -/
def Obligations.CommandAcceptOrDrop : Prop :=
  ∀ (s : State) (w : Word),
    (s.phase = .idle → busAccess (.write 4 0x00C w) s = .next
      { s with lastCmd := w, done := false, err := false, errCode := .noError, errInfo := 0, phase := .busy }) ∧
    (s.phase = .busy → busAccess (.write 4 0x00C w) s = .next { s with ovr := true })

/-- 10_state R42: a write of CMD, an operand register or a window word is dropped with OVR while BUSY; while IDLE it
stores the word (for CMD, in LASTCMD), and an operand write changes no other word; so while the command stays BUSY no host
operation changes an operand or the active code. -/
def Obligations.OperandWriteStoredOrDropped : Prop :=
  (∀ (s : State) (l : Loc) (v : Word), ValidLoc l → isOperandLoc l = true →
    (s.phase = .busy → writeLoc l v s = { s with ovr := true }) ∧
    (s.phase = .idle → peek (writeLoc l v s) l = v ∧
      (l ≠ .reg .cmd → ∀ l', ValidLoc l' → l' ≠ l → peek (writeLoc l v s) l' = peek s l'))) ∧
  ∀ s t : State, s.phase = .busy → mover s = .host → step s = .next t → t.phase = .busy →
    t.lastCmd = s.lastCmd ∧ t.staged = s.staged ∧ t.msg = s.msg ∧ t.cw = s.cw ∧ t.opa = s.opa ∧ t.opb = s.opb ∧
      t.code = s.code

/-- 10_state R37: the five fields of STATUS, and the write that clears DONE, ERR and OVR where it has a 1. -/
def Obligations.StatusFieldsAndClear : Prop :=
  ∀ (s : State) (v : Word),
    ((peek s (.reg .status)).getLsbD 0 = true ↔ s.phase = .busy) ∧
    (peek s (.reg .status)).getLsbD 1 = s.done ∧ (peek s (.reg .status)).getLsbD 2 = s.err ∧
    (peek s (.reg .status)).getLsbD 3 = s.ovr ∧ (peek s (.reg .status)).getLsbD 4 = s.code.isSome ∧
    busAccess (.write 4 0x010 v) s = .next
      { s with done := s.done && !(v.getLsbD 1), err := s.err && !(v.getLsbD 2), ovr := s.ovr && !(v.getLsbD 3) }

/-- 10_state R35, 70_reset_and_hazards R341: CTRL reads IRQ_EN in bit 0 and 0 elsewhere; a write stores IRQ_EN and, with
SRST = 1, gives, in either PHASE, the state of 10_state R69 instead (the configuration, the host agent and the free-value
counter are not the core's). -/
def Obligations.CtrlWriteAndSoftReset : Prop :=
  ∀ (s : State) (v : Word),
    ((peek s (.reg .ctrl)).getLsbD 0 = s.irqEn ∧ ∀ i, 1 ≤ i → (peek s (.reg .ctrl)).getLsbD i = false) ∧
    (v.getLsbD 1 = true → busAccess (.write 4 0x008 v) s = .next
      { State.reset with mmax := s.mmax, host := s.host, draws := s.draws }) ∧
    (v.getLsbD 1 = false → busAccess (.write 4 0x008 v) s = .next { s with irqEn := v.getLsbD 0 })

/-- 10_state R69, R33, R34: what every word of the block reads after reset, in every configuration; and that the engine
is IDLE, no code is active and irq is low. -/
def Obligations.ResetReads : Prop :=
  (∀ mmax, legalMmax mmax = true → ∀ l, ValidLoc l →
    peek { State.reset with mmax := mmax } l =
      match l with
      | .reg .id => 0x42434801
      | .reg .hwcfg => BitVec.ofNat 32 mmax
      | .table .log _ => 0xFFFFFFFF
      | _ => 0) ∧
  State.reset.phase = .idle ∧ State.reset.code = none ∧ irq State.reset = false

/-- 20_memory R95: coefficient x^i stands at bit i mod 32 of word i / 32 of its window. -/
def Obligations.WindowCoefficientLayout : Prop :=
  ∀ (s : State) (i : Nat), i < 4096 →
    (peek s (locate (0x1000 + 4 * (i / 32)))).getLsbD (i % 32) = s.staged.g.getLsbD i ∧
    (peek s (locate (0x1200 + 4 * (i / 32)))).getLsbD (i % 32) = s.msg.getLsbD i ∧
    (peek s (locate (0x1400 + 4 * (i / 32)))).getLsbD (i % 32) = s.cw.getLsbD i ∧
    (peek s (locate (0x1600 + 4 * (i / 32)))).getLsbD (i % 32) = s.diag.errmask.getLsbD i

/-- 20_memory R94: byte lane j of the word at an aligned offset, the byte at that offset plus j, carries bits
8·j + 7 : 8·j of the word. -/
def Obligations.ByteLanesLittleEndian : Prop :=
  ∀ (s : State) (addr j i : Nat), addr % 4 = 0 → j < 4 → i < 8 →
    (byteAt s (addr + j)).getLsbD i = (peek s (locate addr)).getLsbD (8 * j + i)

/-- 60_exceptions R315: irq is IRQ_EN AND DONE; the completion of any command word, success or error, leaves DONE = 1 and
raises it when enabled; an accept, a write of 1 to DONE, a write of 0 to IRQ_EN and a reset end it; and IRQ_EN written 1
with DONE = 1 raises it at once. -/
def Obligations.CompletionInterrupt : Prop :=
  (∀ s : State, irq s = true ↔ s.irqEn = true ∧ s.done = true) ∧
  (∀ s t : State, engineStep s = .next t → t.done = true ∧ irq t = s.irqEn) ∧
  (∀ (s t : State) (w : Word), s.phase = .idle → busAccess (.write 4 0x00C w) s = .next t → irq t = false) ∧
  (∀ (s t : State) (v : Word), v.getLsbD 1 = true → busAccess (.write 4 0x010 v) s = .next t → irq t = false) ∧
  (∀ (s t : State) (v : Word), v.getLsbD 0 = false ∨ v.getLsbD 1 = true →
    busAccess (.write 4 0x008 v) s = .next t → irq t = false) ∧
  (∀ (s t : State) (v : Word), v.getLsbD 0 = true → v.getLsbD 1 = false →
    busAccess (.write 4 0x008 v) s = .next t → irq t = s.done)

/-- 30_encoding R132 to R134, R136: `wait` reads STATUS and is repeated until the value read has bit 0 clear; the
encoding of every form of the notation as transactions; the transfers an encoded `wait` stands for; and the transfers
of a run that performs a host program, with its assertions met, are, in order, those its encoding stands for (the data
of a plain `rd` is the model's reading, log 20). -/
def Obligations.HostProgramsRunAsEncoded : Prop :=
  (∀ (s : State) (rest : List HostOp), mover s = .host → s.host.program = .wait :: rest →
    ∃ t, step s = .next t ∧ t.host.readData = peek s (.reg .status) ∧
      t.host.program = (if s.phase = .busy then .wait :: rest else rest) ∧
      t = { takeTurn s with
        host := { (takeTurn s).host with readData := t.host.readData, program := t.host.program } }) ∧
  ((∀ l v, encodeProgram [.wr l v] = [⟨.write, locOffset l, .word v⟩]) ∧
    (∀ l, encodeProgram [.rd l] = [⟨.read, locOffset l, .returned⟩]) ∧
    (∀ l v, encodeProgram [.rdEq l v] = [⟨.read, locOffset l, .word v⟩]) ∧
    (∀ i, encodeProgram [.cmd i] = [⟨.write, 0x00C, .word (encode i)⟩]) ∧
    encodeProgram [.wait] = [⟨.read, 0x010, .untilClear⟩] ∧
    (∀ i, encodeProgram [.run i] = [⟨.write, 0x00C, .word (encode i)⟩, ⟨.read, 0x010, .untilClear⟩]) ∧
    (∀ w p, encodeProgram [.wrpoly w p] = (List.range (degNat p / 32 + 1)).map
      (fun j => ⟨.write, windowBase w + 4 * j, .word (BitVec.ofNat 32 (p >>> (32 * j)))⟩)) ∧
    (∀ w p, encodeProgram [.rdpolyEq w p] = (List.range 128).map
      (fun j => ⟨.read, windowBase w + 4 * j, .word (BitVec.ofNat 32 (p >>> (32 * j)))⟩)) ∧
    encodeProgram [.ack] = [⟨.write, 0x010, .word 0x0000000E⟩] ∧
    ∀ ls ls', encodeProgram (ls ++ ls') = encodeProgram ls ++ encodeProgram ls') ∧
  (∀ (ys : List Transfer) (xs : List Transaction), unrolls ys (⟨.read, 0x010, .untilClear⟩ :: xs) = true ↔
    ∃ (busyReads : List Word) (last : Word) (ys' : List Transfer),
      ys = busyReads.map (fun v => ⟨.read, 0x010, v⟩) ++ ⟨.read, 0x010, last⟩ :: ys' ∧
      (∀ v ∈ busyReads, v.getLsbD 0 = true) ∧ last.getLsbD 0 = false ∧ unrolls ys' xs = true) ∧
  ∀ (k : Nat) (ls : List Line) (s t : State), Host.Core.run core k (withProgram ls s) = .next t →
    t.host.program = [] → t.host.assertsHold = true →
    unrolls (transfers k (withProgram ls s)) (encodeProgram ls) = true

/-- 10_state R37, 70_reset_and_hazards R351: OVR stays 1 across every step but a STATUS write with bit 3 = 1 or a
reset. -/
def Obligations.OverrunIsSticky : Prop :=
  ∀ s t : State, step s = .next t → s.ovr = true → t.ovr = false →
    (∃ v, HostWrites s 0x010 v ∧ v.getLsbD 3 = true) ∨ ∃ v, HostWrites s 0x008 v ∧ v.getLsbD 1 = true

/-- 10_state R54: only a successful GEN or LOAD, or a reset, changes the active code. -/
def Obligations.ActiveCodeWriters : Prop :=
  ∀ s t : State, step s = .next t → t.code ≠ s.code →
    (mover s = .engine ∧ (decode s.lastCmd = .ok .gen ∨ decode s.lastCmd = .ok .load) ∧ t.err = false ∧
      t.code.isSome = true) ∨
    ∃ v, HostWrites s 0x008 v ∧ v.getLsbD 1 = true ∧ t.code = none

/-- 10_state R33, R34: ID reads 0x42434801 at all times; HWCFG reads MMAX in bits 3:0, the rest 0, and no step changes
it. -/
def Obligations.ConfigurationIsConstant : Prop :=
  (∀ s : State, peek s (.reg .id) = 0x42434801) ∧
  (∀ s : State, legalMmax s.mmax = true → (peek s (.reg .hwcfg)).toNat = s.mmax) ∧
  ∀ s t : State, step s = .next t → t.mmax = s.mmax ∧ peek t (.reg .hwcfg) = peek s (.reg .hwcfg)

/-! ### Invariants -/

/-- 10_state R70, R37, R38, R39: every step keeps the invariant of the machine: the active code satisfies R70, DONE, ERR,
ERRCODE and ERRINFO are clear while BUSY, and the tables keep their canonical form. -/
def Obligations.StepKeepsMachineInv : Prop := ∀ s t : State, MachineInv s → step s = .next t → MachineInv t

/-- 10_state R69, 00_scope R8: the invariant holds after reset in every configuration, and State.reset is one of them
(MMAX = 8, log 4). -/
def Obligations.ResetHasMachineInv : Prop :=
  legalMmax State.reset.mmax = true ∧
  ∀ mmax, legalMmax mmax = true → MachineInv { State.reset with mmax := mmax }

/-! ### Field arithmetic -/

/-- 45_descriptor_and_control R288: NOP, the word 0, completes in every state and changes no other register. -/
def Obligations.NopOnlyCompletes : Prop := encode .nop = 0x00000000 ∧ ∀ s : State, SucceedsIn .nop s s

/-- 41_field_arithmetic R145: PADD, OP 0x08, writes OPA ⊕ OPB and 0; it needs no code and has no error. -/
def Obligations.PaddXorsOperands : Prop :=
  encode .padd = 0x00000008 ∧ ∀ s : State, SucceedsIn .padd s { s with reslo := s.opa ^^^ s.opb, reshi := 0 }

/-- 41_field_arithmetic R146, 00_scope R15: PMUL, OP 0x09, writes the 63-bit carry-less product, bit by bit; bit 63 is 0. -/
def Obligations.PmulConvolvesOperands : Prop :=
  encode .pmul = 0x00000009 ∧
  ∀ s : State, ∃ lo hi : Word, SucceedsIn .pmul s { s with reslo := lo, reshi := hi } ∧
    hi.getLsbD 31 = false ∧ ∀ j, j < 64 → (hi ++ lo : BitVec 64).getLsbD j = convBit s.opa.toNat s.opb.toNat j

/-- 41_field_arithmetic R147: PMOD, OP 0x0A, writes remainder and quotient, the unique pair of 00_scope R15, and fails on a
zero divisor. -/
def Obligations.PmodDividesOperands : Prop :=
  encode .pmod = 0x0000000A ∧
  ∀ s : State,
    (s.opb = 0 → FailsWith .pmod s .divisionByZero 0) ∧
    (s.opb ≠ 0 → ∃ lo hi : Word, SucceedsIn .pmod s { s with reslo := lo, reshi := hi } ∧
      IsDivMod s.opa.toNat s.opb.toNat hi.toNat lo.toNat ∧
      ∀ q r, IsDivMod s.opa.toNat s.opb.toNat q r → q = hi.toNat ∧ r = lo.toNat)

/-- 41_field_arithmetic R148: FRED, OP 0x0B, writes the remainder modulo r, and fails without a code. -/
def Obligations.FredReducesOperand : Prop :=
  encode .fred = 0x0000000B ∧
  (∀ s : State, s.code = none → FailsWith .fred s .noCode 0) ∧
  ∀ (s : State) (c : Code), GoodCode s c →
    ∃ lo : Word, SucceedsIn .fred s { s with reslo := lo, reshi := 0 } ∧ lo.toNat < 2 ^ c.m ∧
      ∃ q, IsDivMod s.opa.toNat c.r q lo.toNat

/-- 41_field_arithmetic R149: FMUL, OP 0x0C, writes (OPA ⊗ OPB) mod r, which is the product of the reduced operands, and
fails without a code. -/
def Obligations.FmulMultipliesInField : Prop :=
  encode .fmul = 0x0000000C ∧
  (∀ s : State, s.code = none → FailsWith .fmul s .noCode 0) ∧
  ∀ (s : State) (c : Code), GoodCode s c →
    ∃ lo : Word, SucceedsIn .fmul s { s with reslo := lo, reshi := 0 } ∧ lo.toNat < 2 ^ c.m ∧
      (∃ q, IsDivMod (pmul s.opa.toNat s.opb.toNat) c.r q lo.toNat) ∧
      lo.toNat = pmodulo (pmul (pmodulo s.opa.toNat c.r) (pmodulo s.opb.toNat c.r)) c.r

/-- 41_field_arithmetic R150, R144: FDIV, OP 0x0D, writes the unique field element whose product with the reduced divisor is
the reduced dividend; it fails without a code, and when the divisor reduces to 0. -/
def Obligations.FdivWritesExactQuotient : Prop :=
  encode .fdiv = 0x0000000D ∧
  (∀ s : State, s.code = none → FailsWith .fdiv s .noCode 0) ∧
  ∀ (s : State) (c : Code), GoodCode s c →
    (pmodulo s.opb.toNat c.r = 0 → FailsWith .fdiv s .divisionByZero 0) ∧
    (pmodulo s.opb.toNat c.r ≠ 0 →
      ∃ lo : Word, SucceedsIn .fdiv s { s with reslo := lo, reshi := 0 } ∧ lo.toNat < 2 ^ c.m ∧
        pmodulo (pmul lo.toNat (pmodulo s.opb.toNat c.r)) c.r = pmodulo s.opa.toNat c.r ∧
        ∀ q, q < 2 ^ c.m → pmodulo (pmul q (pmodulo s.opb.toNat c.r)) c.r = pmodulo s.opa.toNat c.r → q = lo.toNat)

/-- 60_exceptions R301: SAVE, ENC, DEC, FRED, FMUL and FDIV fail with NoCode first of all when there is no code. -/
def Obligations.NoCodeIsReported : Prop :=
  ∀ s : State, s.code = none →
    ∀ i ∈ [Instr.save, .enc, .dec, .fred, .fmul, .fdiv], FailsWith i s .noCode 0

/-- 10_state R59, R60: what the POW and LOG windows read, with a code and without; the powers below ord are distinct and
not 0 (41_field_arithmetic R142). -/
def Obligations.PowAndLogWindows : Prop :=
  (∀ s : State, s.code = none → ∀ j < 4096,
    peek s (.table .pow j) = 0 ∧ peek s (.table .log j) = 0xFFFFFFFF) ∧
  ∀ (s : State) (c : Code), GoodCode s c →
    (∀ e < 4096, (peek s (.table .pow e)).toNat = if e < c.ord then alphaSeq c.r e else 0) ∧
    (∀ v < 4096, ∀ e < c.ord, alphaSeq c.r e = v → (peek s (.table .log v)).toNat = e) ∧
    (∀ v < 4096, (∀ e < c.ord, alphaSeq c.r e ≠ v) → peek s (.table .log v) = 0xFFFFFFFF) ∧
    peek s (.table .log 0) = 0xFFFFFFFF ∧
    (∀ e < c.ord, ∀ e' < c.ord, alphaSeq c.r e = alphaSeq c.r e' → e = e') ∧
    (∀ e < c.ord, alphaSeq c.r e ≠ 0)

/-- 41_field_arithmetic R143, R151: the product of two elements with exponents is the power whose exponent is their sum
modulo ord, and every power of alpha is the entry of the table at its exponent modulo ord. -/
def Obligations.PowersMultiplyByAddingExponents : Prop :=
  ∀ (s : State) (c : Code), GoodCode s c →
    (∀ a b i j, c.log.getD a none = some i → c.log.getD b none = some j →
      fmul c.r a b = c.pow.getD ((i + j) % c.ord) 0) ∧
    ∀ e, alphaSeq c.r e = c.pow.getD (e % c.ord) 0

/-! ### Code construction and the descriptor -/

/-- 42_code_generator R172: order(2, n) exists for every odd n ≥ 3, is at least 2 and at most n − 1. -/
def Obligations.OddLengthsHaveExtensionDegree : Prop :=
  ∀ n, 3 ≤ n → n % 2 = 1 → ∃ m, order2 n = some m ∧ IsOrder n m ∧ 2 ≤ m ∧ m ≤ n - 1

/-- 42_code_generator R186: GEN in order: with legal parameters, m = order(2, n) ≤ MMAX, r the first accepted candidate,
every minimal-polynomial product binary, and g = lcm of them of degree 1 .. n − 1 dividing x^n + 1, GEN installs the
code and writes R and all of G. The M_i and g are those of R180 to R182, not the model's functions. -/
def Obligations.GenInstallsGeneratedCode : Prop :=
  ∀ (s : State) (n b d m : Nat) (r g : Poly) (pow Ms : List Poly),
    legalMmax s.mmax = true → s.staged.n.toNat = n → s.staged.b.toNat = b → s.staged.d.toNat = d →
    3 ≤ n → 1 ≤ b → 1 ≤ d → d ≤ n → IsOrder n m → m ≤ s.mmax → IsFirstAccepted m n r → IsPowTable m r pow →
    Ms.length = d - 1 → (∀ i < d - 1, IsMinPoly r n (b + i) (Ms.getD i 0)) → IsLcmOf Ms g →
    0 < degNat g → degNat g < n → PolyDivides g (xnPlusOne n) →
    ∃ c : Code,
      SucceedsIn .gen s
        { s with
          code := some c
          staged := { s.staged with r := BitVec.ofNat 32 r, g := BitVec.ofNat 4096 g } } ∧
      c.n = n ∧ c.b = b ∧ c.d = d ∧ c.m = m ∧ c.q = 2 ∧ c.r = r ∧ c.g = g ∧
      c.k = n - degNat c.g ∧ c.t = (d - 1) / 2 ∧ c.pow = pow ∧ CodeOk s.mmax c

/-- 42_code_generator R186, R171, R172, R173, R181, R185, 60_exceptions R301: the errors of GEN, each after the checks
before it have passed, the first failing one alone. NoValidExtension(2) alone has no clause, because the search cannot
fail (R176, `Obligations.SearchFindsCandidate`). R185 computed that no GEN it tried reaches InvalidParameters(4); the
last conjunct says of the check itself, whatever the field table, that it is made, and its premises can be met. -/
def Obligations.GenErrorsInOrder : Prop :=
  (∀ (s : State) (n b d : Nat), s.staged.n.toNat = n → s.staged.b.toNat = b → s.staged.d.toNat = d →
    (n < 3 ∨ b < 1 ∨ d < 1 ∨ n < d → FailsWith .gen s .invalidParameters 1) ∧
    (3 ≤ n → 1 ≤ b → 1 ≤ d → d ≤ n →
      ((¬ ∃ m, IsOrder n m) → FailsWith .gen s .noValidExtension 1) ∧
      ∀ m, IsOrder n m →
        (s.mmax < m → FailsWith .gen s .capacityExceeded m) ∧
        (m ≤ s.mmax → ∀ r, IsFirstAccepted m n r →
          (∀ i < d - 1, (∀ j < i, ∃ M, IsMinPoly r n (b + j) M) → (¬ ∃ M, IsMinPoly r n (b + i) M) →
            FailsWith .gen s .minimalPolynomialError i) ∧
          ∀ (Ms : List Poly) (g : Poly), Ms.length = d - 1 →
            (∀ i < d - 1, IsMinPoly r n (b + i) (Ms.getD i 0)) → IsLcmOf Ms g →
            (degNat g = 0 ∨ n ≤ degNat g → FailsWith .gen s .invalidParameters 2) ∧
            (0 < degNat g → degNat g < n → ¬ PolyDivides g (xnPlusOne n) →
              FailsWith .gen s .invalidParameters 4)))) ∧
  ∀ (n b d : Nat) (r g : Poly) (pow : List Poly), lcmFrom r pow n b (d - 1) 0 1 = .ok g →
    0 < degNat g → degNat g < n →
    (generatorPoly r pow n b d = .error ⟨.invalidParameters, 4⟩ ↔ ¬ PolyDivides g (xnPlusOne n))

/-- 42_code_generator R187, R182, R185: the code a successful GEN installs: g divides x^n + 1, every M_i of the index
range exists and divides g, g is their lcm, and deg g = n − k. -/
def Obligations.GeneratedCodeProperties : Prop :=
  ∀ s t : State, exec .gen s = .next t → t.err = false →
    ∃ c, t.code = some c ∧ CodeOk s.mmax c ∧ PolyDivides c.g (xnPlusOne c.n) ∧ degNat c.g = c.n - c.k ∧
      (∀ i, c.b ≤ i → i + 1 < c.b + c.d → ∃ M, IsMinPoly c.r c.n i M ∧ PolyDivides M c.g) ∧
      ∃ Ms : List Poly, Ms.length = c.d - 1 ∧ (∀ i < c.d - 1, IsMinPoly c.r c.n (c.b + i) (Ms.getD i 0)) ∧
        IsLcmOf Ms c.g

/-- 42_code_generator R179 to R182: the conjugacy class of i starts at i mod n, each member is twice the one before
modulo n, it closes, and no member is repeated; in the field of an accepted r, minPoly answers M exactly when M is the
binary polynomial of the product of (x + alpha^c) over the class, and there is one for every index when ord(r) = n;
plcm is the least common multiple. -/
def Obligations.ClassesGiveMinimalPolynomials : Prop :=
  (∀ n i, 3 ≤ n → n % 2 = 1 →
    (conjClass n i).head? = some (i % n) ∧ (conjClass n i).Nodup ∧
    (∀ j c c', (conjClass n i)[j]? = some c → (conjClass n i)[j + 1]? = some c' → c' = 2 * c % n) ∧
    ∀ c, (conjClass n i).getLast? = some c → 2 * c % n = i % n) ∧
  (∀ (m n : Nat) (r : Poly) (pow : List Poly) (i : Nat) (M : Poly), IsAccepted m n r → IsPowTable m r pow →
    (minPoly r pow n i = some M ↔ IsMinPoly r n i M)) ∧
  (∀ (m n : Nat) (r : Poly) (i : Nat), 3 ≤ n → IsOrder n m → IsAccepted m n r → IsOrd m r n →
    ∃ M, IsMinPoly r n i M) ∧
  ∀ a b : Poly, a ≠ 0 → b ≠ 0 → IsLcmOf [a, b] (plcm a b)

/-- 42_code_generator R174 to R176: the search cannot fail: for m = order(2, n) it answers the first accepted candidate
of degree m with its power table, so no GEN completes with NoValidExtension(2). -/
def Obligations.SearchFindsCandidate : Prop :=
  (∀ n m, 3 ≤ n → IsOrder n m →
    ∃ r pow, searchField m n = some (r, pow) ∧ IsFirstAccepted m n r ∧ IsPowTable m r pow) ∧
  ∀ s t : State, exec .gen s = .next t → ¬ (t.errCode = .noValidExtension ∧ t.errInfo = 2)

/-- 45_descriptor_and_control R281, R282: LOAD of a record that passes the eight checks installs its code and writes no
register. -/
def Obligations.LoadInstallsRecord : Prop :=
  ∀ (s : State) (n b d m : Nat) (r g : Poly),
    s.staged.n.toNat = n → s.staged.b.toNat = b → s.staged.d.toNat = d → s.staged.r.toNat = r →
    s.staged.g.toNat = g → 3 ≤ n → 1 ≤ b → 1 ≤ d → d ≤ n → IsOrder n m → m ≤ s.mmax → deg r = some m →
    IsIrreducible m r → (∃ e, IsOrd m r e ∧ n ≤ e) → 0 < degNat g → degNat g < n → PolyDivides g (xnPlusOne n) →
    ∃ c : Code, SucceedsIn .load s { s with code := some c } ∧
      c.n = n ∧ c.b = b ∧ c.d = d ∧ c.m = m ∧ c.q = 2 ∧ c.r = r ∧ c.g = g ∧ c.k = n - degNat g ∧
      c.t = (d - 1) / 2 ∧ CodeOk s.mmax c

/-- 45_descriptor_and_control R281: the eight checks of LOAD in their order, each with its error; a record that passes them
is accepted, whether or not g is the generator GEN would build. -/
def Obligations.LoadChecksInOrder : Prop :=
  ∀ (s : State) (n b d : Nat) (r g : Poly),
    s.staged.n.toNat = n → s.staged.b.toNat = b → s.staged.d.toNat = d → s.staged.r.toNat = r →
    s.staged.g.toNat = g →
    (n < 3 ∨ b < 1 ∨ d < 1 ∨ n < d → FailsWith .load s .invalidParameters 1) ∧
    (3 ≤ n → 1 ≤ b → 1 ≤ d → d ≤ n →
      ((¬ ∃ m, IsOrder n m) → FailsWith .load s .noValidExtension 1) ∧
      ∀ m, IsOrder n m →
        (s.mmax < m → FailsWith .load s .capacityExceeded m) ∧
        (m ≤ s.mmax →
          (deg r ≠ some m → FailsWith .load s .invalidParameters 3) ∧
          (deg r = some m →
            (¬ IsIrreducible m r → FailsWith .load s .noValidExtension 3) ∧
            (IsIrreducible m r →
              ((¬ ∃ e, IsOrd m r e ∧ n ≤ e) → FailsWith .load s .noValidExtension 4) ∧
              ((∃ e, IsOrd m r e ∧ n ≤ e) →
                (degNat g = 0 ∨ n ≤ degNat g → FailsWith .load s .invalidParameters 2) ∧
                (0 < degNat g → degNat g < n →
                  (¬ PolyDivides g (xnPlusOne n) → FailsWith .load s .invalidParameters 4) ∧
                  (PolyDivides g (xnPlusOne n) → ∃ c : Code, SucceedsIn .load s { s with code := some c } ∧
                    c.n = n ∧ c.b = b ∧ c.d = d ∧ c.r = r ∧ c.g = g)))))))

/-- 45_descriptor_and_control R286: SAVE, OP 0x03, writes the record of the active code, every bit of R and G, and keeps the
code; it fails without one. -/
def Obligations.SaveWritesRecord : Prop :=
  encode .save = 0x00000003 ∧
  (∀ s : State, s.code = none → FailsWith .save s .noCode 0) ∧
  ∀ (s : State) (c : Code), GoodCode s c →
    ∃ rec : Staging, SucceedsIn .save s { s with staged := rec } ∧
      rec.n.toNat = c.n ∧ rec.b.toNat = c.b ∧ rec.d.toNat = c.d ∧ rec.r.toNat = c.r ∧ rec.g.toNat = c.g

/-- 45_descriptor_and_control R287: SAVE, a reset, the saved record written back, and LOAD install an equal code. -/
def Obligations.SaveThenLoadRestoresCode : Prop :=
  ∀ (s t u : State) (c : Code), GoodCode s c → exec .save s = .next t →
    u.mmax = s.mmax → u.staged = t.staged →
    ∃ v, exec .load u = .next v ∧ v.err = false ∧ v.code = some c

/-! ### Encoding and decoding -/

/-- 43_encoder R211, R210: ENC, OP 0x04, writes s ⊕ (s mod g), s = x^(n−k) ⊗ msg, all 4096 bits with none at or above n; it
fails without a code, and with MessageTooLarge(deg) when a bit at or above k is set. -/
def Obligations.EncWritesSystematicCodeword : Prop :=
  encode .enc = 0x00000004 ∧
  (∀ s : State, s.code = none → FailsWith .enc s .noCode 0) ∧
  ∀ (s : State) (c : Code), GoodCode s c →
    (2 ^ c.k ≤ s.msg.toNat → FailsWith .enc s .messageTooLarge s.msg.toNat.log2) ∧
    (s.msg.toNat < 2 ^ c.k →
      ∃ cw : Window, SucceedsIn .enc s { s with cw := cw } ∧ cw.toNat < 2 ^ c.n ∧
        ∃ q rem, IsDivMod (s.msg.toNat <<< (c.n - c.k)) c.g q rem ∧
          cw.toNat = padd (s.msg.toNat <<< (c.n - c.k)) rem)

/-- 43_encoder R212: every codeword ENC writes is divisible by g, and so is every cyclic shift of it within length n. -/
def Obligations.EncodedWordIsDivisible : Prop :=
  ∀ (s t : State) (c : Code), GoodCode s c → exec .enc s = .next t → t.err = false →
    PolyDivides c.g t.cw.toNat ∧
    ∀ i ≤ c.n, PolyDivides c.g (padd ((t.cw.toNat <<< i) % 2 ^ c.n) (t.cw.toNat >>> (c.n - i)))

/-- 43_encoder R213: the message stands unchanged in the high coefficients, the remainder in the low ones. -/
def Obligations.EncodedWordIsSystematic : Prop :=
  ∀ (s t : State) (c : Code), GoodCode s c → exec .enc s = .next t → t.err = false →
    t.cw.toNat >>> (c.n - c.k) = s.msg.toNat ∧
    t.cw.toNat % 2 ^ (c.n - c.k) = pmodulo (s.msg.toNat <<< (c.n - c.k)) c.g

/-- 44_decoder R231: a received word with a bit at or above n is rejected before anything else. -/
def Obligations.DecRejectsLongWord : Prop :=
  ∀ (s : State) (c : Code), s.code = some c → 2 ^ c.n ≤ s.cw.toNat →
    FailsWith .dec s .codewordTooLarge s.cw.toNat.log2

/-- 44_decoder R232, 10_state R62, R67: the syndromes a successful DEC reports are the received polynomial at alpha^(b+s):
the sum over its set bits p of alpha^((b+s)·p); the entries past d − 2 are 0; and SYN_NZ says whether one is not 0. -/
def Obligations.SyndromesEvaluateReceivedWord : Prop :=
  ∀ (s t : State) (c : Code), GoodCode s c → exec .dec s = .next t → t.err = false →
    (∀ j < c.d - 1, (tableEntry t.diag.syn j).toNat =
      fieldSum (((List.range 4096).filter (fun p => s.cw.getLsbD p)).map (fun p => alphaSeq c.r ((c.b + j) * p)))) ∧
    (∀ j, c.d - 1 ≤ j → tableEntry t.diag.syn j = 0) ∧
    (t.diag.synNz = true ↔ ∃ j < c.d - 1, tableEntry t.diag.syn j ≠ 0)

/-- 44_decoder R233: when the received word, of degree below n, has every syndrome 0 (the sum over its set bits p of
alpha^((b+s)·p), for s = 0 .. d − 2), DEC declares no error: the k high coefficients are the message, no bit is flipped,
e = 0, l = 1, no position. -/
def Obligations.DecZeroSyndromesReturnWord : Prop :=
  ∀ (s : State) (c : Code), GoodCode s c → s.cw.toNat < 2 ^ c.n →
    (∀ j < c.d - 1,
      fieldSum (((List.range 4096).filter (fun p => s.cw.getLsbD p)).map (fun p => alphaSeq c.r ((c.b + j) * p))) = 0) →
    ∃ dg : Diagnostics,
      SucceedsIn .dec s { s with msg := BitVec.ofNat 4096 (s.cw.toNat >>> (c.n - c.k)), diag := dg } ∧
      dg.errmask = 0 ∧ dg.decE = 0 ∧ dg.decNerr = 0 ∧ dg.synNz = false ∧
      (∀ j, tableEntry dg.syn j = 0) ∧ (∀ j, tableEntry dg.errpos j = 0) ∧
      ∀ j, tableEntry dg.elp j = if j = 0 then 1 else 0

/-- 44_decoder R243, R250: DEC of every word of degree below n succeeds, so it never reports DivisionByZero; the message
is (CW ⊕ ERRMASK) >> (n − k), and CW is not written. -/
def Obligations.DecAlwaysSucceedsInLength : Prop :=
  ∀ (s : State) (c : Code), GoodCode s c → s.cw.toNat < 2 ^ c.n →
    ∃ dg : Diagnostics,
      SucceedsIn .dec s
        { s with msg := BitVec.ofNat 4096 ((s.cw ^^^ dg.errmask).toNat >>> (c.n - c.k)), diag := dg }

/-- 44_decoder R245, R246, R248, 10_state R61, R64, R66: after a successful DEC, with l the locator of ELP,
l(0) = 1, the positions are the i in 1 .. n where l vanishes at alpha^i, in increasing order, and ERRPOS lists them;
bit n − i of ERRMASK is set exactly for them; and DEC_NERR is their number and the weight of ERRMASK. -/
def Obligations.DecFlipsRootPositions : Prop :=
  ∀ (s t : State) (c : Code), GoodCode s c → exec .dec s = .next t → t.err = false →
    ∃ l : List Poly, l.length = t.diag.decE.toNat + 1 ∧ l.getD 0 0 = 1 ∧
      (∀ j, (tableEntry t.diag.elp j).toNat = l.getD j 0) ∧
      (let pos := ((List.range c.n).map (· + 1)).filter (fun i => decide (evalList c.r l (alphaSeq c.r i) = 0))
       t.diag.decNerr.toNat = pos.length ∧
       (∀ j, (tableEntry t.diag.errpos j).toNat = pos.getD j 0) ∧
       (∀ i, 1 ≤ i → i ≤ c.n → (t.diag.errmask.getLsbD (c.n - i) = true ↔ i ∈ pos)) ∧
       (∀ p, c.n ≤ p → t.diag.errmask.getLsbD p = false)) ∧
      windowWeight t.diag.errmask = t.diag.decNerr.toNat

/-- 44_decoder R235, R236, R240, R242, R244: after a successful DEC, e = DEC_E is the largest size up to t whose matrix
of syndromes is not singular, 0 when there is none, and the locator solves the syndrome equations: for every row i < e,
SYN[i + e] is the sum over h = 1 .. e of ELP[h] · SYN[i + e − h], and ELP[0] = 1. -/
def Obligations.DecLocatorSolvesSyndromes : Prop :=
  ∀ (s t : State) (c : Code), GoodCode s c → exec .dec s = .next t → t.err = false →
    (tableEntry t.diag.elp 0).toNat = 1 ∧ t.diag.decE.toNat ≤ c.t ∧
    ¬ SyndromeSingular c.m c.r (fun j => (tableEntry t.diag.syn j).toNat) t.diag.decE.toNat ∧
    (∀ e, t.diag.decE.toNat < e → e ≤ c.t →
      SyndromeSingular c.m c.r (fun j => (tableEntry t.diag.syn j).toNat) e) ∧
    ∀ i < t.diag.decE.toNat,
      (tableEntry t.diag.syn (i + t.diag.decE.toNat)).toNat =
        fieldSum ((List.range t.diag.decE.toNat).map (fun h =>
          fmul c.r (tableEntry t.diag.elp (h + 1)).toNat
            (tableEntry t.diag.syn (i + t.diag.decE.toNat - (h + 1))).toNat))

/-- 44_decoder R234, R233 (the source's round trip without errors): for a code GEN made with Cord = n, DEC of what ENC
wrote gives the message back, with no error detected. -/
def Obligations.EncodeThenDecodeRoundTrip : Prop :=
  ∀ (s : State) (c : Code), GoodCode s c → generate s.mmax c.n c.b c.d = .ok c → c.ord = c.n →
    s.msg.toNat < 2 ^ c.k →
    ∃ t u, exec .enc s = .next t ∧ t.err = false ∧ exec .dec t = .next u ∧ u.err = false ∧ u.msg = s.msg ∧
      u.diag.synNz = false ∧ u.diag.decNerr = 0 ∧ u.diag.errmask = 0

/-- 44_decoder R251: for a code GEN made with Cord = n, DEC corrects every pattern of at most t errors. -/
def Obligations.DecCorrectsUpToRadius : Prop :=
  ∀ (s t : State) (c : Code) (err : Window), GoodCode s c → generate s.mmax c.n c.b c.d = .ok c → c.ord = c.n →
    s.msg.toNat < 2 ^ c.k → exec .enc s = .next t → err.toNat < 2 ^ c.n → windowWeight err ≤ c.t →
    ∃ u, exec .dec { t with cw := t.cw ^^^ err } = .next u ∧ u.err = false ∧ u.msg = s.msg ∧
      u.diag.errmask = err ∧ u.diag.decNerr.toNat = windowWeight err ∧
      ∀ j, (tableEntry u.diag.errpos j).toNat =
        ((List.range' 1 c.n).filter (fun i => err.getLsbD (c.n - i))).getD j 0

end Statements
end

