-- ==== Sys2Proof/Laws/Poly.lean ====
section
/-!
SUPPORT. Sys2Proof/Laws/Poly.lean: the operations of Machine/Poly.lean are those of the polynomial ring GF(2)[x]. The
map `toPoly` carries exclusive or to addition, the carry-less product to the product, and long division to division
with remainder; it is a bijection, so every law of GF(2)[x] holds of the model's polynomials.
-/

namespace Sys2Proof.Machine

open Polynomial

/-- The polynomial over GF(2) whose coefficient of x^i is bit i (00_scope R13). -/
noncomputable def toPoly (p : Poly) : (ZMod 2)[X] :=
  ∑ i ∈ Finset.range (p.log2 + 1), if p.testBit i then X ^ i else 0

theorem testBit_above_log2 {p i : Nat} (h : p.log2 < i) : p.testBit i = false :=
  Nat.testBit_lt_two_pow (lt_of_lt_of_le Nat.lt_log2_self (Nat.pow_le_pow_right (by omega) (by omega)))

theorem testBit_log2 {p : Nat} (h : p ≠ 0) : p.testBit p.log2 = true := Nat.testBit_log2 h

theorem sum_bits_coeff (p k i : Nat) :
    (∑ j ∈ Finset.range k, if p.testBit j then (X : (ZMod 2)[X]) ^ j else 0).coeff i
      = if i < k ∧ p.testBit i then 1 else 0 := by
  rw [finsetSum_coeff]
  have h : ∀ j, (if p.testBit j = true then (X : (ZMod 2)[X]) ^ j else 0).coeff i
      = if j = i then (if p.testBit i then 1 else 0) else 0 := by
    intro j
    split <;> rename_i hj
    · by_cases hji : j = i
      · subst hji; simp [hj]
      · simp [coeff_X_pow, hji, Ne.symm hji]
    · by_cases hji : j = i
      · subst hji; simp [hj]
      · simp [hji]
  simp only [h]
  rw [Finset.sum_ite_eq']
  by_cases hi : i < k <;> simp [hi]

@[simp] theorem toPoly_coeff (p i : Nat) : (toPoly p).coeff i = if p.testBit i then 1 else 0 := by
  rw [toPoly, sum_bits_coeff]
  by_cases h : i < p.log2 + 1
  · simp [h]
  · simp [h, testBit_above_log2 (p := p) (i := i) (by omega)]

theorem toPoly_injective : Function.Injective toPoly := by
  intro a b h
  refine Nat.eq_of_testBit_eq (fun i => ?_)
  have := congrArg (fun q => q.coeff i) h
  simp only [toPoly_coeff] at this
  by_cases ha : a.testBit i <;> by_cases hb : b.testBit i <;> simp_all

@[simp] theorem toPoly_inj {a b : Poly} : toPoly a = toPoly b ↔ a = b := toPoly_injective.eq_iff

@[simp] theorem toPoly_zero : toPoly 0 = 0 := by ext i; simp

@[simp] theorem toPoly_eq_zero {p : Poly} : toPoly p = 0 ↔ p = 0 := by
  rw [← toPoly_zero, toPoly_inj]

@[simp] theorem toPoly_two_pow (k : Nat) : toPoly (2 ^ k) = X ^ k := by
  ext i
  rw [toPoly_coeff, coeff_X_pow, Nat.testBit_two_pow]
  by_cases h : k = i
  · simp [h]
  · simp [h, Ne.symm h]

@[simp] theorem toPoly_one : toPoly 1 = 1 := by simpa using toPoly_two_pow 0

@[simp] theorem toPoly_two : toPoly 2 = X := by simpa using toPoly_two_pow 1

@[simp] theorem toPoly_padd (a b : Poly) : toPoly (padd a b) = toPoly a + toPoly b := by
  ext i
  simp only [padd, coeff_add, toPoly_coeff, Nat.testBit_xor]
  have : (1 : ZMod 2) + 1 = 0 := by decide
  by_cases ha : a.testBit i <;> by_cases hb : b.testBit i <;> simp [ha, hb, this]

@[simp] theorem toPoly_shiftLeft (a k : Nat) : toPoly (a <<< k) = toPoly a * X ^ k := by
  ext i
  rw [coeff_mul_X_pow', toPoly_coeff, Nat.testBit_shiftLeft]
  by_cases h : k ≤ i <;> simp [h]

theorem toPoly_pmulBelow (a b k : Nat) :
    toPoly (pmulBelow a b k) = (∑ j ∈ Finset.range k, if a.testBit j then X ^ j else 0) * toPoly b := by
  induction k with
  | zero => simp [pmulBelow]
  | succ k ih =>
    rw [pmulBelow, toPoly_padd, ih, Finset.sum_range_succ, add_mul]
    by_cases h : a.testBit k <;> simp [h, mul_comm]

@[simp] theorem toPoly_pmul (a b : Poly) : toPoly (pmul a b) = toPoly a * toPoly b := by
  rw [pmul, toPoly_pmulBelow]; rfl

theorem toPoly_double (v : Poly) : toPoly (2 * v) = toPoly v * X := by
  have : 2 * v = v <<< 1 := by rw [Nat.shiftLeft_eq]; ring
  rw [this, toPoly_shiftLeft, pow_one]

theorem pmul_two (v : Poly) : pmul v 2 = 2 * v := toPoly_injective (by simp [toPoly_double])

theorem pmul_comm (a b : Poly) : pmul a b = pmul b a := toPoly_injective (by simp [mul_comm])

theorem padd_self (a : Poly) : padd a a = 0 := Nat.xor_self a

theorem padd_comm (a b : Poly) : padd a b = padd b a := Nat.xor_comm a b

/-! ### Degrees -/

theorem degree_toPoly {p : Poly} (h : p ≠ 0) : (toPoly p).degree = p.log2 := by
  refine le_antisymm ?_ (le_degree_of_ne_zero (by simp [testBit_log2 h]))
  refine degree_le_iff_coeff_zero _ _ |>.2 (fun i hi => ?_)
  have : p.log2 < i := by exact_mod_cast hi
  simp [testBit_above_log2 this]

theorem natDegree_toPoly (p : Poly) : (toPoly p).natDegree = p.log2 := by
  by_cases h : p = 0
  · subst h; simp
  · exact natDegree_eq_of_degree_eq_some (degree_toPoly h)

theorem monic_toPoly {p : Poly} (h : p ≠ 0) : (toPoly p).Monic := by
  rw [Monic, leadingCoeff, natDegree_toPoly]
  simp [testBit_log2 h]

theorem degree_toPoly_lt {p k : Nat} : (toPoly p).degree < k ↔ p < 2 ^ k := by
  rw [degree_lt_iff_coeff_zero]
  constructor
  · intro h
    refine Nat.lt_pow_two_of_testBit p (fun i hi => ?_)
    have := h i hi
    by_contra hc
    simp [hc] at this
  · intro h i hi
    simp [Nat.testBit_lt_two_pow (lt_of_lt_of_le h (Nat.pow_le_pow_right (by omega) hi))]

theorem deg_eq_some {p e : Nat} : deg p = some e ↔ p ≠ 0 ∧ p.log2 = e := by
  unfold deg; split <;> simp_all

theorem degGe_eq_false {p k : Nat} : degGe p k = false ↔ p < 2 ^ k := by
  unfold degGe deg
  by_cases h : p = 0
  · subst h; simp
  · simp [h, Nat.log2_lt h]

theorem degGe_eq_true {p k : Nat} : degGe p k = true ↔ 2 ^ k ≤ p := by
  rw [← Bool.not_eq_false, degGe_eq_false, not_lt]

/-! ### Division with remainder -/

theorem xor_top_lt {s b e k : Nat} (hb : b ≠ 0) (he : b.log2 = e) (hs : s < 2 ^ (e + k + 1))
    (ht : s.testBit (e + k) = true) : padd s (b <<< k) < 2 ^ (e + k) := by
  refine Nat.lt_pow_two_of_testBit _ (fun i hi => ?_)
  rw [padd, Nat.testBit_xor, Nat.testBit_shiftLeft]
  rcases Nat.eq_or_lt_of_le hi with rfl | hlt
  · have h1 : b.testBit e = true := by rw [← he]; exact testBit_log2 hb
    simp [ht, h1]
  · have h1 : s.testBit i = false := Nat.testBit_lt_two_pow (lt_of_lt_of_le hs (Nat.pow_le_pow_right (by omega) hlt))
    have h2 : b.testBit (i - k) = false := testBit_above_log2 (by omega)
    simp [h1, h2]

theorem pdivmodFrom_spec {b e : Nat} (hb : b ≠ 0) (he : b.log2 = e) (k q s : Nat) (hs : s < 2 ^ (e + k)) :
    toPoly (pdivmodFrom b e k q s).1 * toPoly b + toPoly (pdivmodFrom b e k q s).2
        = toPoly q * toPoly b + toPoly s
      ∧ (pdivmodFrom b e k q s).2 < 2 ^ e := by
  induction k generalizing q s with
  | zero => exact ⟨rfl, by simpa [pdivmodFrom] using hs⟩
  | succ k ih =>
    unfold pdivmodFrom
    split <;> rename_i ht
    · obtain ⟨h1, h2⟩ := ih (padd q (2 ^ k)) (padd s (b <<< k)) (xor_top_lt hb he hs ht)
      refine ⟨?_, h2⟩
      rw [h1]
      simp only [toPoly_padd, toPoly_two_pow, toPoly_shiftLeft]
      have h0 : (X ^ k * toPoly b + toPoly b * X ^ k : (ZMod 2)[X]) = 0 := by
        rw [mul_comm (X ^ k)]; exact CharTwo.add_self_eq_zero _
      linear_combination h0
    · refine ih q s (Nat.lt_pow_two_of_testBit _ (fun i hi => ?_))
      rcases Nat.eq_or_lt_of_le hi with rfl | hlt
      · simpa using ht
      · exact Nat.testBit_lt_two_pow (lt_of_lt_of_le hs (Nat.pow_le_pow_right (by omega) hlt))

/-- Everything divmod does, for a divisor that is not zero: a = q·b + s with deg s < deg b. -/
theorem pdivmod_spec (a : Poly) {b : Poly} (hb : b ≠ 0) :
    toPoly (pdiv a b) * toPoly b + toPoly (pmodulo a b) = toPoly a ∧ pmodulo a b < 2 ^ b.log2 := by
  have hs : a < 2 ^ (b.log2 + (a.log2 + 1 - b.log2)) :=
    lt_of_lt_of_le Nat.lt_log2_self (Nat.pow_le_pow_right (by omega) (by omega))
  have := pdivmodFrom_spec hb rfl (a.log2 + 1 - b.log2) 0 a hs
  simpa [pdiv, pmodulo, pdivmod] using this

theorem pmodulo_lt (a : Poly) {b : Poly} (hb : b ≠ 0) : pmodulo a b < 2 ^ b.log2 := (pdivmod_spec a hb).2

theorem toPoly_pdivmod (a : Poly) {b : Poly} (hb : b ≠ 0) :
    toPoly a /ₘ toPoly b = toPoly (pdiv a b) ∧ toPoly a %ₘ toPoly b = toPoly (pmodulo a b) := by
  obtain ⟨h1, h2⟩ := pdivmod_spec a hb
  refine div_modByMonic_unique _ _ (monic_toPoly hb) ⟨by rw [← h1]; ring, ?_⟩
  rw [degree_toPoly hb]
  exact degree_toPoly_lt.2 h2

theorem toPoly_pmodulo (a : Poly) {b : Poly} (hb : b ≠ 0) : toPoly (pmodulo a b) = toPoly a %ₘ toPoly b :=
  (toPoly_pdivmod a hb).2.symm

theorem toPoly_pdiv (a : Poly) {b : Poly} (hb : b ≠ 0) : toPoly (pdiv a b) = toPoly a /ₘ toPoly b :=
  (toPoly_pdivmod a hb).1.symm

/-- The remainder is 0 exactly when b divides a. -/
theorem pmodulo_eq_zero (a : Poly) {b : Poly} (hb : b ≠ 0) : pmodulo a b = 0 ↔ toPoly b ∣ toPoly a := by
  rw [← modByMonic_eq_zero_iff_dvd (monic_toPoly hb), ← toPoly_pmodulo a hb, toPoly_eq_zero]

theorem pmodulo_of_lt {a b : Poly} (hb : b ≠ 0) (h : a < 2 ^ b.log2) : pmodulo a b = a := by
  refine toPoly_injective ?_
  rw [toPoly_pmodulo a hb, (modByMonic_eq_self_iff (monic_toPoly hb))]
  rw [degree_toPoly hb]
  exact degree_toPoly_lt.2 h

theorem pmodulo_padd (a a' : Poly) {b : Poly} (hb : b ≠ 0) :
    pmodulo (padd a a') b = padd (pmodulo a b) (pmodulo a' b) :=
  toPoly_injective (by simp [toPoly_pmodulo _ hb, add_modByMonic])

/-- Quotient and remainder are the only pair with a = q·b + s and deg s < deg b. -/
theorem pdivmod_unique {a b q s : Poly} (hb : b ≠ 0) (h : a = padd (pmul q b) s) (hs : s < 2 ^ b.log2) :
    pdiv a b = q ∧ pmodulo a b = s := by
  have := div_modByMonic_unique (f := toPoly a) (g := toPoly b) (toPoly q) (toPoly s) (monic_toPoly hb)
    ⟨by rw [h]; simp; ring, by rw [degree_toPoly hb]; exact degree_toPoly_lt.2 hs⟩
  rw [← toPoly_pdiv a hb, ← toPoly_pmodulo a hb] at this
  exact ⟨toPoly_injective this.1, toPoly_injective this.2⟩

/-! ### Every polynomial over GF(2) is the image of one number -/

theorem toPoly_surjective : Function.Surjective toPoly := by
  intro p
  induction p using Polynomial.induction_on' with
  | add p q hp hq =>
    obtain ⟨a, rfl⟩ := hp
    obtain ⟨b, rfl⟩ := hq
    exact ⟨padd a b, toPoly_padd a b⟩
  | monomial n a =>
    have ha : a = 0 ∨ a = 1 := by revert a; decide
    rcases ha with rfl | rfl
    · exact ⟨0, by simp⟩
    · exact ⟨2 ^ n, by rw [toPoly_two_pow, X_pow_eq_monomial]⟩

/-! ### Greatest common divisor and least common multiple -/

theorem pgcdFrom_spec (k a b : Nat) (hb : b < 2 ^ k) (f : (ZMod 2)[X]) :
    f ∣ toPoly (pgcdFrom (k + 1) a b) ↔ f ∣ toPoly a ∧ f ∣ toPoly b := by
  induction k generalizing a b with
  | zero =>
    have : b = 0 := by simpa using hb
    subst this
    simp [pgcdFrom]
  | succ k ih =>
    by_cases h : b = 0
    · subst h; simp [pgcdFrom]
    · have hlt : pmodulo a b < 2 ^ k := lt_of_lt_of_le (pmodulo_lt a h)
        (Nat.pow_le_pow_right (by omega) (Nat.lt_succ_iff.1 ((Nat.log2_lt h).2 hb)))
      have hstep : pgcdFrom (k + 1 + 1) a b = pgcdFrom (k + 1) b (pmodulo a b) := by
        rw [pgcdFrom, if_neg h]
      rw [hstep, ih b _ hlt, ← (pdivmod_spec a h).1]
      constructor
      · rintro ⟨h1, h2⟩
        exact ⟨dvd_add (Dvd.dvd.mul_left h1 _) h2, h1⟩
      · rintro ⟨h1, h2⟩
        exact ⟨h2, (dvd_add_right (Dvd.dvd.mul_left h2 _)).1 h1⟩

/-- gcd: the common divisors of a and b are the divisors of gcd(a, b). -/
theorem pgcd_spec (a b : Poly) (f : (ZMod 2)[X]) : f ∣ toPoly (pgcd a b) ↔ f ∣ toPoly a ∧ f ∣ toPoly b :=
  pgcdFrom_spec (b.log2 + 1) a b Nat.lt_log2_self f

theorem pgcd_ne_zero {a : Poly} (b : Poly) (ha : a ≠ 0) : pgcd a b ≠ 0 := by
  intro h
  have := ((pgcd_spec a b 0).1 (by simp [h])).1
  exact ha (toPoly_eq_zero.1 (zero_dvd_iff.1 this))

/-- lcm(a, b)·gcd(a, b) = a·b. -/
theorem plcm_mul_pgcd {a : Poly} (b : Poly) (ha : a ≠ 0) :
    toPoly (plcm a b) * toPoly (pgcd a b) = toPoly a * toPoly b := by
  have hg := pgcd_ne_zero b ha
  have h0 : pmodulo (pmul a b) (pgcd a b) = 0 := by
    rw [pmodulo_eq_zero _ hg, toPoly_pmul]
    exact Dvd.dvd.mul_right ((pgcd_spec a b _).1 dvd_rfl).1 _
  have := (pdivmod_spec (pmul a b) hg).1
  rw [h0] at this
  simpa [plcm] using this

theorem plcm_ne_zero {a b : Poly} (ha : a ≠ 0) (hb : b ≠ 0) : plcm a b ≠ 0 := by
  intro h
  have := plcm_mul_pgcd b ha
  rw [h, toPoly_zero, zero_mul] at this
  rcases mul_eq_zero.1 this.symm with h' | h'
  · exact ha (toPoly_eq_zero.1 h')
  · exact hb (toPoly_eq_zero.1 h')

/-- Both a and b divide lcm(a, b). -/
theorem dvd_plcm {a b : Poly} (ha : a ≠ 0) :
    toPoly a ∣ toPoly (plcm a b) ∧ toPoly b ∣ toPoly (plcm a b) := by
  have hg : toPoly (pgcd a b) ≠ 0 := by simpa using pgcd_ne_zero b ha
  obtain ⟨u, hu⟩ := ((pgcd_spec a b _).1 dvd_rfl).1
  obtain ⟨v, hv⟩ := ((pgcd_spec a b _).1 dvd_rfl).2
  have h := plcm_mul_pgcd b ha
  refine ⟨⟨v, mul_right_cancel₀ hg ?_⟩, ⟨u, mul_right_cancel₀ hg ?_⟩⟩
  · rw [h]; linear_combination (toPoly a) * hv
  · rw [h]; linear_combination (toPoly b) * hu

end Sys2Proof.Machine
end

