-- ==== Sys2Proof/Laws/Field.lean ====
section
/-!
SUPPORT. Sys2Proof/Laws/Field.lean: the operations of Machine/Field.lean. For an r that is not 0 the model's elements are
those of the ring GF(2)[x]/(r) through the map `toRing`, which is one to one on the reduced ones; the searches
(order(2, n), irreducibility, powers, candidates, quotient) find exactly what the declarative predicates of
Sys2Proof/Safety.lean say.
-/

namespace Sys2Proof.Machine

open Polynomial

/-! ### The ring of r -/

/-- The residue class of a polynomial modulo r. -/
noncomputable def toRing (r p : Poly) : AdjoinRoot (toPoly r) := AdjoinRoot.mk (toPoly r) (toPoly p)

theorem toRing_eq_iff {r : Poly} (hr : r ≠ 0) {a b : Poly} : toRing r a = toRing r b ↔ red r a = red r b := by
  rw [toRing, toRing, AdjoinRoot.mk_eq_mk, ← modByMonic_eq_zero_iff_dvd (monic_toPoly hr), sub_modByMonic,
    sub_eq_zero, red, red, ← toPoly_inj, toPoly_pmodulo _ hr, toPoly_pmodulo _ hr]

@[simp] theorem toRing_red {r : Poly} (hr : r ≠ 0) (p : Poly) : toRing r (red r p) = toRing r p := by
  rw [toRing_eq_iff hr, red, red]
  exact pmodulo_of_lt hr (pmodulo_lt p hr)

theorem red_of_lt {r p : Poly} (hr : r ≠ 0) (h : p < 2 ^ r.log2) : red r p = p := pmodulo_of_lt hr h

theorem red_lt {r : Poly} (hr : r ≠ 0) (p : Poly) : red r p < 2 ^ r.log2 := pmodulo_lt p hr

/-- On reduced elements the map to the ring is one to one. -/
theorem toRing_inj {r a b : Poly} (hr : r ≠ 0) (ha : a < 2 ^ r.log2) (hb : b < 2 ^ r.log2) :
    toRing r a = toRing r b ↔ a = b := by
  rw [toRing_eq_iff hr, red_of_lt hr ha, red_of_lt hr hb]

@[simp] theorem toRing_padd (r a b : Poly) : toRing r (padd a b) = toRing r a + toRing r b := by simp [toRing]

@[simp] theorem toRing_pmul (r a b : Poly) : toRing r (pmul a b) = toRing r a * toRing r b := by simp [toRing]

@[simp] theorem toRing_zero (r : Poly) : toRing r 0 = 0 := by simp [toRing]

@[simp] theorem toRing_one (r : Poly) : toRing r 1 = 1 := by simp [toRing]

@[simp] theorem toRing_fmul {r : Poly} (hr : r ≠ 0) (a b : Poly) :
    toRing r (fmul r a b) = toRing r a * toRing r b := by simp [fmul, toRing_red hr]

theorem fmul_lt {r : Poly} (hr : r ≠ 0) (a b : Poly) : fmul r a b < 2 ^ r.log2 := red_lt hr _

theorem padd_lt {a b k : Nat} (ha : a < 2 ^ k) (hb : b < 2 ^ k) : padd a b < 2 ^ k := Nat.xor_lt_two_pow ha hb

theorem fmul_comm (r a b : Poly) : fmul r a b = fmul r b a := by rw [fmul, fmul, pmul_comm]

theorem fmul_assoc {r : Poly} (hr : r ≠ 0) (a b c : Poly) : fmul r (fmul r a b) c = fmul r a (fmul r b c) :=
  (toRing_inj hr (fmul_lt hr _ _) (fmul_lt hr _ _)).1 (by simp [toRing_fmul hr, mul_assoc])

theorem fmul_padd {r : Poly} (hr : r ≠ 0) (a b c : Poly) :
    fmul r a (padd b c) = padd (fmul r a b) (fmul r a c) :=
  (toRing_inj hr (fmul_lt hr _ _) (padd_lt (fmul_lt hr _ _) (fmul_lt hr _ _))).1
    (by simp [toRing_fmul hr, mul_add])

theorem fmul_one {r a : Poly} (hr : r ≠ 0) (ha : a < 2 ^ r.log2) : fmul r a 1 = a :=
  (toRing_inj hr (fmul_lt hr _ _) ha).1 (by simp [toRing_fmul hr])

/-- Reducing the factors first changes nothing (41_field_arithmetic R149). -/
theorem fmul_red {r : Poly} (hr : r ≠ 0) (a b : Poly) : fmul r (red r a) (red r b) = fmul r a b :=
  (toRing_inj hr (fmul_lt hr _ _) (fmul_lt hr _ _)).1 (by simp [toRing_fmul hr, toRing_red hr])

/-! ### Evaluation -/

/-- Evaluation of a list of coefficients is the ring's. -/
theorem toRing_evalList {r : Poly} (hr : r ≠ 0) (L : List Poly) (y : Poly) :
    toRing r (evalList r L y) = (L.map (toRing r)).foldr (fun c acc => c + toRing r y * acc) 0 := by
  induction L with
  | nil => simp [evalList]
  | cons c cs ih => simp [evalList, toRing_fmul hr, ih]

theorem toRing_evalBin_sum (r p y : Poly) (k j : Nat) :
    ((List.range' j k).map (fun i => toRing r (if p.testBit i then 1 else 0))).foldr
        (fun c acc => c + toRing r y * acc) 0 * toRing r y ^ j
      = ∑ i ∈ Finset.range k, (if p.testBit (j + i) then toRing r y ^ (j + i) else 0) := by
  induction k generalizing j with
  | zero => simp
  | succ k ih =>
    have h := ih (j + 1)
    rw [List.range'_succ, List.map_cons, List.foldr_cons, add_mul, Finset.sum_range_succ', mul_comm (toRing r y),
      mul_assoc, ← pow_succ', h, add_comm]
    congr 1
    · refine Finset.sum_congr rfl (fun i _ => ?_)
      rw [show j + 1 + i = j + (i + 1) by ring]
    · by_cases hb : p.testBit j <;> simp [hb]

/-- Evaluation of a binary polynomial is the ring's: p(y) (00_scope R17). -/
theorem toRing_evalBin {r : Poly} (hr : r ≠ 0) (p y : Poly) :
    toRing r (evalBin r p y) = aeval (toRing r y) (toPoly p) := by
  have h := toRing_evalBin_sum r p y (p.log2 + 1) 0
  have hp : toPoly p = ∑ i ∈ Finset.range (p.log2 + 1), if p.testBit i then X ^ i else 0 := rfl
  rw [hp, map_sum, evalBin, toRing_evalList hr, coeffs, List.map_map, List.range_eq_range']
  simp only [pow_zero, mul_one, zero_add] at h
  rw [show (toRing r ∘ fun i => if p.testBit i then 1 else 0) = fun i => toRing r (if p.testBit i then 1 else 0) from
    rfl, h]
  refine Finset.sum_congr rfl (fun i _ => ?_)
  by_cases hb : p.testBit i <;> simp [hb]

theorem evalList_lt {r : Poly} (hr : r ≠ 0) (L : List Poly) (hL : ∀ c ∈ L, c < 2 ^ r.log2) (y : Poly) :
    evalList r L y < 2 ^ r.log2 := by
  induction L with
  | nil => exact Nat.two_pow_pos _
  | cons c cs ih =>
    exact padd_lt (hL c (by simp)) (fmul_lt hr _ _)

/-! ### order(2, n) -/

theorem orderFrom_some {n k i p m : Nat} (hp : p = 2 ^ i % n) (h : orderFrom n k i p = some m) :
    i ≤ m ∧ m < i + k ∧ 2 ^ m % n = 1 ∧ ∀ j, i ≤ j → j < m → 2 ^ j % n ≠ 1 := by
  induction k generalizing i p with
  | zero => simp [orderFrom] at h
  | succ k ih =>
    unfold orderFrom at h
    split at h
    · rename_i h1
      obtain rfl : i = m := by simpa using h
      exact ⟨le_rfl, by omega, by rw [← hp, h1], fun j h1 h2 => by omega⟩
    · rename_i h1
      obtain ⟨a, b, c, d⟩ := ih (by rw [hp, pow_succ', Nat.mul_mod_mod]) h
      refine ⟨by omega, by omega, c, fun j hj hjm => ?_⟩
      rcases Nat.eq_or_lt_of_le hj with rfl | hlt
      · rw [← hp]; exact h1
      · exact d j hlt hjm

theorem orderFrom_none {n k i p : Nat} (hp : p = 2 ^ i % n) (h : orderFrom n k i p = none) :
    ∀ j, i ≤ j → j < i + k → 2 ^ j % n ≠ 1 := by
  induction k generalizing i p with
  | zero => intro j _ _; omega
  | succ k ih =>
    unfold orderFrom at h
    split at h
    · simp at h
    · rename_i h1
      intro j hj hjk
      rcases Nat.eq_or_lt_of_le hj with rfl | hlt
      · rw [← hp]; exact h1
      · exact ih (by rw [hp, pow_succ', Nat.mul_mod_mod]) h j hlt (by omega)

theorem two_pow_mod_even {n i : Nat} (hn : n % 2 = 0) (hi : 1 ≤ i) : 2 ^ i % n ≠ 1 := by
  intro h
  have h1 : 2 ^ i % n % 2 = 2 ^ i % 2 := Nat.mod_mod_of_dvd _ (Nat.dvd_of_mod_eq_zero hn)
  obtain ⟨j, rfl⟩ : ∃ j, i = j + 1 := ⟨i - 1, by omega⟩
  rw [h, pow_succ, Nat.mul_mod_left] at h1
  exact absurd h1 (by decide)

/-- Everything order(2, n) does (42_code_generator R172). -/
theorem order2_some {n m : Nat} : order2 n = some m ↔ IsOrder n m := by
  unfold order2 IsOrder
  split
  · rename_i h
    exact ⟨fun h' => by simp at h', fun ⟨h1, _, h3, _⟩ => absurd h3 (two_pow_mod_even h h1)⟩
  · rename_i h
    constructor
    · intro h'
      obtain ⟨a, b, c, d⟩ := orderFrom_some (i := 1) (by simp) h'
      exact ⟨a, by omega, c, d⟩
    · rintro ⟨h1, h2, h3, h4⟩
      cases hm : orderFrom n n 1 (2 % n) with
      | none => exact absurd h3 (orderFrom_none (i := 1) (by simp) hm m h1 (by omega))
      | some m' =>
        obtain ⟨a, b, c, d⟩ := orderFrom_some (i := 1) (by simp) hm
        rcases lt_trichotomy m m' with hlt | rfl | hlt
        · exact absurd h3 (d m h1 hlt)
        · rfl
        · exact absurd c (h4 m' a hlt)

theorem order2_none {n : Nat} : order2 n = none ↔ ∀ m, ¬ IsOrder n m := by
  constructor
  · intro h m hm; rw [← order2_some, h] at hm; simp at hm
  · intro h
    cases hm : order2 n with
    | none => rfl
    | some m => exact absurd (order2_some.1 hm) (h m)

/-! ### Irreducibility -/

theorem irreducible_iff {m : Nat} {r : Poly} : irreducible m r = true ↔ IsIrreducible m r := by
  unfold irreducible IsIrreducible
  simp only [List.all_eq_true, List.mem_range, Bool.or_eq_true, decide_eq_true_eq, ne_eq]
  constructor
  · rintro h f e hf h1 h2 h0
    obtain ⟨hf0, rfl⟩ := deg_eq_some.1 hf
    have hlt : f < 2 ^ m :=
      lt_of_lt_of_le Nat.lt_log2_self (Nat.pow_le_pow_right (by omega) (by omega))
    rcases h f hlt with h | h
    · have hf1 : f = 1 := Nat.le_antisymm (Nat.lt_succ_iff.1 h) (Nat.pos_of_ne_zero hf0)
      rw [hf1, show Nat.log2 1 = 0 by decide] at h1
      omega
    · exact h h0
  · intro h f hf
    by_cases h2 : f < 2
    · exact .inl h2
    · refine .inr (h f f.log2 (deg_eq_some.2 ⟨by omega, rfl⟩) ?_ ?_)
      · exact (Nat.le_log2 (by omega)).2 (by omega)
      · have := (Nat.log2_lt (k := m) (by omega : f ≠ 0)).2 hf
        omega

/-- The declarative irreducibility of 42_code_generator R174 is irreducibility in GF(2)[x]. -/
theorem irreducible_toPoly {m : Nat} {r : Poly} (hm : 1 ≤ m) (hd : deg r = some m) (h : IsIrreducible m r) :
    Irreducible (toPoly r) := by
  obtain ⟨h0, hl⟩ := deg_eq_some.1 hd
  have hr1 : toPoly r ≠ 1 := by
    rw [← toPoly_one, Ne, toPoly_inj]
    rintro rfl
    rw [show Nat.log2 1 = 0 by decide] at hl
    omega
  rw [(monic_toPoly h0).irreducible_iff_natDegree' ]
  refine ⟨hr1, fun f g hf hg hfg => ?_⟩
  obtain ⟨f', rfl⟩ := toPoly_surjective f
  obtain ⟨g', rfl⟩ := toPoly_surjective g
  intro hmem
  rw [Finset.mem_Ioc, natDegree_toPoly, natDegree_toPoly, hl] at hmem
  have hg0 : g' ≠ 0 := by rintro rfl; simp at hmem
  refine h g' g'.log2 (deg_eq_some.2 ⟨hg0, rfl⟩) hmem.1 (by omega) ?_
  rw [pmodulo_eq_zero _ hg0, ← hfg]
  exact dvd_mul_left _ _

/-! ### Powers of alpha -/

theorem red_double (r v : Poly) : red r (2 * v) = red r (pmul v 2) := by rw [pmul_two]

theorem alphaSeq_one (r : Poly) : alphaSeq r 1 = red r 2 := by
  rw [alphaSeq, alphaSeq, pmul_two]

theorem alphaSeq_lt {r : Poly} (hr : r ≠ 0) (h1 : 1 ≤ r.log2) (e : Nat) : alphaSeq r e < 2 ^ r.log2 := by
  cases e with
  | zero => exact Nat.one_lt_two_pow (by omega)
  | succ e => exact red_lt hr _

theorem toRing_alphaSeq {r : Poly} (hr : r ≠ 0) (e : Nat) : toRing r (alphaSeq r e) = toRing r 2 ^ e := by
  induction e with
  | zero => simp [alphaSeq]
  | succ e ih => rw [alphaSeq, toRing_red hr, toRing_pmul, ih, pow_succ]

theorem powersFrom_some {r : Poly} {k e : Nat} {vs : List Poly} (h : powersFrom r k (alphaSeq r e) = some vs) :
    vs.length < k ∧ alphaSeq r (e + vs.length) = 1 ∧
      ∀ i, i < vs.length → vs.getD i 0 = alphaSeq r (e + i) ∧ alphaSeq r (e + i) ≠ 1 := by
  induction k generalizing e vs with
  | zero => simp [powersFrom] at h
  | succ k ih =>
    unfold powersFrom at h
    split at h
    · rename_i h1
      obtain rfl : [] = vs := by simpa using h
      exact ⟨by simp, by simpa using h1, fun i hi => by simp at hi⟩
    · rename_i h1
      split at h
      · simp at h
      · rename_i ws hws
        obtain rfl : alphaSeq r e :: ws = vs := by simpa using h
        rw [red_double] at hws
        obtain ⟨a, b, c⟩ := ih (e := e + 1) hws
        refine ⟨by simpa using a, by simpa [add_assoc, add_comm 1] using b, fun i hi => ?_⟩
        cases i with
        | zero => exact ⟨rfl, h1⟩
        | succ i =>
          have := c i (by simpa using hi)
          rw [show e + (i + 1) = e + 1 + i by ring]
          exact ⟨by simpa using this.1, this.2⟩

theorem powersFrom_none {r : Poly} {k e : Nat} (h : powersFrom r k (alphaSeq r e) = none) :
    ∀ i, i < k → alphaSeq r (e + i) ≠ 1 := by
  induction k generalizing e with
  | zero => intro i hi; omega
  | succ k ih =>
    unfold powersFrom at h
    split at h
    · simp at h
    · rename_i h1
      split at h
      · rename_i hws
        rw [red_double] at hws
        intro i hi
        cases i with
        | zero => exact h1
        | succ i =>
          rw [show e + (i + 1) = e + 1 + i by ring]
          exact ih (e := e + 1) hws i (by omega)
      · simp at h

/-- The power table holds the powers below ord(r) (41_field_arithmetic R141, R142). -/
theorem powTable_some {m : Nat} {r : Poly} {pow : List Poly} (h : powTable m r = some pow) :
    IsOrd m r pow.length ∧ ∀ e, e < pow.length → pow.getD e 0 = alphaSeq r e := by
  unfold powTable at h
  split at h
  · simp at h
  · rename_i vs hvs
    obtain rfl : 1 :: vs = pow := by simpa using h
    rw [← alphaSeq_one] at hvs
    obtain ⟨a, b, c⟩ := powersFrom_some hvs
    refine ⟨⟨by simp, by simpa using by omega, by simpa [add_comm] using b, fun i h1 h2 => ?_⟩, fun e he => ?_⟩
    · have := (c (i - 1) (by simp at h2; omega)).2
      rwa [show 1 + (i - 1) = i by omega] at this
    · cases e with
      | zero => rfl
      | succ e =>
        have := (c e (by simpa using he)).1
        simpa [add_comm] using this

theorem powTable_none {m : Nat} {r : Poly} (h : powTable m r = none) : ∀ e, ¬ IsOrd m r e := by
  unfold powTable at h
  split at h
  · rename_i hvs
    rw [← alphaSeq_one] at hvs
    rintro e ⟨h1, h2, h3, -⟩
    have := powersFrom_none hvs (e - 1) (by omega)
    rw [show 1 + (e - 1) = e by omega] at this
    exact this h3
  · simp at h

theorem isOrd_unique {m : Nat} {r : Poly} {e e' : Nat} (h : IsOrd m r e) (h' : IsOrd m r e') : e = e' := by
  obtain ⟨a, b, c, d⟩ := h
  obtain ⟨a', b', c', d'⟩ := h'
  rcases lt_trichotomy e e' with hlt | rfl | hlt
  · exact absurd c (d' e a hlt)
  · rfl
  · exact absurd c' (d e' a' hlt)

/-- alpha^e for every e is the entry e mod ord of the table (41_field_arithmetic R151). -/
theorem alphaSeq_mod {m : Nat} {r : Poly} {ord : Nat} (hr : r ≠ 0) (h1 : 1 ≤ r.log2) (ho : IsOrd m r ord) (e : Nat) :
    alphaSeq r (e % ord) = alphaSeq r e := by
  refine (toRing_inj hr (alphaSeq_lt hr h1 _) (alphaSeq_lt hr h1 _)).1 ?_
  have h := congrArg (toRing r) ho.2.2.1
  rw [toRing_alphaSeq hr, toRing_one] at h
  rw [toRing_alphaSeq hr, toRing_alphaSeq hr]
  conv_rhs => rw [← Nat.div_add_mod e ord, pow_add, pow_mul, h, one_pow, one_mul]

/-- The powers below ord are distinct (41_field_arithmetic R142). -/
theorem alphaSeq_injOn {m : Nat} {r : Poly} {ord : Nat} (hr : r ≠ 0) (h1 : 1 ≤ r.log2) (ho : IsOrd m r ord)
    {i j : Nat} (hi : i < ord) (hj : j < ord) (h : alphaSeq r i = alphaSeq r j) : i = j := by
  wlog hij : i ≤ j generalizing i j
  · exact (this hj hi h.symm (by omega)).symm
  by_contra hne
  have hone := congrArg (toRing r) ho.2.2.1
  rw [toRing_alphaSeq hr, toRing_one] at hone
  have hu : IsUnit (toRing r 2) := IsUnit.of_pow_eq_one hone (by omega)
  have hp := congrArg (toRing r) h
  rw [toRing_alphaSeq hr, toRing_alphaSeq hr, show j = i + (j - i) by omega, pow_add] at hp
  have h2 : (1 : AdjoinRoot (toPoly r)) = toRing r 2 ^ (j - i) :=
    (hu.pow i).mul_left_cancel (by rw [mul_one]; exact hp)
  refine ho.2.2.2 (j - i) (by omega) (by omega) ?_
  refine (toRing_inj hr (alphaSeq_lt hr h1 _) (Nat.one_lt_two_pow (by omega))).1 ?_
  rw [toRing_alphaSeq hr, toRing_one, ← h2]

/-- The tables built from a power table are those of r (41_field_arithmetic R142). -/
theorem tablesOk_of_powTable {m : Nat} {r : Poly} {pow : List Poly} (hm : 1 ≤ m) (hd : deg r = some m)
    (h : powTable m r = some pow) : TablesOk m r pow.length pow (logTable m pow) := by
  obtain ⟨hr, hl⟩ := deg_eq_some.1 hd
  obtain ⟨ho, hp⟩ := powTable_some h
  have hm1 : 1 ≤ r.log2 := by omega
  refine ⟨rfl, hp, by simp [logTable], fun v e => ?_⟩
  have hget : ∀ e, e < pow.length → pow[e]? = some (alphaSeq r e) := by
    intro e he
    have := hp e he
    rw [List.getD_eq_getElem?_getD, List.getElem?_eq_getElem he] at this
    rw [List.getElem?_eq_getElem he]
    simpa using this
  by_cases hv : v < 2 ^ m
  · have hlog : (logTable m pow).getD v none = pow.idxOf? v := by
      simp [logTable, List.getD_eq_getElem?_getD, hv]
    rw [hlog, List.idxOf?_eq_some_iff]
    constructor
    · rintro ⟨he, hev, -⟩
      refine ⟨hv, he, ?_⟩
      have := hget e he
      rw [List.getElem?_eq_getElem he] at this
      rw [← hev]
      simpa using this.symm
    · rintro ⟨-, he, hev⟩
      refine ⟨he, ?_, fun j hj hjv => ?_⟩
      · have := hget e he
        rw [List.getElem?_eq_getElem he] at this
        rw [← hev]
        simpa using this
      · have hj' : j < pow.length := by omega
        have := hget j hj'
        rw [List.getElem?_eq_getElem hj'] at this
        have h2 : alphaSeq r j = alphaSeq r e := by
          rw [hev, ← hjv]; simpa using this.symm
        have := alphaSeq_injOn hr hm1 ho hj' he h2
        omega
  · have hlog : (logTable m pow).getD v none = none := by
      simp [logTable, List.getD_eq_getElem?_getD, hv]
    rw [hlog]
    simp [hv]

/-! ### The search for r -/

theorem acceptCandidate_some {m n : Nat} {r : Poly} {pow : List Poly} :
    acceptCandidate m n r = some pow ↔ IsIrreducible m r ∧ powTable m r = some pow ∧ n ≤ pow.length := by
  unfold acceptCandidate
  split
  · rename_i h
    rw [irreducible_iff] at h
    cases hp : powTable m r with
    | none => simp
    | some p =>
      by_cases hn : n ≤ p.length
      · simp only [hn, if_true, h, true_and]
        constructor
        · intro h; simp at h; subst h; exact ⟨rfl, hn⟩
        · exact fun h => h.1
      · simp only [hn, if_false, h, true_and]
        constructor
        · intro h; simp at h
        · rintro ⟨h1, h2⟩; simp at h1; subst h1; exact absurd h2 hn
  · rename_i h
    rw [irreducible_iff] at h
    simp [h]

theorem acceptCandidate_none {m n : Nat} {r : Poly} (hd : deg r = some m) :
    acceptCandidate m n r = none ↔ ¬ IsAccepted m n r := by
  constructor
  · rintro h ⟨-, hi, e, he, hn⟩
    cases hp : powTable m r with
    | none => exact powTable_none hp e he
    | some pow =>
      have := isOrd_unique he (powTable_some hp).1
      subst this
      rw [acceptCandidate_some.2 ⟨hi, hp, hn⟩] at h
      simp at h
  · intro h
    cases hc : acceptCandidate m n r with
    | none => rfl
    | some pow =>
      obtain ⟨hi, hp, hn⟩ := acceptCandidate_some.1 hc
      exact absurd ⟨hd, hi, _, (powTable_some hp).1, hn⟩ h

theorem searchFrom_some {m n k : Nat} {r0 r : Poly} {pow : List Poly} (h : searchFrom m n k r0 = some (r, pow)) :
    r0 ≤ r ∧ r < r0 + k ∧ acceptCandidate m n r = some pow ∧
      ∀ r', r0 ≤ r' → r' < r → acceptCandidate m n r' = none := by
  induction k generalizing r0 with
  | zero => simp [searchFrom] at h
  | succ k ih =>
    unfold searchFrom at h
    split at h
    · rename_i p hp
      obtain ⟨rfl, rfl⟩ : r0 = r ∧ p = pow := by simpa using h
      exact ⟨le_rfl, Nat.lt_add_of_pos_right (by omega), hp, fun r' h1 h2 => absurd (lt_of_le_of_lt h1 h2) (lt_irrefl _)⟩
    · rename_i hp
      obtain ⟨a, b, c, d⟩ := ih h
      refine ⟨Nat.le_of_succ_le a, by rw [Nat.add_right_comm] at b; exact b, c, fun r' h1 h2 => ?_⟩
      rcases Nat.eq_or_lt_of_le h1 with rfl | hlt
      · exact hp
      · exact d r' hlt h2

theorem searchFrom_none {m n k : Nat} {r0 : Poly} (h : searchFrom m n k r0 = none) :
    ∀ r', r0 ≤ r' → r' < r0 + k → acceptCandidate m n r' = none := by
  induction k generalizing r0 with
  | zero => exact fun r' h1 h2 => absurd (lt_of_le_of_lt h1 h2) (lt_irrefl _)
  | succ k ih =>
    unfold searchFrom at h
    split at h
    · simp at h
    · rename_i hp
      intro r' h1 h2
      rcases Nat.eq_or_lt_of_le h1 with rfl | hlt
      · exact hp
      · exact ih h r' hlt (by rw [Nat.add_right_comm]; exact h2)

theorem deg_candidate {m : Nat} {r : Poly} : deg r = some m ↔ 2 ^ m ≤ r ∧ r < 2 ^ m + 2 ^ m := by
  rw [deg_eq_some]
  constructor
  · rintro ⟨h0, rfl⟩
    refine ⟨Nat.log2_self_le h0, ?_⟩
    have := Nat.lt_log2_self (n := r)
    rw [pow_succ, mul_two] at this
    exact this
  · rintro ⟨h1, h2⟩
    have h0 : r ≠ 0 := by
      rintro rfl
      exact absurd h1 (Nat.not_le.2 (Nat.two_pow_pos m))
    refine ⟨h0, le_antisymm ?_ ((Nat.le_log2 h0).2 h1)⟩
    have : r < 2 ^ (m + 1) := by rw [pow_succ, mul_two]; exact h2
    exact Nat.lt_succ_iff.1 ((Nat.log2_lt h0).2 this)

/-- Everything the candidate search does (42_code_generator R175, R176). -/
theorem searchField_some {m n : Nat} {r : Poly} {pow : List Poly} (h : searchField m n = some (r, pow)) :
    IsFirstAccepted m n r ∧ powTable m r = some pow ∧ n ≤ pow.length := by
  obtain ⟨a, b, c, d⟩ := searchFrom_some h
  obtain ⟨hi, hp, hn⟩ := acceptCandidate_some.1 c
  refine ⟨⟨⟨deg_candidate.2 ⟨a, b⟩, hi, _, (powTable_some hp).1, hn⟩, fun r' hlt hacc => ?_⟩, hp, hn⟩
  have hd' := hacc.1
  exact (acceptCandidate_none hd').1 (d r' (deg_candidate.1 hd').1 hlt) hacc

theorem searchField_none {m n : Nat} (h : searchField m n = none) : ∀ r, ¬ IsAccepted m n r := by
  intro r hacc
  have hd := deg_candidate.1 hacc.1
  exact (acceptCandidate_none hacc.1).1 (searchFrom_none h r hd.1 hd.2) hacc

theorem searchField_iff {m n : Nat} {r : Poly} :
    (∃ pow, searchField m n = some (r, pow)) ↔ IsFirstAccepted m n r := by
  constructor
  · rintro ⟨pow, h⟩; exact (searchField_some h).1
  · intro h
    cases hs : searchField m n with
    | none => exact absurd h.1 (searchField_none hs r)
    | some x =>
      obtain ⟨r', pow⟩ := x
      have h' := (searchField_some hs).1
      rcases lt_trichotomy r r' with hlt | rfl | hlt
      · exact absurd h.1 (h'.2 r hlt)
      · exact ⟨pow, rfl⟩
      · exact absurd h'.1 (h.2 r' hlt)

/-! ### Division -/

/-- The quotient is exact (41_field_arithmetic R144). -/
theorem fquot_spec {m : Nat} {r a b : Poly} (hm : 1 ≤ m) (hd : deg r = some m) (hi : IsIrreducible m r)
    (ha : a < 2 ^ m) (hb : red r b ≠ 0) : fquot m r a b < 2 ^ m ∧ fmul r (fquot m r a b) b = a := by
  obtain ⟨hr, hl⟩ := deg_eq_some.1 hd
  have hirr := irreducible_toPoly hm hd hi
  have : Fact (Irreducible (toPoly r)) := ⟨hirr⟩
  have hb' : toRing r b ≠ 0 := by
    rw [← toRing_zero r, Ne, toRing_eq_iff hr]
    rwa [red_of_lt hr (p := 0) (Nat.two_pow_pos _)]
  have hex : ∃ q, q < 2 ^ m ∧ fmul r q b = a := by
    obtain ⟨f, hf⟩ := AdjoinRoot.mk_surjective (g := toPoly r) (toRing r a / toRing r b)
    obtain ⟨q, rfl⟩ := toPoly_surjective f
    refine ⟨red r q, by rw [← hl]; exact red_lt hr q, ?_⟩
    refine (toRing_inj hr (fmul_lt hr _ _) (by rw [hl]; exact ha)).1 ?_
    rw [toRing_fmul hr, toRing_red hr]
    change AdjoinRoot.mk (toPoly r) (toPoly q) * toRing r b = toRing r a
    rw [hf, div_mul_cancel₀ _ hb']
  obtain ⟨q0, hq0, hq0'⟩ := hex
  unfold fquot
  split
  · rename_i q hq
    have h1 := List.mem_of_find?_eq_some hq
    have h2 := List.find?_some hq
    exact ⟨List.mem_range.1 h1, by simpa using h2⟩
  · rename_i hq
    rw [List.find?_eq_none] at hq
    have := hq q0 (List.mem_range.2 hq0)
    simp [hq0'] at this

/-- There is one quotient (41_field_arithmetic R144). -/
theorem fmul_right_cancel {m : Nat} {r q q' b : Poly} (hm : 1 ≤ m) (hd : deg r = some m) (hi : IsIrreducible m r)
    (hq : q < 2 ^ m) (hq' : q' < 2 ^ m) (hb : red r b ≠ 0) (h : fmul r q b = fmul r q' b) : q = q' := by
  obtain ⟨hr, hl⟩ := deg_eq_some.1 hd
  have hirr := irreducible_toPoly hm hd hi
  have : Fact (Irreducible (toPoly r)) := ⟨hirr⟩
  have hb' : toRing r b ≠ 0 := by
    rw [← toRing_zero r, Ne, toRing_eq_iff hr]
    rwa [red_of_lt hr (p := 0) (Nat.two_pow_pos _)]
  have h2 := congrArg (toRing r) h
  rw [toRing_fmul hr, toRing_fmul hr] at h2
  exact (toRing_inj hr (by rw [hl]; exact hq) (by rw [hl]; exact hq')).1 (mul_right_cancel₀ hb' h2)

end Sys2Proof.Machine
end

