-- ==== Sys2Proof/Laws/Code.lean ====
section
/-!
SUPPORT. Sys2Proof/Laws/Code.lean: every code GEN and LOAD install satisfies the invariants of 10_state R70, and what their
searches and checks answer.
-/

namespace Sys2Proof.Machine

open Polynomial

theorem badParameters_eq_false {n b d : Nat} :
    badParameters n b d = false ↔ 3 ≤ n ∧ 1 ≤ b ∧ 1 ≤ d ∧ d ≤ n := by
  unfold badParameters
  simp only [Bool.or_eq_false_iff, decide_eq_false_iff_not, not_lt]
  tauto

theorem badDegree_eq_false {n : Nat} {g : Poly} : badDegree n g = false ↔ 0 < degNat g ∧ degNat g < n ∧ g ≠ 0 := by
  unfold badDegree degGe deg degNat
  by_cases h : g = 0
  · subst h; simp
  · simp only [h, if_false, Bool.or_eq_false_iff, Bool.not_eq_false', decide_eq_true_eq, decide_eq_false_iff_not,
      not_le, ne_eq, not_false_eq_true, and_true, Nat.succ_le_iff]

/-- Divisibility over GF(2) as the remainder test (42_code_generator R185). -/
theorem polyDivides_iff {g p : Poly} (hg : g ≠ 0) : PolyDivides g p ↔ pmodulo p g = 0 := by
  rw [pmodulo_eq_zero p hg]
  constructor
  · rintro ⟨h, rfl⟩; simp
  · rintro ⟨f, hf⟩
    obtain ⟨h, rfl⟩ := toPoly_surjective f
    exact ⟨h, toPoly_injective (by rw [toPoly_pmul, hf, mul_comm])⟩

theorem notDivisor_eq_false {n : Nat} {g : Poly} (hg : g ≠ 0) :
    notDivisor n g = false ↔ PolyDivides g (xnPlusOne n) := by
  rw [polyDivides_iff hg, notDivisor, decide_eq_false_iff_not, not_not]

theorem two_le_order {n m : Nat} (hn : 3 ≤ n) (h : IsOrder n m) : 2 ≤ m := by
  obtain ⟨h1, -, h3, -⟩ := h
  by_contra hc
  obtain rfl : m = 1 := by omega
  rw [pow_one, Nat.mod_eq_of_lt (by omega)] at h3
  omega

/-- n divides 2^m − 1, so n ≤ 2^m − 1 (00_scope R9). -/
theorem order_bound {n m : Nat} (hn : 3 ≤ n) (h : IsOrder n m) : n ≤ 2 ^ m - 1 := by
  by_contra hc
  have h1 : 2 ^ m ≤ n := by omega
  have h3 := h.2.2.1
  have h2 := two_le_order hn h
  have h4 : 2 ^ 2 ≤ 2 ^ m := Nat.pow_le_pow_right (by omega) h2
  rcases Nat.eq_or_lt_of_le h1 with h1 | h1
  · rw [h1, Nat.mod_self] at h3; omega
  · rw [Nat.mod_eq_of_lt h1] at h3; omega

/-- A code made of checked parts satisfies R70. -/
theorem codeOk_mkCode {mmax n b d m : Nat} {r g : Poly} {pow : List Poly} (hp : badParameters n b d = false)
    (ho : IsOrder n m) (hm : m ≤ mmax) (hr : deg r = some m) (hi : IsIrreducible m r) (ht : powTable m r = some pow)
    (hn : n ≤ pow.length) (hd : badDegree n g = false) (hg : notDivisor n g = false) :
    CodeOk mmax (mkCode n b d m r pow g) := by
  obtain ⟨h1, h2, h3, h4⟩ := badParameters_eq_false.1 hp
  obtain ⟨h5, h6, h7⟩ := badDegree_eq_false.1 hd
  have hm2 := two_le_order h1 ho
  exact
    { n_ge := h1, b_ge := h2, d_ge := h3, d_le := h4, order := ho, m_ge := hm2, m_le := hm, r_deg := hr
      r_irreducible := hi, ord_is := (powTable_some ht).1, ord_ge := hn, g_deg_pos := h5, g_deg_lt := h6
      g_divides := (notDivisor_eq_false h7).1 hg, k_eq := rfl, t_eq := rfl, q_eq := rfl
      tables := tablesOk_of_powTable (Nat.le_of_succ_le hm2) hr ht }

/-- Everything a successful generate did (42_code_generator R186). -/
theorem generate_ok {mmax n b d : Nat} {c : Code} (h : generate mmax n b d = .ok c) :
    ∃ m r pow g, badParameters n b d = false ∧ IsOrder n m ∧ m ≤ mmax ∧ IsFirstAccepted m n r ∧
      powTable m r = some pow ∧ n ≤ pow.length ∧ lcmFrom r pow n b (d - 1) 0 1 = .ok g ∧
      badDegree n g = false ∧ notDivisor n g = false ∧ c = mkCode n b d m r pow g := by
  unfold generate at h
  split at h
  · simp at h
  rename_i hb
  split at h
  · simp at h
  rename_i m hm
  split at h
  · simp at h
  rename_i hle
  split at h
  · simp at h
  rename_i r pow hs
  split at h
  · simp at h
  rename_i g hg
  obtain rfl : mkCode n b d m r pow g = c := by simpa using h
  unfold generatorPoly at hg
  split at hg
  · simp at hg
  rename_i g' hl
  split at hg
  · simp at hg
  rename_i hbd
  split at hg
  · simp at hg
  rename_i hnd
  obtain rfl : g' = g := by simpa using hg
  obtain ⟨h1, h2, h3⟩ := searchField_some hs
  exact ⟨m, r, pow, g', by simpa using hb, order2_some.1 hm, by omega, h1, h2, h3, hl, by simpa using hbd,
    by simpa using hnd, rfl⟩

theorem generate_codeOk {mmax n b d : Nat} {c : Code} (h : generate mmax n b d = .ok c) : CodeOk mmax c := by
  obtain ⟨m, r, pow, g, h1, h2, h3, h4, h5, h6, -, h8, h9, rfl⟩ := generate_ok h
  exact codeOk_mkCode h1 h2 h3 h4.1.1 h4.1.2.1 h5 h6 h8 h9

/-- Everything LOAD's checks of r do (45_descriptor_and_control R281, steps 4 to 6). -/
theorem checkFieldPoly_ok {m n : Nat} {r : Poly} {pow : List Poly} :
    checkFieldPoly m n r = .ok pow ↔
      deg r = some m ∧ IsIrreducible m r ∧ powTable m r = some pow ∧ n ≤ pow.length := by
  unfold checkFieldPoly
  by_cases h1 : deg r = some m
  · by_cases h2 : irreducible m r = true
    · cases hp : powTable m r with
      | none => simp [h1, h2]
      | some p =>
        by_cases hn : p.length < n
        · simp only [h1, h2, hn, ne_eq, not_true_eq_false, if_false, Bool.not_true, if_true]
          constructor
          · intro h; simp at h
          · rintro ⟨-, -, h3, h4⟩
            simp only [Option.some.injEq] at h3
            subst h3
            omega
        · simp only [h1, h2, hn, ne_eq, not_true_eq_false, if_false, Bool.not_true]
          constructor
          · intro h
            obtain rfl : p = pow := by simpa using h
            exact ⟨trivial, irreducible_iff.1 h2, rfl, by omega⟩
          · rintro ⟨-, -, h3, -⟩
            simpa using h3
    · have h2' := h2
      rw [irreducible_iff] at h2'
      simp [h1, h2, h2']
  · simp [h1]

/-- Everything a successful load did (45_descriptor_and_control R281). -/
theorem loadRecord_ok {mmax n b d : Nat} {r g : Poly} {c : Code} (h : loadRecord mmax n b d r g = .ok c) :
    ∃ m pow, badParameters n b d = false ∧ IsOrder n m ∧ m ≤ mmax ∧ deg r = some m ∧ IsIrreducible m r ∧
      powTable m r = some pow ∧ n ≤ pow.length ∧ badDegree n g = false ∧ notDivisor n g = false ∧
      c = mkCode n b d m r pow g := by
  unfold loadRecord at h
  split at h
  · simp at h
  rename_i hb
  split at h
  · simp at h
  rename_i m hm
  split at h
  · simp at h
  rename_i hle
  split at h
  · simp at h
  rename_i pow hs
  split at h
  · simp at h
  rename_i hbd
  split at h
  · simp at h
  rename_i hnd
  obtain rfl : mkCode n b d m r pow g = c := by simpa using h
  obtain ⟨h1, h2, h3, h4⟩ := checkFieldPoly_ok.1 hs
  exact ⟨m, pow, by simpa using hb, order2_some.1 hm, by omega, h1, h2, h3, h4, by simpa using hbd,
    by simpa using hnd, rfl⟩

theorem loadRecord_codeOk {mmax n b d : Nat} {r g : Poly} {c : Code} (h : loadRecord mmax n b d r g = .ok c) :
    CodeOk mmax c := by
  obtain ⟨m, pow, h1, h2, h3, h4, h5, h6, h7, h8, h9, rfl⟩ := loadRecord_ok h
  exact codeOk_mkCode h1 h2 h3 h4 h5 h6 h7 h8 h9

end Sys2Proof.Machine
end

