-- ==== Sys2Proof/Laws/State.lean ====
section
/-!
SUPPORT. Sys2Proof/Laws/State.lean: one lemma per field of State for each operation that updates the state, so that no
proof unfolds a record update.
-/

namespace Sys2Proof.Machine

@[simp] theorem startCommand_mmax (w : Word) (s : State) : (startCommand w s).mmax = s.mmax := rfl
@[simp] theorem startCommand_phase (w : Word) (s : State) : (startCommand w s).phase = .busy := rfl
@[simp] theorem startCommand_lastCmd (w : Word) (s : State) : (startCommand w s).lastCmd = w := rfl
@[simp] theorem startCommand_irqEn (w : Word) (s : State) : (startCommand w s).irqEn = s.irqEn := rfl
@[simp] theorem startCommand_done (w : Word) (s : State) : (startCommand w s).done = false := rfl
@[simp] theorem startCommand_err (w : Word) (s : State) : (startCommand w s).err = false := rfl
@[simp] theorem startCommand_ovr (w : Word) (s : State) : (startCommand w s).ovr = s.ovr := rfl
@[simp] theorem startCommand_errCode (w : Word) (s : State) : (startCommand w s).errCode = .noError := rfl
@[simp] theorem startCommand_errInfo (w : Word) (s : State) : (startCommand w s).errInfo = 0 := rfl
@[simp] theorem startCommand_staged (w : Word) (s : State) : (startCommand w s).staged = s.staged := rfl
@[simp] theorem startCommand_msg (w : Word) (s : State) : (startCommand w s).msg = s.msg := rfl
@[simp] theorem startCommand_cw (w : Word) (s : State) : (startCommand w s).cw = s.cw := rfl
@[simp] theorem startCommand_opa (w : Word) (s : State) : (startCommand w s).opa = s.opa := rfl
@[simp] theorem startCommand_opb (w : Word) (s : State) : (startCommand w s).opb = s.opb := rfl
@[simp] theorem startCommand_reslo (w : Word) (s : State) : (startCommand w s).reslo = s.reslo := rfl
@[simp] theorem startCommand_reshi (w : Word) (s : State) : (startCommand w s).reshi = s.reshi := rfl
@[simp] theorem startCommand_code (w : Word) (s : State) : (startCommand w s).code = s.code := rfl
@[simp] theorem startCommand_diag (w : Word) (s : State) : (startCommand w s).diag = s.diag := rfl
@[simp] theorem startCommand_host (w : Word) (s : State) : (startCommand w s).host = s.host := rfl
@[simp] theorem startCommand_draws (w : Word) (s : State) : (startCommand w s).draws = s.draws := rfl

@[simp] theorem complete_mmax (s : State) : (complete s).mmax = s.mmax := rfl
@[simp] theorem complete_phase (s : State) : (complete s).phase = .idle := rfl
@[simp] theorem complete_lastCmd (s : State) : (complete s).lastCmd = s.lastCmd := rfl
@[simp] theorem complete_irqEn (s : State) : (complete s).irqEn = s.irqEn := rfl
@[simp] theorem complete_done (s : State) : (complete s).done = true := rfl
@[simp] theorem complete_err (s : State) : (complete s).err = false := rfl
@[simp] theorem complete_ovr (s : State) : (complete s).ovr = s.ovr := rfl
@[simp] theorem complete_errCode (s : State) : (complete s).errCode = .noError := rfl
@[simp] theorem complete_errInfo (s : State) : (complete s).errInfo = 0 := rfl
@[simp] theorem complete_staged (s : State) : (complete s).staged = s.staged := rfl
@[simp] theorem complete_msg (s : State) : (complete s).msg = s.msg := rfl
@[simp] theorem complete_cw (s : State) : (complete s).cw = s.cw := rfl
@[simp] theorem complete_opa (s : State) : (complete s).opa = s.opa := rfl
@[simp] theorem complete_opb (s : State) : (complete s).opb = s.opb := rfl
@[simp] theorem complete_reslo (s : State) : (complete s).reslo = s.reslo := rfl
@[simp] theorem complete_reshi (s : State) : (complete s).reshi = s.reshi := rfl
@[simp] theorem complete_code (s : State) : (complete s).code = s.code := rfl
@[simp] theorem complete_diag (s : State) : (complete s).diag = s.diag := rfl
@[simp] theorem complete_host (s : State) : (complete s).host = s.host := rfl
@[simp] theorem complete_draws (s : State) : (complete s).draws = s.draws := rfl

@[simp] theorem raiseError_mmax (e : Raise) (s : State) : (raiseError e s).mmax = s.mmax := rfl
@[simp] theorem raiseError_phase (e : Raise) (s : State) : (raiseError e s).phase = .idle := rfl
@[simp] theorem raiseError_lastCmd (e : Raise) (s : State) : (raiseError e s).lastCmd = s.lastCmd := rfl
@[simp] theorem raiseError_irqEn (e : Raise) (s : State) : (raiseError e s).irqEn = s.irqEn := rfl
@[simp] theorem raiseError_done (e : Raise) (s : State) : (raiseError e s).done = true := rfl
@[simp] theorem raiseError_err (e : Raise) (s : State) : (raiseError e s).err = true := rfl
@[simp] theorem raiseError_ovr (e : Raise) (s : State) : (raiseError e s).ovr = s.ovr := rfl
@[simp] theorem raiseError_errCode (e : Raise) (s : State) : (raiseError e s).errCode = e.code := rfl
@[simp] theorem raiseError_errInfo (e : Raise) (s : State) : (raiseError e s).errInfo = toWord e.info := rfl
@[simp] theorem raiseError_staged (e : Raise) (s : State) : (raiseError e s).staged = s.staged := rfl
@[simp] theorem raiseError_msg (e : Raise) (s : State) : (raiseError e s).msg = s.msg := rfl
@[simp] theorem raiseError_cw (e : Raise) (s : State) : (raiseError e s).cw = s.cw := rfl
@[simp] theorem raiseError_opa (e : Raise) (s : State) : (raiseError e s).opa = s.opa := rfl
@[simp] theorem raiseError_opb (e : Raise) (s : State) : (raiseError e s).opb = s.opb := rfl
@[simp] theorem raiseError_reslo (e : Raise) (s : State) : (raiseError e s).reslo = s.reslo := rfl
@[simp] theorem raiseError_reshi (e : Raise) (s : State) : (raiseError e s).reshi = s.reshi := rfl
@[simp] theorem raiseError_code (e : Raise) (s : State) : (raiseError e s).code = s.code := rfl
@[simp] theorem raiseError_diag (e : Raise) (s : State) : (raiseError e s).diag = s.diag := rfl
@[simp] theorem raiseError_host (e : Raise) (s : State) : (raiseError e s).host = s.host := rfl
@[simp] theorem raiseError_draws (e : Raise) (s : State) : (raiseError e s).draws = s.draws := rfl

@[simp] theorem softReset_mmax (s : State) : (softReset s).mmax = s.mmax := rfl
@[simp] theorem softReset_phase (s : State) : (softReset s).phase = .idle := rfl
@[simp] theorem softReset_lastCmd (s : State) : (softReset s).lastCmd = 0 := rfl
@[simp] theorem softReset_irqEn (s : State) : (softReset s).irqEn = false := rfl
@[simp] theorem softReset_done (s : State) : (softReset s).done = false := rfl
@[simp] theorem softReset_err (s : State) : (softReset s).err = false := rfl
@[simp] theorem softReset_ovr (s : State) : (softReset s).ovr = false := rfl
@[simp] theorem softReset_errCode (s : State) : (softReset s).errCode = .noError := rfl
@[simp] theorem softReset_errInfo (s : State) : (softReset s).errInfo = 0 := rfl
@[simp] theorem softReset_staged (s : State) : (softReset s).staged = Staging.reset := rfl
@[simp] theorem softReset_msg (s : State) : (softReset s).msg = 0 := rfl
@[simp] theorem softReset_cw (s : State) : (softReset s).cw = 0 := rfl
@[simp] theorem softReset_opa (s : State) : (softReset s).opa = 0 := rfl
@[simp] theorem softReset_opb (s : State) : (softReset s).opb = 0 := rfl
@[simp] theorem softReset_reslo (s : State) : (softReset s).reslo = 0 := rfl
@[simp] theorem softReset_reshi (s : State) : (softReset s).reshi = 0 := rfl
@[simp] theorem softReset_code (s : State) : (softReset s).code = none := rfl
@[simp] theorem softReset_diag (s : State) : (softReset s).diag = Diagnostics.reset := rfl
@[simp] theorem softReset_host (s : State) : (softReset s).host = s.host := rfl
@[simp] theorem softReset_draws (s : State) : (softReset s).draws = s.draws := rfl

@[simp] theorem setOvr_mmax (s : State) : (setOvr s).mmax = s.mmax := rfl
@[simp] theorem setOvr_phase (s : State) : (setOvr s).phase = s.phase := rfl
@[simp] theorem setOvr_lastCmd (s : State) : (setOvr s).lastCmd = s.lastCmd := rfl
@[simp] theorem setOvr_irqEn (s : State) : (setOvr s).irqEn = s.irqEn := rfl
@[simp] theorem setOvr_done (s : State) : (setOvr s).done = s.done := rfl
@[simp] theorem setOvr_err (s : State) : (setOvr s).err = s.err := rfl
@[simp] theorem setOvr_ovr (s : State) : (setOvr s).ovr = true := rfl
@[simp] theorem setOvr_errCode (s : State) : (setOvr s).errCode = s.errCode := rfl
@[simp] theorem setOvr_errInfo (s : State) : (setOvr s).errInfo = s.errInfo := rfl
@[simp] theorem setOvr_staged (s : State) : (setOvr s).staged = s.staged := rfl
@[simp] theorem setOvr_msg (s : State) : (setOvr s).msg = s.msg := rfl
@[simp] theorem setOvr_cw (s : State) : (setOvr s).cw = s.cw := rfl
@[simp] theorem setOvr_opa (s : State) : (setOvr s).opa = s.opa := rfl
@[simp] theorem setOvr_opb (s : State) : (setOvr s).opb = s.opb := rfl
@[simp] theorem setOvr_reslo (s : State) : (setOvr s).reslo = s.reslo := rfl
@[simp] theorem setOvr_reshi (s : State) : (setOvr s).reshi = s.reshi := rfl
@[simp] theorem setOvr_code (s : State) : (setOvr s).code = s.code := rfl
@[simp] theorem setOvr_diag (s : State) : (setOvr s).diag = s.diag := rfl
@[simp] theorem setOvr_host (s : State) : (setOvr s).host = s.host := rfl
@[simp] theorem setOvr_draws (s : State) : (setOvr s).draws = s.draws := rfl

@[simp] theorem writeStatus_mmax (v : Word) (s : State) : (writeStatus v s).mmax = s.mmax := rfl
@[simp] theorem writeStatus_phase (v : Word) (s : State) : (writeStatus v s).phase = s.phase := rfl
@[simp] theorem writeStatus_lastCmd (v : Word) (s : State) : (writeStatus v s).lastCmd = s.lastCmd := rfl
@[simp] theorem writeStatus_irqEn (v : Word) (s : State) : (writeStatus v s).irqEn = s.irqEn := rfl
@[simp] theorem writeStatus_done (v : Word) (s : State) : (writeStatus v s).done = (s.done && !(v.getLsbD 1)) := rfl
@[simp] theorem writeStatus_err (v : Word) (s : State) : (writeStatus v s).err = (s.err && !(v.getLsbD 2)) := rfl
@[simp] theorem writeStatus_ovr (v : Word) (s : State) : (writeStatus v s).ovr = (s.ovr && !(v.getLsbD 3)) := rfl
@[simp] theorem writeStatus_errCode (v : Word) (s : State) : (writeStatus v s).errCode = s.errCode := rfl
@[simp] theorem writeStatus_errInfo (v : Word) (s : State) : (writeStatus v s).errInfo = s.errInfo := rfl
@[simp] theorem writeStatus_staged (v : Word) (s : State) : (writeStatus v s).staged = s.staged := rfl
@[simp] theorem writeStatus_msg (v : Word) (s : State) : (writeStatus v s).msg = s.msg := rfl
@[simp] theorem writeStatus_cw (v : Word) (s : State) : (writeStatus v s).cw = s.cw := rfl
@[simp] theorem writeStatus_opa (v : Word) (s : State) : (writeStatus v s).opa = s.opa := rfl
@[simp] theorem writeStatus_opb (v : Word) (s : State) : (writeStatus v s).opb = s.opb := rfl
@[simp] theorem writeStatus_reslo (v : Word) (s : State) : (writeStatus v s).reslo = s.reslo := rfl
@[simp] theorem writeStatus_reshi (v : Word) (s : State) : (writeStatus v s).reshi = s.reshi := rfl
@[simp] theorem writeStatus_code (v : Word) (s : State) : (writeStatus v s).code = s.code := rfl
@[simp] theorem writeStatus_diag (v : Word) (s : State) : (writeStatus v s).diag = s.diag := rfl
@[simp] theorem writeStatus_host (v : Word) (s : State) : (writeStatus v s).host = s.host := rfl
@[simp] theorem writeStatus_draws (v : Word) (s : State) : (writeStatus v s).draws = s.draws := rfl

@[simp] theorem setResult_mmax (lo hi : Nat) (s : State) : (setResult lo hi s).mmax = s.mmax := rfl
@[simp] theorem setResult_phase (lo hi : Nat) (s : State) : (setResult lo hi s).phase = s.phase := rfl
@[simp] theorem setResult_lastCmd (lo hi : Nat) (s : State) : (setResult lo hi s).lastCmd = s.lastCmd := rfl
@[simp] theorem setResult_irqEn (lo hi : Nat) (s : State) : (setResult lo hi s).irqEn = s.irqEn := rfl
@[simp] theorem setResult_done (lo hi : Nat) (s : State) : (setResult lo hi s).done = s.done := rfl
@[simp] theorem setResult_err (lo hi : Nat) (s : State) : (setResult lo hi s).err = s.err := rfl
@[simp] theorem setResult_ovr (lo hi : Nat) (s : State) : (setResult lo hi s).ovr = s.ovr := rfl
@[simp] theorem setResult_errCode (lo hi : Nat) (s : State) : (setResult lo hi s).errCode = s.errCode := rfl
@[simp] theorem setResult_errInfo (lo hi : Nat) (s : State) : (setResult lo hi s).errInfo = s.errInfo := rfl
@[simp] theorem setResult_staged (lo hi : Nat) (s : State) : (setResult lo hi s).staged = s.staged := rfl
@[simp] theorem setResult_msg (lo hi : Nat) (s : State) : (setResult lo hi s).msg = s.msg := rfl
@[simp] theorem setResult_cw (lo hi : Nat) (s : State) : (setResult lo hi s).cw = s.cw := rfl
@[simp] theorem setResult_opa (lo hi : Nat) (s : State) : (setResult lo hi s).opa = s.opa := rfl
@[simp] theorem setResult_opb (lo hi : Nat) (s : State) : (setResult lo hi s).opb = s.opb := rfl
@[simp] theorem setResult_reslo (lo hi : Nat) (s : State) : (setResult lo hi s).reslo = toWord lo := rfl
@[simp] theorem setResult_reshi (lo hi : Nat) (s : State) : (setResult lo hi s).reshi = toWord hi := rfl
@[simp] theorem setResult_code (lo hi : Nat) (s : State) : (setResult lo hi s).code = s.code := rfl
@[simp] theorem setResult_diag (lo hi : Nat) (s : State) : (setResult lo hi s).diag = s.diag := rfl
@[simp] theorem setResult_host (lo hi : Nat) (s : State) : (setResult lo hi s).host = s.host := rfl
@[simp] theorem setResult_draws (lo hi : Nat) (s : State) : (setResult lo hi s).draws = s.draws := rfl

@[simp] theorem setPair_mmax (p : Nat × Nat) (s : State) : (setPair p s).mmax = s.mmax := rfl
@[simp] theorem setPair_phase (p : Nat × Nat) (s : State) : (setPair p s).phase = s.phase := rfl
@[simp] theorem setPair_lastCmd (p : Nat × Nat) (s : State) : (setPair p s).lastCmd = s.lastCmd := rfl
@[simp] theorem setPair_irqEn (p : Nat × Nat) (s : State) : (setPair p s).irqEn = s.irqEn := rfl
@[simp] theorem setPair_done (p : Nat × Nat) (s : State) : (setPair p s).done = s.done := rfl
@[simp] theorem setPair_err (p : Nat × Nat) (s : State) : (setPair p s).err = s.err := rfl
@[simp] theorem setPair_ovr (p : Nat × Nat) (s : State) : (setPair p s).ovr = s.ovr := rfl
@[simp] theorem setPair_errCode (p : Nat × Nat) (s : State) : (setPair p s).errCode = s.errCode := rfl
@[simp] theorem setPair_errInfo (p : Nat × Nat) (s : State) : (setPair p s).errInfo = s.errInfo := rfl
@[simp] theorem setPair_staged (p : Nat × Nat) (s : State) : (setPair p s).staged = s.staged := rfl
@[simp] theorem setPair_msg (p : Nat × Nat) (s : State) : (setPair p s).msg = s.msg := rfl
@[simp] theorem setPair_cw (p : Nat × Nat) (s : State) : (setPair p s).cw = s.cw := rfl
@[simp] theorem setPair_opa (p : Nat × Nat) (s : State) : (setPair p s).opa = s.opa := rfl
@[simp] theorem setPair_opb (p : Nat × Nat) (s : State) : (setPair p s).opb = s.opb := rfl
@[simp] theorem setPair_reslo (p : Nat × Nat) (s : State) : (setPair p s).reslo = toWord p.1 := rfl
@[simp] theorem setPair_reshi (p : Nat × Nat) (s : State) : (setPair p s).reshi = toWord p.2 := rfl
@[simp] theorem setPair_code (p : Nat × Nat) (s : State) : (setPair p s).code = s.code := rfl
@[simp] theorem setPair_diag (p : Nat × Nat) (s : State) : (setPair p s).diag = s.diag := rfl
@[simp] theorem setPair_host (p : Nat × Nat) (s : State) : (setPair p s).host = s.host := rfl
@[simp] theorem setPair_draws (p : Nat × Nat) (s : State) : (setPair p s).draws = s.draws := rfl

@[simp] theorem installCode_mmax (c : Code) (s : State) : (installCode c s).mmax = s.mmax := rfl
@[simp] theorem installCode_phase (c : Code) (s : State) : (installCode c s).phase = s.phase := rfl
@[simp] theorem installCode_lastCmd (c : Code) (s : State) : (installCode c s).lastCmd = s.lastCmd := rfl
@[simp] theorem installCode_irqEn (c : Code) (s : State) : (installCode c s).irqEn = s.irqEn := rfl
@[simp] theorem installCode_done (c : Code) (s : State) : (installCode c s).done = s.done := rfl
@[simp] theorem installCode_err (c : Code) (s : State) : (installCode c s).err = s.err := rfl
@[simp] theorem installCode_ovr (c : Code) (s : State) : (installCode c s).ovr = s.ovr := rfl
@[simp] theorem installCode_errCode (c : Code) (s : State) : (installCode c s).errCode = s.errCode := rfl
@[simp] theorem installCode_errInfo (c : Code) (s : State) : (installCode c s).errInfo = s.errInfo := rfl
@[simp] theorem installCode_staged (c : Code) (s : State) : (installCode c s).staged = s.staged := rfl
@[simp] theorem installCode_msg (c : Code) (s : State) : (installCode c s).msg = s.msg := rfl
@[simp] theorem installCode_cw (c : Code) (s : State) : (installCode c s).cw = s.cw := rfl
@[simp] theorem installCode_opa (c : Code) (s : State) : (installCode c s).opa = s.opa := rfl
@[simp] theorem installCode_opb (c : Code) (s : State) : (installCode c s).opb = s.opb := rfl
@[simp] theorem installCode_reslo (c : Code) (s : State) : (installCode c s).reslo = s.reslo := rfl
@[simp] theorem installCode_reshi (c : Code) (s : State) : (installCode c s).reshi = s.reshi := rfl
@[simp] theorem installCode_code (c : Code) (s : State) : (installCode c s).code = some c := rfl
@[simp] theorem installCode_diag (c : Code) (s : State) : (installCode c s).diag = s.diag := rfl
@[simp] theorem installCode_host (c : Code) (s : State) : (installCode c s).host = s.host := rfl
@[simp] theorem installCode_draws (c : Code) (s : State) : (installCode c s).draws = s.draws := rfl

@[simp] theorem setGenerated_mmax (r g : Poly) (s : State) : (setGenerated r g s).mmax = s.mmax := rfl
@[simp] theorem setGenerated_phase (r g : Poly) (s : State) : (setGenerated r g s).phase = s.phase := rfl
@[simp] theorem setGenerated_lastCmd (r g : Poly) (s : State) : (setGenerated r g s).lastCmd = s.lastCmd := rfl
@[simp] theorem setGenerated_irqEn (r g : Poly) (s : State) : (setGenerated r g s).irqEn = s.irqEn := rfl
@[simp] theorem setGenerated_done (r g : Poly) (s : State) : (setGenerated r g s).done = s.done := rfl
@[simp] theorem setGenerated_err (r g : Poly) (s : State) : (setGenerated r g s).err = s.err := rfl
@[simp] theorem setGenerated_ovr (r g : Poly) (s : State) : (setGenerated r g s).ovr = s.ovr := rfl
@[simp] theorem setGenerated_errCode (r g : Poly) (s : State) : (setGenerated r g s).errCode = s.errCode := rfl
@[simp] theorem setGenerated_errInfo (r g : Poly) (s : State) : (setGenerated r g s).errInfo = s.errInfo := rfl
@[simp] theorem setGenerated_staged (r g : Poly) (s : State) :
    (setGenerated r g s).staged = ⟨s.staged.n, s.staged.b, s.staged.d, toWord r, toWindow g⟩ := rfl
@[simp] theorem setGenerated_msg (r g : Poly) (s : State) : (setGenerated r g s).msg = s.msg := rfl
@[simp] theorem setGenerated_cw (r g : Poly) (s : State) : (setGenerated r g s).cw = s.cw := rfl
@[simp] theorem setGenerated_opa (r g : Poly) (s : State) : (setGenerated r g s).opa = s.opa := rfl
@[simp] theorem setGenerated_opb (r g : Poly) (s : State) : (setGenerated r g s).opb = s.opb := rfl
@[simp] theorem setGenerated_reslo (r g : Poly) (s : State) : (setGenerated r g s).reslo = s.reslo := rfl
@[simp] theorem setGenerated_reshi (r g : Poly) (s : State) : (setGenerated r g s).reshi = s.reshi := rfl
@[simp] theorem setGenerated_code (r g : Poly) (s : State) : (setGenerated r g s).code = s.code := rfl
@[simp] theorem setGenerated_diag (r g : Poly) (s : State) : (setGenerated r g s).diag = s.diag := rfl
@[simp] theorem setGenerated_host (r g : Poly) (s : State) : (setGenerated r g s).host = s.host := rfl
@[simp] theorem setGenerated_draws (r g : Poly) (s : State) : (setGenerated r g s).draws = s.draws := rfl

@[simp] theorem installGenerated_mmax (c : Code) (s : State) : (installGenerated c s).mmax = s.mmax := rfl
@[simp] theorem installGenerated_phase (c : Code) (s : State) : (installGenerated c s).phase = s.phase := rfl
@[simp] theorem installGenerated_lastCmd (c : Code) (s : State) : (installGenerated c s).lastCmd = s.lastCmd := rfl
@[simp] theorem installGenerated_irqEn (c : Code) (s : State) : (installGenerated c s).irqEn = s.irqEn := rfl
@[simp] theorem installGenerated_done (c : Code) (s : State) : (installGenerated c s).done = s.done := rfl
@[simp] theorem installGenerated_err (c : Code) (s : State) : (installGenerated c s).err = s.err := rfl
@[simp] theorem installGenerated_ovr (c : Code) (s : State) : (installGenerated c s).ovr = s.ovr := rfl
@[simp] theorem installGenerated_errCode (c : Code) (s : State) : (installGenerated c s).errCode = s.errCode := rfl
@[simp] theorem installGenerated_errInfo (c : Code) (s : State) : (installGenerated c s).errInfo = s.errInfo := rfl
@[simp] theorem installGenerated_staged (c : Code) (s : State) :
    (installGenerated c s).staged = ⟨s.staged.n, s.staged.b, s.staged.d, toWord c.r, toWindow c.g⟩ := rfl
@[simp] theorem installGenerated_msg (c : Code) (s : State) : (installGenerated c s).msg = s.msg := rfl
@[simp] theorem installGenerated_cw (c : Code) (s : State) : (installGenerated c s).cw = s.cw := rfl
@[simp] theorem installGenerated_opa (c : Code) (s : State) : (installGenerated c s).opa = s.opa := rfl
@[simp] theorem installGenerated_opb (c : Code) (s : State) : (installGenerated c s).opb = s.opb := rfl
@[simp] theorem installGenerated_reslo (c : Code) (s : State) : (installGenerated c s).reslo = s.reslo := rfl
@[simp] theorem installGenerated_reshi (c : Code) (s : State) : (installGenerated c s).reshi = s.reshi := rfl
@[simp] theorem installGenerated_code (c : Code) (s : State) : (installGenerated c s).code = some c := rfl
@[simp] theorem installGenerated_diag (c : Code) (s : State) : (installGenerated c s).diag = s.diag := rfl
@[simp] theorem installGenerated_host (c : Code) (s : State) : (installGenerated c s).host = s.host := rfl
@[simp] theorem installGenerated_draws (c : Code) (s : State) : (installGenerated c s).draws = s.draws := rfl

@[simp] theorem setRecord_mmax (c : Code) (s : State) : (setRecord c s).mmax = s.mmax := rfl
@[simp] theorem setRecord_phase (c : Code) (s : State) : (setRecord c s).phase = s.phase := rfl
@[simp] theorem setRecord_lastCmd (c : Code) (s : State) : (setRecord c s).lastCmd = s.lastCmd := rfl
@[simp] theorem setRecord_irqEn (c : Code) (s : State) : (setRecord c s).irqEn = s.irqEn := rfl
@[simp] theorem setRecord_done (c : Code) (s : State) : (setRecord c s).done = s.done := rfl
@[simp] theorem setRecord_err (c : Code) (s : State) : (setRecord c s).err = s.err := rfl
@[simp] theorem setRecord_ovr (c : Code) (s : State) : (setRecord c s).ovr = s.ovr := rfl
@[simp] theorem setRecord_errCode (c : Code) (s : State) : (setRecord c s).errCode = s.errCode := rfl
@[simp] theorem setRecord_errInfo (c : Code) (s : State) : (setRecord c s).errInfo = s.errInfo := rfl
@[simp] theorem setRecord_staged (c : Code) (s : State) :
    (setRecord c s).staged = ⟨toWord c.n, toWord c.b, toWord c.d, toWord c.r, toWindow c.g⟩ := rfl
@[simp] theorem setRecord_msg (c : Code) (s : State) : (setRecord c s).msg = s.msg := rfl
@[simp] theorem setRecord_cw (c : Code) (s : State) : (setRecord c s).cw = s.cw := rfl
@[simp] theorem setRecord_opa (c : Code) (s : State) : (setRecord c s).opa = s.opa := rfl
@[simp] theorem setRecord_opb (c : Code) (s : State) : (setRecord c s).opb = s.opb := rfl
@[simp] theorem setRecord_reslo (c : Code) (s : State) : (setRecord c s).reslo = s.reslo := rfl
@[simp] theorem setRecord_reshi (c : Code) (s : State) : (setRecord c s).reshi = s.reshi := rfl
@[simp] theorem setRecord_code (c : Code) (s : State) : (setRecord c s).code = s.code := rfl
@[simp] theorem setRecord_diag (c : Code) (s : State) : (setRecord c s).diag = s.diag := rfl
@[simp] theorem setRecord_host (c : Code) (s : State) : (setRecord c s).host = s.host := rfl
@[simp] theorem setRecord_draws (c : Code) (s : State) : (setRecord c s).draws = s.draws := rfl

@[simp] theorem setCw_mmax (p : Poly) (s : State) : (setCw p s).mmax = s.mmax := rfl
@[simp] theorem setCw_phase (p : Poly) (s : State) : (setCw p s).phase = s.phase := rfl
@[simp] theorem setCw_lastCmd (p : Poly) (s : State) : (setCw p s).lastCmd = s.lastCmd := rfl
@[simp] theorem setCw_irqEn (p : Poly) (s : State) : (setCw p s).irqEn = s.irqEn := rfl
@[simp] theorem setCw_done (p : Poly) (s : State) : (setCw p s).done = s.done := rfl
@[simp] theorem setCw_err (p : Poly) (s : State) : (setCw p s).err = s.err := rfl
@[simp] theorem setCw_ovr (p : Poly) (s : State) : (setCw p s).ovr = s.ovr := rfl
@[simp] theorem setCw_errCode (p : Poly) (s : State) : (setCw p s).errCode = s.errCode := rfl
@[simp] theorem setCw_errInfo (p : Poly) (s : State) : (setCw p s).errInfo = s.errInfo := rfl
@[simp] theorem setCw_staged (p : Poly) (s : State) : (setCw p s).staged = s.staged := rfl
@[simp] theorem setCw_msg (p : Poly) (s : State) : (setCw p s).msg = s.msg := rfl
@[simp] theorem setCw_cw (p : Poly) (s : State) : (setCw p s).cw = toWindow p := rfl
@[simp] theorem setCw_opa (p : Poly) (s : State) : (setCw p s).opa = s.opa := rfl
@[simp] theorem setCw_opb (p : Poly) (s : State) : (setCw p s).opb = s.opb := rfl
@[simp] theorem setCw_reslo (p : Poly) (s : State) : (setCw p s).reslo = s.reslo := rfl
@[simp] theorem setCw_reshi (p : Poly) (s : State) : (setCw p s).reshi = s.reshi := rfl
@[simp] theorem setCw_code (p : Poly) (s : State) : (setCw p s).code = s.code := rfl
@[simp] theorem setCw_diag (p : Poly) (s : State) : (setCw p s).diag = s.diag := rfl
@[simp] theorem setCw_host (p : Poly) (s : State) : (setCw p s).host = s.host := rfl
@[simp] theorem setCw_draws (p : Poly) (s : State) : (setCw p s).draws = s.draws := rfl

@[simp] theorem setDecoded_mmax (msg : Poly) (dg : Diagnostics) (s : State) :
    (setDecoded msg dg s).mmax = s.mmax := rfl
@[simp] theorem setDecoded_phase (msg : Poly) (dg : Diagnostics) (s : State) :
    (setDecoded msg dg s).phase = s.phase := rfl
@[simp] theorem setDecoded_lastCmd (msg : Poly) (dg : Diagnostics) (s : State) :
    (setDecoded msg dg s).lastCmd = s.lastCmd := rfl
@[simp] theorem setDecoded_irqEn (msg : Poly) (dg : Diagnostics) (s : State) :
    (setDecoded msg dg s).irqEn = s.irqEn := rfl
@[simp] theorem setDecoded_done (msg : Poly) (dg : Diagnostics) (s : State) :
    (setDecoded msg dg s).done = s.done := rfl
@[simp] theorem setDecoded_err (msg : Poly) (dg : Diagnostics) (s : State) : (setDecoded msg dg s).err = s.err := rfl
@[simp] theorem setDecoded_ovr (msg : Poly) (dg : Diagnostics) (s : State) : (setDecoded msg dg s).ovr = s.ovr := rfl
@[simp] theorem setDecoded_errCode (msg : Poly) (dg : Diagnostics) (s : State) :
    (setDecoded msg dg s).errCode = s.errCode := rfl
@[simp] theorem setDecoded_errInfo (msg : Poly) (dg : Diagnostics) (s : State) :
    (setDecoded msg dg s).errInfo = s.errInfo := rfl
@[simp] theorem setDecoded_staged (msg : Poly) (dg : Diagnostics) (s : State) :
    (setDecoded msg dg s).staged = s.staged := rfl
@[simp] theorem setDecoded_msg (msg : Poly) (dg : Diagnostics) (s : State) :
    (setDecoded msg dg s).msg = toWindow msg := rfl
@[simp] theorem setDecoded_cw (msg : Poly) (dg : Diagnostics) (s : State) : (setDecoded msg dg s).cw = s.cw := rfl
@[simp] theorem setDecoded_opa (msg : Poly) (dg : Diagnostics) (s : State) : (setDecoded msg dg s).opa = s.opa := rfl
@[simp] theorem setDecoded_opb (msg : Poly) (dg : Diagnostics) (s : State) : (setDecoded msg dg s).opb = s.opb := rfl
@[simp] theorem setDecoded_reslo (msg : Poly) (dg : Diagnostics) (s : State) :
    (setDecoded msg dg s).reslo = s.reslo := rfl
@[simp] theorem setDecoded_reshi (msg : Poly) (dg : Diagnostics) (s : State) :
    (setDecoded msg dg s).reshi = s.reshi := rfl
@[simp] theorem setDecoded_code (msg : Poly) (dg : Diagnostics) (s : State) :
    (setDecoded msg dg s).code = s.code := rfl
@[simp] theorem setDecoded_diag (msg : Poly) (dg : Diagnostics) (s : State) : (setDecoded msg dg s).diag = dg := rfl
@[simp] theorem setDecoded_host (msg : Poly) (dg : Diagnostics) (s : State) :
    (setDecoded msg dg s).host = s.host := rfl
@[simp] theorem setDecoded_draws (msg : Poly) (dg : Diagnostics) (s : State) :
    (setDecoded msg dg s).draws = s.draws := rfl

@[simp] theorem installDecoded_mmax (p : Poly × Diagnostics) (s : State) : (installDecoded p s).mmax = s.mmax := rfl
@[simp] theorem installDecoded_phase (p : Poly × Diagnostics) (s : State) :
    (installDecoded p s).phase = s.phase := rfl
@[simp] theorem installDecoded_lastCmd (p : Poly × Diagnostics) (s : State) :
    (installDecoded p s).lastCmd = s.lastCmd := rfl
@[simp] theorem installDecoded_irqEn (p : Poly × Diagnostics) (s : State) :
    (installDecoded p s).irqEn = s.irqEn := rfl
@[simp] theorem installDecoded_done (p : Poly × Diagnostics) (s : State) : (installDecoded p s).done = s.done := rfl
@[simp] theorem installDecoded_err (p : Poly × Diagnostics) (s : State) : (installDecoded p s).err = s.err := rfl
@[simp] theorem installDecoded_ovr (p : Poly × Diagnostics) (s : State) : (installDecoded p s).ovr = s.ovr := rfl
@[simp] theorem installDecoded_errCode (p : Poly × Diagnostics) (s : State) :
    (installDecoded p s).errCode = s.errCode := rfl
@[simp] theorem installDecoded_errInfo (p : Poly × Diagnostics) (s : State) :
    (installDecoded p s).errInfo = s.errInfo := rfl
@[simp] theorem installDecoded_staged (p : Poly × Diagnostics) (s : State) :
    (installDecoded p s).staged = s.staged := rfl
@[simp] theorem installDecoded_msg (p : Poly × Diagnostics) (s : State) :
    (installDecoded p s).msg = toWindow p.1 := rfl
@[simp] theorem installDecoded_cw (p : Poly × Diagnostics) (s : State) : (installDecoded p s).cw = s.cw := rfl
@[simp] theorem installDecoded_opa (p : Poly × Diagnostics) (s : State) : (installDecoded p s).opa = s.opa := rfl
@[simp] theorem installDecoded_opb (p : Poly × Diagnostics) (s : State) : (installDecoded p s).opb = s.opb := rfl
@[simp] theorem installDecoded_reslo (p : Poly × Diagnostics) (s : State) :
    (installDecoded p s).reslo = s.reslo := rfl
@[simp] theorem installDecoded_reshi (p : Poly × Diagnostics) (s : State) :
    (installDecoded p s).reshi = s.reshi := rfl
@[simp] theorem installDecoded_code (p : Poly × Diagnostics) (s : State) : (installDecoded p s).code = s.code := rfl
@[simp] theorem installDecoded_diag (p : Poly × Diagnostics) (s : State) : (installDecoded p s).diag = p.2 := rfl
@[simp] theorem installDecoded_host (p : Poly × Diagnostics) (s : State) : (installDecoded p s).host = s.host := rfl
@[simp] theorem installDecoded_draws (p : Poly × Diagnostics) (s : State) :
    (installDecoded p s).draws = s.draws := rfl

@[simp] theorem setProgram_mmax (ops : List HostOp) (s : State) : (setProgram ops s).mmax = s.mmax := rfl
@[simp] theorem setProgram_phase (ops : List HostOp) (s : State) : (setProgram ops s).phase = s.phase := rfl
@[simp] theorem setProgram_lastCmd (ops : List HostOp) (s : State) : (setProgram ops s).lastCmd = s.lastCmd := rfl
@[simp] theorem setProgram_irqEn (ops : List HostOp) (s : State) : (setProgram ops s).irqEn = s.irqEn := rfl
@[simp] theorem setProgram_done (ops : List HostOp) (s : State) : (setProgram ops s).done = s.done := rfl
@[simp] theorem setProgram_err (ops : List HostOp) (s : State) : (setProgram ops s).err = s.err := rfl
@[simp] theorem setProgram_ovr (ops : List HostOp) (s : State) : (setProgram ops s).ovr = s.ovr := rfl
@[simp] theorem setProgram_errCode (ops : List HostOp) (s : State) : (setProgram ops s).errCode = s.errCode := rfl
@[simp] theorem setProgram_errInfo (ops : List HostOp) (s : State) : (setProgram ops s).errInfo = s.errInfo := rfl
@[simp] theorem setProgram_staged (ops : List HostOp) (s : State) : (setProgram ops s).staged = s.staged := rfl
@[simp] theorem setProgram_msg (ops : List HostOp) (s : State) : (setProgram ops s).msg = s.msg := rfl
@[simp] theorem setProgram_cw (ops : List HostOp) (s : State) : (setProgram ops s).cw = s.cw := rfl
@[simp] theorem setProgram_opa (ops : List HostOp) (s : State) : (setProgram ops s).opa = s.opa := rfl
@[simp] theorem setProgram_opb (ops : List HostOp) (s : State) : (setProgram ops s).opb = s.opb := rfl
@[simp] theorem setProgram_reslo (ops : List HostOp) (s : State) : (setProgram ops s).reslo = s.reslo := rfl
@[simp] theorem setProgram_reshi (ops : List HostOp) (s : State) : (setProgram ops s).reshi = s.reshi := rfl
@[simp] theorem setProgram_code (ops : List HostOp) (s : State) : (setProgram ops s).code = s.code := rfl
@[simp] theorem setProgram_diag (ops : List HostOp) (s : State) : (setProgram ops s).diag = s.diag := rfl
@[simp] theorem setProgram_draws (ops : List HostOp) (s : State) : (setProgram ops s).draws = s.draws := rfl
@[simp] theorem setProgram_turns (ops : List HostOp) (s : State) : (setProgram ops s).host.turns = s.host.turns := rfl
@[simp] theorem setProgram_readData (ops : List HostOp) (s : State) : (setProgram ops s).host.readData = s.host.readData := rfl
@[simp] theorem setProgram_assertsHold (ops : List HostOp) (s : State) : (setProgram ops s).host.assertsHold = s.host.assertsHold := rfl
@[simp] theorem setProgram_program (ops : List HostOp) (s : State) : (setProgram ops s).host.program = ops := rfl

@[simp] theorem recordAssert_mmax (v : Word) (s : State) : (recordAssert v s).mmax = s.mmax := rfl
@[simp] theorem recordAssert_phase (v : Word) (s : State) : (recordAssert v s).phase = s.phase := rfl
@[simp] theorem recordAssert_lastCmd (v : Word) (s : State) : (recordAssert v s).lastCmd = s.lastCmd := rfl
@[simp] theorem recordAssert_irqEn (v : Word) (s : State) : (recordAssert v s).irqEn = s.irqEn := rfl
@[simp] theorem recordAssert_done (v : Word) (s : State) : (recordAssert v s).done = s.done := rfl
@[simp] theorem recordAssert_err (v : Word) (s : State) : (recordAssert v s).err = s.err := rfl
@[simp] theorem recordAssert_ovr (v : Word) (s : State) : (recordAssert v s).ovr = s.ovr := rfl
@[simp] theorem recordAssert_errCode (v : Word) (s : State) : (recordAssert v s).errCode = s.errCode := rfl
@[simp] theorem recordAssert_errInfo (v : Word) (s : State) : (recordAssert v s).errInfo = s.errInfo := rfl
@[simp] theorem recordAssert_staged (v : Word) (s : State) : (recordAssert v s).staged = s.staged := rfl
@[simp] theorem recordAssert_msg (v : Word) (s : State) : (recordAssert v s).msg = s.msg := rfl
@[simp] theorem recordAssert_cw (v : Word) (s : State) : (recordAssert v s).cw = s.cw := rfl
@[simp] theorem recordAssert_opa (v : Word) (s : State) : (recordAssert v s).opa = s.opa := rfl
@[simp] theorem recordAssert_opb (v : Word) (s : State) : (recordAssert v s).opb = s.opb := rfl
@[simp] theorem recordAssert_reslo (v : Word) (s : State) : (recordAssert v s).reslo = s.reslo := rfl
@[simp] theorem recordAssert_reshi (v : Word) (s : State) : (recordAssert v s).reshi = s.reshi := rfl
@[simp] theorem recordAssert_code (v : Word) (s : State) : (recordAssert v s).code = s.code := rfl
@[simp] theorem recordAssert_diag (v : Word) (s : State) : (recordAssert v s).diag = s.diag := rfl
@[simp] theorem recordAssert_draws (v : Word) (s : State) : (recordAssert v s).draws = s.draws := rfl
@[simp] theorem recordAssert_turns (v : Word) (s : State) : (recordAssert v s).host.turns = s.host.turns := rfl
@[simp] theorem recordAssert_readData (v : Word) (s : State) : (recordAssert v s).host.readData = s.host.readData := rfl
@[simp] theorem recordAssert_program (v : Word) (s : State) : (recordAssert v s).host.program = s.host.program := rfl

@[simp] theorem takeTurn_mmax (s : State) : (takeTurn s).mmax = s.mmax := by unfold takeTurn; split <;> rfl
@[simp] theorem takeTurn_phase (s : State) : (takeTurn s).phase = s.phase := by unfold takeTurn; split <;> rfl
@[simp] theorem takeTurn_lastCmd (s : State) : (takeTurn s).lastCmd = s.lastCmd := by unfold takeTurn; split <;> rfl
@[simp] theorem takeTurn_irqEn (s : State) : (takeTurn s).irqEn = s.irqEn := by unfold takeTurn; split <;> rfl
@[simp] theorem takeTurn_done (s : State) : (takeTurn s).done = s.done := by unfold takeTurn; split <;> rfl
@[simp] theorem takeTurn_err (s : State) : (takeTurn s).err = s.err := by unfold takeTurn; split <;> rfl
@[simp] theorem takeTurn_ovr (s : State) : (takeTurn s).ovr = s.ovr := by unfold takeTurn; split <;> rfl
@[simp] theorem takeTurn_errCode (s : State) : (takeTurn s).errCode = s.errCode := by unfold takeTurn; split <;> rfl
@[simp] theorem takeTurn_errInfo (s : State) : (takeTurn s).errInfo = s.errInfo := by unfold takeTurn; split <;> rfl
@[simp] theorem takeTurn_staged (s : State) : (takeTurn s).staged = s.staged := by unfold takeTurn; split <;> rfl
@[simp] theorem takeTurn_msg (s : State) : (takeTurn s).msg = s.msg := by unfold takeTurn; split <;> rfl
@[simp] theorem takeTurn_cw (s : State) : (takeTurn s).cw = s.cw := by unfold takeTurn; split <;> rfl
@[simp] theorem takeTurn_opa (s : State) : (takeTurn s).opa = s.opa := by unfold takeTurn; split <;> rfl
@[simp] theorem takeTurn_opb (s : State) : (takeTurn s).opb = s.opb := by unfold takeTurn; split <;> rfl
@[simp] theorem takeTurn_reslo (s : State) : (takeTurn s).reslo = s.reslo := by unfold takeTurn; split <;> rfl
@[simp] theorem takeTurn_reshi (s : State) : (takeTurn s).reshi = s.reshi := by unfold takeTurn; split <;> rfl
@[simp] theorem takeTurn_code (s : State) : (takeTurn s).code = s.code := by unfold takeTurn; split <;> rfl
@[simp] theorem takeTurn_diag (s : State) : (takeTurn s).diag = s.diag := by unfold takeTurn; split <;> rfl
@[simp] theorem takeTurn_draws (s : State) : (takeTurn s).draws = s.draws := by unfold takeTurn; split <;> rfl
@[simp] theorem takeTurn_program (s : State) : (takeTurn s).host.program = s.host.program := by
  unfold takeTurn; split <;> rfl
@[simp] theorem takeTurn_readData (s : State) : (takeTurn s).host.readData = s.host.readData := by
  unfold takeTurn; split <;> rfl
@[simp] theorem takeTurn_assertsHold (s : State) : (takeTurn s).host.assertsHold = s.host.assertsHold := by
  unfold takeTurn; split <;> rfl

@[simp] theorem readLoc_mmax (l : Loc) (s : State) : (readLoc l s).mmax = s.mmax := by unfold readLoc; split <;> rfl
@[simp] theorem readLoc_phase (l : Loc) (s : State) : (readLoc l s).phase = s.phase := by unfold readLoc; split <;> rfl
@[simp] theorem readLoc_lastCmd (l : Loc) (s : State) : (readLoc l s).lastCmd = s.lastCmd := by unfold readLoc; split <;> rfl
@[simp] theorem readLoc_irqEn (l : Loc) (s : State) : (readLoc l s).irqEn = s.irqEn := by unfold readLoc; split <;> rfl
@[simp] theorem readLoc_done (l : Loc) (s : State) : (readLoc l s).done = s.done := by unfold readLoc; split <;> rfl
@[simp] theorem readLoc_err (l : Loc) (s : State) : (readLoc l s).err = s.err := by unfold readLoc; split <;> rfl
@[simp] theorem readLoc_ovr (l : Loc) (s : State) : (readLoc l s).ovr = s.ovr := by unfold readLoc; split <;> rfl
@[simp] theorem readLoc_errCode (l : Loc) (s : State) : (readLoc l s).errCode = s.errCode := by unfold readLoc; split <;> rfl
@[simp] theorem readLoc_errInfo (l : Loc) (s : State) : (readLoc l s).errInfo = s.errInfo := by unfold readLoc; split <;> rfl
@[simp] theorem readLoc_staged (l : Loc) (s : State) : (readLoc l s).staged = s.staged := by unfold readLoc; split <;> rfl
@[simp] theorem readLoc_msg (l : Loc) (s : State) : (readLoc l s).msg = s.msg := by unfold readLoc; split <;> rfl
@[simp] theorem readLoc_cw (l : Loc) (s : State) : (readLoc l s).cw = s.cw := by unfold readLoc; split <;> rfl
@[simp] theorem readLoc_opa (l : Loc) (s : State) : (readLoc l s).opa = s.opa := by unfold readLoc; split <;> rfl
@[simp] theorem readLoc_opb (l : Loc) (s : State) : (readLoc l s).opb = s.opb := by unfold readLoc; split <;> rfl
@[simp] theorem readLoc_reslo (l : Loc) (s : State) : (readLoc l s).reslo = s.reslo := by unfold readLoc; split <;> rfl
@[simp] theorem readLoc_reshi (l : Loc) (s : State) : (readLoc l s).reshi = s.reshi := by unfold readLoc; split <;> rfl
@[simp] theorem readLoc_code (l : Loc) (s : State) : (readLoc l s).code = s.code := by unfold readLoc; split <;> rfl
@[simp] theorem readLoc_diag (l : Loc) (s : State) : (readLoc l s).diag = s.diag := by unfold readLoc; split <;> rfl
@[simp] theorem readLoc_program (l : Loc) (s : State) : (readLoc l s).host.program = s.host.program := by
  unfold readLoc; split <;> rfl
@[simp] theorem readLoc_turns (l : Loc) (s : State) : (readLoc l s).host.turns = s.host.turns := by
  unfold readLoc; split <;> rfl
@[simp] theorem readLoc_assertsHold (l : Loc) (s : State) : (readLoc l s).host.assertsHold = s.host.assertsHold := by
  unfold readLoc; split <;> rfl

end Sys2Proof.Machine
end

