-- ==== Sys2Proof/Laws/Ops.lean ====
section
/-!
SUPPORT. Sys2Proof/Laws/Ops.lean: what the shared operations answer: the completion step `finish`, the meaning of every
command, the scheduler.
-/

namespace Sys2Proof.Machine

/-! ### The completion step -/

@[simp] theorem finish_ok {α : Type} (s : State) (a : α) (install : α → State → State) :
    finish s (.ok a) install = .next (complete (install a s)) := rfl

@[simp] theorem finish_error {α : Type} (s : State) (e : Raise) (install : α → State → State) :
    finish s (.error e) install = .next (raiseError e s) := rfl

/-- Everything a completion step can do: the result installed and completed, or the error raised. -/
theorem finish_next {α : Type} {s t : State} {res : Except Raise α} {install : α → State → State}
    (h : finish s res install = .next t) :
    (∃ a, res = .ok a ∧ t = complete (install a s)) ∨ ∃ e, res = .error e ∧ t = raiseError e s := by
  cases res with
  | ok a => exact .inl ⟨a, rfl, (Host.Outcome.next.inj h).symm⟩
  | error e => exact .inr ⟨e, rfl, (Host.Outcome.next.inj h).symm⟩

/-- A completion step always answers a next state. -/
theorem finish_answers {α : Type} (s : State) (res : Except Raise α) (install : α → State → State) :
    ∃ t, finish s res install = .next t := by
  cases res with
  | ok a => exact ⟨_, rfl⟩
  | error e => exact ⟨_, rfl⟩

@[simp] theorem needCode_some {s : State} {c : Code} (h : s.code = some c) : needCode s = .ok c := by
  rw [needCode, h]

@[simp] theorem needCode_none {s : State} (h : s.code = none) : needCode s = .error ⟨.noCode, 0⟩ := by
  rw [needCode, h]

theorem needCode_ok {s : State} {c : Code} : needCode s = .ok c ↔ s.code = some c := by
  cases h : s.code <;> simp [needCode, h]

/-! ### The meanings -/

/-- What a successful command has computed and written, before `complete()` (30_encoding R123). -/
def CommandEffect (i : Instr) (s u : State) : Prop :=
  match i with
  | .nop => u = s
  | .gen => ∃ c, generate s.mmax s.staged.n.toNat s.staged.b.toNat s.staged.d.toNat = .ok c ∧ u = installGenerated c s
  | .load => ∃ c, loadRecord s.mmax s.staged.n.toNat s.staged.b.toNat s.staged.d.toNat s.staged.r.toNat
      s.staged.g.toNat = .ok c ∧ u = installCode c s
  | .save => ∃ c, s.code = some c ∧ u = setRecord c s
  | .enc => ∃ c p, s.code = some c ∧ encodeMessage c (msgPoly s) = .ok p ∧ u = setCw p s
  | .dec => ∃ c p, s.code = some c ∧ decodeReceived c (cwPoly s) = .ok p ∧ u = installDecoded p s
  | .padd => u = setPair (padd (opA s) (opB s), 0) s
  | .pmul => u = setPair (pmul (opA s) (opB s) % 2 ^ 32, pmul (opA s) (opB s) >>> 32) s
  | .pmod => ∃ p, pmodResult (opA s) (opB s) = .ok p ∧ u = setPair p s
  | .fred => ∃ c, s.code = some c ∧ u = setPair (red c.r (opA s), 0) s
  | .fmul => ∃ c, s.code = some c ∧ u = setPair (fmul c.r (opA s) (opB s), 0) s
  | .fdiv => ∃ c p, s.code = some c ∧ fdivResult c (opA s) (opB s) = .ok p ∧ u = setPair p s

theorem map_eq_ok {α β : Type} {x : Except Raise α} {f : α → β} {b : β} (h : x.map f = .ok b) :
    ∃ a, x = .ok a ∧ f a = b := by
  cases x with
  | error e => cases h
  | ok a => exact ⟨a, rfl, Except.ok.inj h⟩

theorem bind_eq_ok {α β : Type} {x : Except Raise α} {f : α → Except Raise β} {b : β} (h : x.bind f = .ok b) :
    ∃ a, x = .ok a ∧ f a = .ok b := by
  cases x with
  | error e => cases h
  | ok a => exact ⟨a, rfl, h⟩

/-- Everything the completion of a command can do (30_encoding R128; 60_exceptions R305, R306): its effect, or an error
with nothing else changed. -/
theorem exec_next {i : Instr} {s t : State} (h : exec i s = .next t) :
    (∃ u, CommandEffect i s u ∧ t = complete u) ∨ ∃ e, t = raiseError e s := by
  cases i with
  | nop => exact .inl ⟨s, rfl, (Host.Outcome.next.inj h).symm⟩
  | gen =>
    rcases finish_next (h : execGen s = _) with ⟨c, hc, ht⟩ | ⟨e, -, ht⟩
    · exact .inl ⟨_, ⟨c, hc, rfl⟩, ht⟩
    · exact .inr ⟨e, ht⟩
  | load =>
    rcases finish_next (h : execLoad s = _) with ⟨c, hc, ht⟩ | ⟨e, -, ht⟩
    · exact .inl ⟨_, ⟨c, hc, rfl⟩, ht⟩
    · exact .inr ⟨e, ht⟩
  | save =>
    rcases finish_next (h : execSave s = _) with ⟨c, hc, ht⟩ | ⟨e, -, ht⟩
    · exact .inl ⟨_, ⟨c, needCode_ok.1 hc, rfl⟩, ht⟩
    · exact .inr ⟨e, ht⟩
  | enc =>
    rcases finish_next (h : execEnc s = _) with ⟨p, hp, ht⟩ | ⟨e, -, ht⟩
    · obtain ⟨c, hc, hp⟩ := bind_eq_ok hp
      exact .inl ⟨_, ⟨c, p, needCode_ok.1 hc, hp, rfl⟩, ht⟩
    · exact .inr ⟨e, ht⟩
  | dec =>
    rcases finish_next (h : execDec s = _) with ⟨p, hp, ht⟩ | ⟨e, -, ht⟩
    · obtain ⟨c, hc, hp⟩ := bind_eq_ok hp
      exact .inl ⟨_, ⟨c, p, needCode_ok.1 hc, hp, rfl⟩, ht⟩
    · exact .inr ⟨e, ht⟩
  | padd => exact .inl ⟨_, rfl, (Host.Outcome.next.inj h).symm⟩
  | pmul => exact .inl ⟨_, rfl, (Host.Outcome.next.inj h).symm⟩
  | pmod =>
    rcases finish_next (h : execPmod s = _) with ⟨p, hp, ht⟩ | ⟨e, -, ht⟩
    · exact .inl ⟨_, ⟨p, hp, rfl⟩, ht⟩
    · exact .inr ⟨e, ht⟩
  | fred =>
    rcases finish_next (h : execFred s = _) with ⟨p, hp, ht⟩ | ⟨e, -, ht⟩
    · obtain ⟨c, hc, rfl⟩ := map_eq_ok hp
      exact .inl ⟨_, ⟨c, needCode_ok.1 hc, rfl⟩, ht⟩
    · exact .inr ⟨e, ht⟩
  | fmul =>
    rcases finish_next (h : execFmul s = _) with ⟨p, hp, ht⟩ | ⟨e, -, ht⟩
    · obtain ⟨c, hc, rfl⟩ := map_eq_ok hp
      exact .inl ⟨_, ⟨c, needCode_ok.1 hc, rfl⟩, ht⟩
    · exact .inr ⟨e, ht⟩
  | fdiv =>
    rcases finish_next (h : execFdiv s = _) with ⟨p, hp, ht⟩ | ⟨e, -, ht⟩
    · obtain ⟨c, hc, hp⟩ := bind_eq_ok hp
      exact .inl ⟨_, ⟨c, p, needCode_ok.1 hc, hp, rfl⟩, ht⟩
    · exact .inr ⟨e, ht⟩

/-! ### Flags -/

theorem flagWord_getLsbD (b4 b3 b2 b1 b0 : Bool) (i : Nat) :
    (flagWord b4 b3 b2 b1 b0).getLsbD i
      = match i with
        | 0 => b0
        | 1 => b1
        | 2 => b2
        | 3 => b3
        | 4 => b4
        | _ => false := by
  rcases i with _ | _ | _ | _ | _ | i
  case succ.succ.succ.succ.succ =>
    by_cases h : i < 27
    · interval_cases i <;> revert b4 b3 b2 b1 b0 <;> decide
    · exact BitVec.getLsbD_of_ge _ _ (by omega)
  all_goals revert b4 b3 b2 b1 b0; decide

@[simp] theorem busy_iff (s : State) : busy s = true ↔ s.phase = .busy := by simp [busy]

@[simp] theorem busy_false_iff (s : State) : busy s = false ↔ s.phase = .idle := by
  cases h : s.phase <;> simp [busy, h]

end Sys2Proof.Machine
end

