-- ==== Sys2Proof/Laws/Errors.lean ====
section
/-!
SUPPORT. Sys2Proof/Laws/Errors.lean: every error a command raises has an error code (60_exceptions R300, R301), and the form
every completion step has.
-/

namespace Sys2Proof.Machine

/-- A result whose error, if it is one, has an error code other than NONE. -/
def RaisesCoded {α : Type} (x : Except Raise α) : Prop := ∀ e, x = .error e → e.code ≠ .noError

theorem raisesCoded_ok {α : Type} (a : α) : RaisesCoded (.ok a : Except Raise α) := by intro e h; cases h

theorem raisesCoded_error {α : Type} {code : ErrCode} {info : Nat} (h : code ≠ .noError) :
    RaisesCoded (.error ⟨code, info⟩ : Except Raise α) := by intro e he; cases he; exact h

theorem raisesCoded_map {α β : Type} {x : Except Raise α} {f : α → β} (h : RaisesCoded x) : RaisesCoded (x.map f) := by
  cases x with
  | ok a => exact raisesCoded_ok _
  | error e => intro e' he; cases he; exact h e rfl

theorem raisesCoded_bind {α β : Type} {x : Except Raise α} {f : α → Except Raise β} (h : RaisesCoded x)
    (hf : ∀ a, RaisesCoded (f a)) : RaisesCoded (x.bind f) := by
  cases x with
  | ok a => exact hf a
  | error e => intro e' he; cases he; exact h e rfl

theorem needCode_coded (s : State) : RaisesCoded (needCode s) := by
  unfold needCode
  split
  · exact raisesCoded_error (by decide)
  · exact raisesCoded_ok _

theorem pmodResult_coded (a b : Poly) : RaisesCoded (pmodResult a b) := by
  unfold pmodResult
  split
  · exact raisesCoded_error (by decide)
  · exact raisesCoded_ok _

theorem fdivResult_coded (c : Code) (a b : Poly) : RaisesCoded (fdivResult c a b) := by
  unfold fdivResult
  split
  · exact raisesCoded_error (by decide)
  · exact raisesCoded_ok _

theorem lcmFrom_coded (r : Poly) (pow : List Poly) (n b count s : Nat) (g : Poly) :
    RaisesCoded (lcmFrom r pow n b count s g) := by
  induction count generalizing s g with
  | zero => exact raisesCoded_ok _
  | succ k ih =>
    unfold lcmFrom
    split
    · exact raisesCoded_error (by decide)
    · exact ih _ _

theorem generatorPoly_coded (r : Poly) (pow : List Poly) (n b d : Nat) : RaisesCoded (generatorPoly r pow n b d) := by
  unfold generatorPoly
  split
  · rename_i e h
    intro e' he
    cases he
    exact lcmFrom_coded _ _ _ _ _ _ _ _ h
  · repeat' (first | exact raisesCoded_error (by decide) | exact raisesCoded_ok _ | split)

theorem generate_coded (mmax n b d : Nat) : RaisesCoded (generate mmax n b d) := by
  unfold generate
  repeat' (first | exact raisesCoded_error (by decide) | exact raisesCoded_ok _ | split)
  rename_i e h
  intro e' he
  cases he
  exact generatorPoly_coded _ _ _ _ _ _ h

theorem checkFieldPoly_coded (m n : Nat) (r : Poly) : RaisesCoded (checkFieldPoly m n r) := by
  unfold checkFieldPoly
  repeat' (first | exact raisesCoded_error (by decide) | exact raisesCoded_ok _ | split)

theorem loadRecord_coded (mmax n b d : Nat) (r g : Poly) : RaisesCoded (loadRecord mmax n b d r g) := by
  unfold loadRecord
  repeat' (first | exact raisesCoded_error (by decide) | exact raisesCoded_ok _ | split)
  rename_i e h
  intro e' he
  cases he
  exact checkFieldPoly_coded _ _ _ _ h

theorem encodeMessage_coded (c : Code) (msg : Poly) : RaisesCoded (encodeMessage c msg) := by
  unfold encodeMessage
  split
  · exact raisesCoded_error (by decide)
  · exact raisesCoded_ok _

theorem gaussJordanFrom_coded (m : Nat) (r : Poly) (e left col : Nat) (A : Rows) :
    RaisesCoded (gaussJordanFrom m r e left col A) := by
  induction left generalizing col A with
  | zero => exact raisesCoded_ok _
  | succ k ih =>
    unfold gaussJordanFrom
    split
    · exact raisesCoded_error (by decide)
    · exact ih _ _

theorem decodeReceived_coded (c : Code) (rx : Poly) : RaisesCoded (decodeReceived c rx) := by
  unfold decodeReceived decodeWord
  refine raisesCoded_map ?_
  split
  · exact raisesCoded_error (by decide)
  · dsimp only
    split
    · exact raisesCoded_map (raisesCoded_map (gaussJordanFrom_coded _ _ _ _ _ _))
    · exact raisesCoded_ok _

/-- Every command is one completion step, of a result whose errors have codes. -/
theorem exec_eq_finish (i : Instr) (s : State) :
    ∃ (α : Type) (res : Except Raise α) (install : α → State → State),
      exec i s = finish s res install ∧ RaisesCoded res := by
  cases i with
  | nop => exact ⟨Unit, .ok (), fun _ s => s, rfl, raisesCoded_ok _⟩
  | gen => exact ⟨_, _, _, rfl, generate_coded _ _ _ _⟩
  | load => exact ⟨_, _, _, rfl, loadRecord_coded _ _ _ _ _ _⟩
  | save => exact ⟨_, _, _, rfl, needCode_coded _⟩
  | enc => exact ⟨_, _, _, rfl, raisesCoded_bind (needCode_coded _) (fun _ => encodeMessage_coded _ _)⟩
  | dec => exact ⟨_, _, _, rfl, raisesCoded_bind (needCode_coded _) (fun _ => decodeReceived_coded _ _)⟩
  | padd => exact ⟨_, _, _, rfl, raisesCoded_ok _⟩
  | pmul => exact ⟨_, _, _, rfl, raisesCoded_ok _⟩
  | pmod => exact ⟨_, _, _, rfl, pmodResult_coded _ _⟩
  | fred => exact ⟨_, _, _, rfl, raisesCoded_map (needCode_coded _)⟩
  | fmul => exact ⟨_, _, _, rfl, raisesCoded_map (needCode_coded _)⟩
  | fdiv => exact ⟨_, _, _, rfl, raisesCoded_bind (needCode_coded _) (fun _ => fdivResult_coded _ _ _)⟩

/-- Everything the completion of a command can do, with the error's code. -/
theorem exec_next_coded {i : Instr} {s t : State} (h : exec i s = .next t) :
    (∃ u, CommandEffect i s u ∧ t = complete u) ∨ ∃ e : Raise, e.code ≠ .noError ∧ t = raiseError e s := by
  rcases exec_next h with h1 | ⟨e, rfl⟩
  · exact .inl h1
  · obtain ⟨α, res, install, hx, hc⟩ := exec_eq_finish i s
    rw [hx] at h
    rcases finish_next h with ⟨a, -, ht⟩ | ⟨e', he, ht⟩
    · exact absurd (congrArg State.err ht) (by simp)
    · exact .inr ⟨e', hc e' he, ht⟩

/-- The state a successful command has written differs only in the code, the staging registers, the windows, the
results and the diagnostics, and each command leaves alone what is not among its outputs (20_memory R104). -/
theorem commandEffect_frame {i : Instr} {s u : State} (h : CommandEffect i s u) :
    u = { s with
      code := u.code, staged := u.staged, msg := u.msg, cw := u.cw, reslo := u.reslo, reshi := u.reshi,
      diag := u.diag } ∧
    (i ≠ .gen → i ≠ .load → u.code = s.code) ∧ (i ≠ .gen → i ≠ .save → u.staged = s.staged) ∧
    (i ≠ .save → u.staged.n = s.staged.n ∧ u.staged.b = s.staged.b ∧ u.staged.d = s.staged.d) ∧
    (i ≠ .enc → u.cw = s.cw) ∧ (i ≠ .dec → u.msg = s.msg ∧ u.diag = s.diag) ∧
    (i ∈ [Instr.nop, .gen, .load, .save, .enc, .dec] → u.reslo = s.reslo ∧ u.reshi = s.reshi) := by
  cases i <;> simp only [CommandEffect] at h
  case nop => subst h; simp
  case gen => obtain ⟨c, -, rfl⟩ := h; simp [installGenerated, setGenerated, installCode]
  case load => obtain ⟨c, -, rfl⟩ := h; simp [installCode]
  case save => obtain ⟨c, -, rfl⟩ := h; simp [setRecord]
  case enc => obtain ⟨c, p, -, -, rfl⟩ := h; simp [setCw]
  case dec => obtain ⟨c, p, -, -, rfl⟩ := h; simp [installDecoded, setDecoded]
  case padd => subst h; simp [setPair, setResult]
  case pmul => subst h; simp [setPair, setResult]
  case pmod => obtain ⟨p, -, rfl⟩ := h; simp [setPair, setResult]
  case fred => obtain ⟨c, -, rfl⟩ := h; simp [setPair, setResult]
  case fmul => obtain ⟨c, -, rfl⟩ := h; simp [setPair, setResult]
  case fdiv => obtain ⟨c, p, -, -, rfl⟩ := h; simp [setPair, setResult]

/-- No command changes the host's side. -/
theorem exec_host {i : Instr} {s t : State} (h : exec i s = .next t) : t.host = s.host := by
  rcases exec_next_coded h with ⟨u, hu, rfl⟩ | ⟨e, -, rfl⟩
  · rw [complete_host, (commandEffect_frame hu).1]
  · rfl

end Sys2Proof.Machine
end

