-- ==== Sys2Proof/Laws/MinPoly.lean ====
section
/-!
SUPPORT. Sys2Proof/Laws/MinPoly.lean: the product that GEN builds for a conjugacy class has the coefficients of
42_code_generator R180, whatever the order of the class, and plcm divides every common multiple (R182).
-/

namespace Sys2Proof.Machine

open Polynomial

theorem fmul_zero {r : Poly} (hr : r ≠ 0) (a : Poly) : fmul r a 0 = 0 :=
  (toRing_inj hr (fmul_lt hr _ _) (Nat.two_pow_pos _)).1 (by simp [toRing_fmul hr])

theorem fmul_left_comm {r : Poly} (hr : r ≠ 0) (a b c : Poly) : fmul r a (fmul r b c) = fmul r b (fmul r a c) := by
  rw [← fmul_assoc hr, fmul_comm r a b, fmul_assoc hr]

theorem padd_left_comm (a b c : Poly) : padd a (padd b c) = padd b (padd a c) := Nat.xor_left_comm a b c

theorem padd_assoc (a b c : Poly) : padd (padd a b) c = padd a (padd b c) := Nat.xor_assoc a b c

/-- The coefficient of x^j in (x + a) times the polynomial with coefficients f. -/
def linCoeff (r a : Poly) (f : Nat → Poly) : Nat → Poly
  | 0 => fmul r a (f 0)
  | j + 1 => padd (f j) (fmul r a (f (j + 1)))

theorem prodCoeff_cons (r a : Poly) (as : List Poly) : prodCoeff r (a :: as) = linCoeff r a (prodCoeff r as) := by
  funext j; cases j <;> rfl

/-- Two linear factors may be exchanged. -/
theorem linCoeff_comm {r : Poly} (hr : r ≠ 0) (a b : Poly) (f : Nat → Poly) :
    linCoeff r a (linCoeff r b f) = linCoeff r b (linCoeff r a f) := by
  funext j
  rcases j with _ | _ | j <;>
    simp only [linCoeff, fmul_padd hr, padd_assoc, fmul_left_comm hr a b]
  · rw [padd_left_comm]
  · rw [padd_left_comm (fmul r b _)]

/-- A factor may be put in at the end as well as at the front. -/
theorem prodCoeff_concat {r : Poly} (hr : r ≠ 0) (as : List Poly) (a : Poly) :
    prodCoeff r (as ++ [a]) = linCoeff r a (prodCoeff r as) := by
  induction as with
  | nil => exact prodCoeff_cons r a []
  | cons b bs ih => rw [List.cons_append, prodCoeff_cons, ih, linCoeff_comm hr, ← prodCoeff_cons]

/-- A product of L linear factors has no coefficient above x^L. -/
theorem prodCoeff_above {r : Poly} (hr : r ≠ 0) {as : List Poly} {j : Nat} (h : as.length < j) :
    prodCoeff r as j = 0 := by
  induction as generalizing j with
  | nil => exact if_neg (by simpa using Nat.ne_of_gt h)
  | cons a as ih =>
    obtain ⟨k, rfl⟩ : ∃ k, j = k + 1 := ⟨j - 1, by omega⟩
    rw [List.length_cons] at h
    rw [prodCoeff, ih (by omega), ih (by omega), fmul_zero hr]
    rfl

/-- The model's (x + a)·P has the coefficients of the product. -/
theorem mulLinear_getD {r : Poly} (hr : r ≠ 0) (P : List Poly) (a : Poly) (j : Nat) :
    (mulLinear r P a).getD j 0 = linCoeff r a (fun k => P.getD k 0) j := by
  have h0 : ∀ k : Nat, (P.map (fmul r a) ++ [0]).getD k 0 = fmul r a (P.getD k 0) := by
    intro k
    rcases lt_trichotomy k P.length with h | rfl | h
    · simp [List.getD_eq_getElem?_getD, List.getElem?_append, h]
    · simp [List.getD_eq_getElem?_getD, fmul_zero hr]
    · rw [List.getD_eq_default _ _ (by simp; omega), List.getD_eq_default _ _ (by omega), fmul_zero hr]
  have h1 : (mulLinear r P a).getD j 0 = padd ((0 :: P).getD j 0) ((P.map (fmul r a) ++ [0]).getD j 0) := by
    unfold mulLinear
    by_cases h : j < P.length + 1
    · rw [List.getD_eq_getElem _ _ (by simpa using h), List.getD_eq_getElem _ _ (by simpa using h),
        List.getD_eq_getElem _ _ (by simpa using h), List.getElem_zipWith]
    · rw [List.getD_eq_default _ _ (by simp; omega), List.getD_eq_default _ _ (by simp; omega),
        List.getD_eq_default _ _ (by simp; omega)]
      rfl
  rw [h1, h0]
  cases j with
  | zero => exact Nat.zero_xor _
  | succ j => rfl

theorem foldl_mulLinear_getD {r : Poly} (hr : r ≠ 0) (f : Nat → Poly) (cs : List Nat) (P as : List Poly)
    (h : ∀ j, P.getD j 0 = prodCoeff r as j) (j : Nat) :
    (cs.foldl (fun Q c => mulLinear r Q (f c)) P).getD j 0 = prodCoeff r (as ++ cs.map f) j := by
  induction cs generalizing P as with
  | nil => simpa using h j
  | cons c cs ih =>
    rw [List.foldl_cons, ih (mulLinear r P (f c)) (as ++ [f c]), List.append_assoc]
    · rfl
    · intro k
      rw [mulLinear_getD hr, prodCoeff_concat hr, funext h]

/-- Everything the product over a class is: its coefficients are those of R180. -/
theorem minProduct_getD {r : Poly} (hr : r ≠ 0) (pow : List Poly) (n i j : Nat) :
    (minProduct r pow n i).getD j 0 = prodCoeff r ((conjClass n i).map (alphaPow pow)) j := by
  refine foldl_mulLinear_getD hr (alphaPow pow) (conjClass n i) [1] [] (fun k => ?_) j
  cases k <;> rfl

/-- lcm(a, b) divides every common multiple. -/
theorem plcm_dvd {a b : Poly} (ha : a ≠ 0) {f : (ZMod 2)[X]} (h1 : toPoly a ∣ f) (h2 : toPoly b ∣ f) :
    toPoly (plcm a b) ∣ f := by
  have hg : toPoly (pgcd a b) ≠ 0 := by simpa using pgcd_ne_zero b ha
  have hdiv : toPoly (plcm a b) * toPoly (pgcd a b) ∣ f * toPoly (pgcd a b) := by
    rw [plcm_mul_pgcd b ha]
    obtain ⟨u, v, huv⟩ : ∃ u v, toPoly (pgcd a b) = u * toPoly a + v * toPoly b := by
      have : gcd (toPoly a) (toPoly b) ∣ toPoly (pgcd a b) ∧ toPoly (pgcd a b) ∣ gcd (toPoly a) (toPoly b) :=
        ⟨(pgcd_spec a b _).2 ⟨gcd_dvd_left _ _, gcd_dvd_right _ _⟩,
          dvd_gcd ((pgcd_spec a b _).1 dvd_rfl).1 ((pgcd_spec a b _).1 dvd_rfl).2⟩
      obtain ⟨k, hk⟩ := this.1
      obtain ⟨x, y, hxy⟩ := exists_gcd_eq_mul_add_mul (toPoly a) (toPoly b)
      exact ⟨x * k, y * k, by rw [hk, hxy]; ring⟩
    rw [huv]
    obtain ⟨p, hp⟩ := h1
    obtain ⟨q, hq⟩ := h2
    exact ⟨u * q + v * p, by
      calc f * (u * toPoly a + v * toPoly b) = u * toPoly a * f + v * toPoly b * f := by ring
        _ = u * toPoly a * (toPoly b * q) + v * toPoly b * (toPoly a * p) := by rw [← hq, ← hp]
        _ = _ := by ring⟩
  exact (mul_dvd_mul_iff_right hg).1 hdiv

end Sys2Proof.Machine
end

