-- ==== Sys2Proof/Laws/PerInstr.lean ====
section
/-!
SUPPORT. Sys2Proof/Laws/PerInstr.lean: statements about every command as syntax, one lemma per constructor.
-/

namespace Sys2Proof.Laws.CommandWord

/-- The command's word is legal, its lanes decode to it, and it is below 2^8: RSVD is 0 (30_encoding R121, R124). -/
def Statement (i : Instr) : Prop :=
  legalCommandWord (encode i) = true ∧ decodeLanes (lanesOfWord (encode i)) = some i ∧ (encode i).toNat < 2 ^ 8

theorem nop : Statement .nop := ⟨rfl, rfl, by decide⟩
theorem gen : Statement .gen := ⟨rfl, rfl, by decide⟩
theorem load : Statement .load := ⟨rfl, rfl, by decide⟩
theorem save : Statement .save := ⟨rfl, rfl, by decide⟩
theorem enc : Statement .enc := ⟨rfl, rfl, by decide⟩
theorem dec : Statement .dec := ⟨rfl, rfl, by decide⟩
theorem padd : Statement .padd := ⟨rfl, rfl, by decide⟩
theorem pmul : Statement .pmul := ⟨rfl, rfl, by decide⟩
theorem pmod : Statement .pmod := ⟨rfl, rfl, by decide⟩
theorem fred : Statement .fred := ⟨rfl, rfl, by decide⟩
theorem fmul : Statement .fmul := ⟨rfl, rfl, by decide⟩
theorem fdiv : Statement .fdiv := ⟨rfl, rfl, by decide⟩

end Sys2Proof.Laws.CommandWord
end

