-- ==== Sys2Proof/Laws/Step.lean ====
section
/-!
SUPPORT. Sys2Proof/Laws/Step.lean: what one step can do, said once: the inversion of `step` and of the bus operations.
-/

namespace Sys2Proof.Machine

/-! ### The address map -/

theorem locate_regOffset (name : Reg) : locate (regOffset name) = .reg name := by cases name <;> rfl

theorem locate_windowWord (w : PolyWin) {j : Nat} (hj : j < 128) :
    locate (locOffset (.poly w j)) = .poly w j := by
  have h0 : ∀ b, (b + 4 * j - b) / 4 = j := fun b => by omega
  cases w <;> simp (disch := omega) only [locOffset, windowBase, locate, if_neg, if_pos, h0]

theorem locate_tableEntry (t : TableWin) {j : Nat} (hj : j < 4096) :
    locate (locOffset (.table t j)) = .table t j := by
  have h0 : ∀ b, (b + 4 * j - b) / 4 = j := fun b => by omega
  cases t <;> simp (disch := omega) only [locOffset, tableBase, locate, if_neg, if_pos, h0]

/-! ### Reads -/

/-- Everything a read can do: the exact value or a free one, and nothing of the core changed. -/
theorem readLoc_cases (l : Loc) (s : State) :
    (readsFree s l = false ∧ (readLoc l s).host.readData = peek s l ∧ (readLoc l s).draws = s.draws) ∨
      (readsFree s l = true ∧ (readLoc l s).host.readData = Config.freeWord s.draws ∧
        (readLoc l s).draws = s.draws + 1) := by
  unfold readLoc
  cases h : readsFree s l <;> simp

/-! ### The step -/

theorem mover_idle {s : State} (h : s.phase = .idle) : mover s = .host := by unfold mover; rw [h]

theorem mover_engine_busy {s : State} (h : mover s = .engine) : s.phase = .busy := by
  cases hp : s.phase with
  | idle => rw [mover_idle hp] at h; cases h
  | busy => rfl

/-- Everything one step can do: the running command completes (legal or not), or the host does its next operation. -/
theorem step_next {s t : State} (h : step s = .next t) :
    (mover s = .engine ∧ ∃ i, runningCommand s = some i ∧ exec i (takeTurn s) = .next t) ∨
    (mover s = .engine ∧ runningCommand s = none ∧
      t = raiseError ⟨.illegalCommand, s.lastCmd.toNat⟩ (takeTurn s)) ∨
    (mover s = .host ∧ s.host.program = [] ∧ t = takeTurn s) ∨
    (mover s = .host ∧ ∃ width addr rest, s.host.program = .access (.read width addr) :: rest ∧
      definedAt width addr = true ∧ t = readLoc (locate addr) (setProgram rest (takeTurn s))) ∨
    (mover s = .host ∧ ∃ width addr v rest, s.host.program = .access (.write width addr v) :: rest ∧
      definedAt width addr = true ∧ t = writeLoc (locate addr) v (setProgram rest (takeTurn s))) ∨
    (mover s = .host ∧ ∃ addr v rest, s.host.program = .assertRead addr v :: rest ∧ definedAt 4 addr = true ∧
      t = recordAssert v (readLoc (locate addr) (setProgram rest (takeTurn s)))) ∨
    (mover s = .host ∧ ∃ rest, s.host.program = .wait :: rest ∧
      let u := readLoc (.reg .status) (takeTurn s)
      (u.host.readData.getLsbD 0 = true ∧ t = u) ∨ (u.host.readData.getLsbD 0 = false ∧ t = setProgram rest u)) := by
  unfold step at h
  cases hm : mover s with
  | engine =>
    rw [hm] at h
    simp only [engineStep] at h
    have hr : runningCommand (takeTurn s) = runningCommand s := by simp [runningCommand]
    rw [hr] at h
    cases hc : runningCommand s with
    | some i => rw [hc] at h; exact .inl ⟨rfl, i, rfl, h⟩
    | none =>
      rw [hc] at h
      refine .inr (.inl ⟨rfl, rfl, ?_⟩)
      simpa [finishIllegal] using (Host.Outcome.next.inj h).symm
  | host =>
    rw [hm] at h
    simp only [hostStep, takeTurn_program] at h
    refine .inr (.inr ?_)
    split at h
    · rename_i hp
      exact .inl ⟨rfl, hp, (Host.Outcome.next.inj h).symm⟩
    · rename_i a rest hp
      unfold busAccess at h
      split at h
      · split at h
        · rename_i width addr hd
          exact .inr (.inl ⟨rfl, width, addr, rest, hp, hd, (Host.Outcome.next.inj h).symm⟩)
        · cases h
      · split at h
        · rename_i width addr v hd
          exact .inr (.inr (.inl ⟨rfl, width, addr, v, rest, hp, hd, (Host.Outcome.next.inj h).symm⟩))
        · cases h
    · rename_i addr v rest hp
      split at h
      · rename_i hd
        exact .inr (.inr (.inr (.inl ⟨rfl, addr, v, rest, hp, hd, (Host.Outcome.next.inj h).symm⟩)))
      · cases h
    · rename_i rest hp
      refine .inr (.inr (.inr (.inr ⟨rfl, rest, hp, ?_⟩)))
      split at h
      · rename_i hb
        exact .inl ⟨hb, (Host.Outcome.next.inj h).symm⟩
      · rename_i hb
        exact .inr ⟨by simpa using hb, (Host.Outcome.next.inj h).symm⟩

/-- A write of an operand register or window: stored when IDLE, OVR when BUSY (10_state R42). -/
theorem storeOperand_busy {store : State → State} {s : State} (h : s.phase = .busy) :
    storeOperand store s = setOvr s := by simp [storeOperand, h]

theorem storeOperand_idle {store : State → State} {s : State} (h : s.phase = .idle) :
    storeOperand store s = store s := by simp [storeOperand, busy, h]

/-- A defined offset that names a register is that register's offset (10_state R32). -/
theorem regOffset_of_locate {addr : Nat} {name : Reg} (hd : definedAt 4 addr = true) (h : locate addr = .reg name) :
    addr = regOffset name := by
  simp only [definedAt, Bool.and_eq_true, decide_eq_true_eq] at hd
  obtain ⟨⟨-, h4⟩, -⟩ := hd
  unfold locate at h
  by_cases c : addr < 0x1000
  · rw [if_pos c] at h
    obtain ⟨q, rfl⟩ : ∃ q, addr = 4 * q := ⟨addr / 4, by omega⟩
    by_cases hq : q < 23
    · revert h
      interval_cases q <;> intro h <;> cases name <;> first | rfl | (exfalso; revert h; decide)
    · exfalso
      unfold locateReg at h
      split at h <;> first | omega | cases h
  · rw [if_neg c] at h
    exfalso
    repeat' (split at h; cases h)
    cases h

/-- Everything a write can do (20_memory R93, 10_state R35 to R42): a write to CTRL, CMD or STATUS; nothing; or the
write of an operand, which while BUSY only sets OVR and while IDLE changes an operand and no other field. -/
theorem writeLoc_cases (l : Loc) (v : Word) (s : State) :
    (l = .reg .ctrl ∧ writeLoc l v s = writeCtrl v s) ∨ (l = .reg .cmd ∧ writeLoc l v s = acceptCommand v s) ∨
    (l = .reg .status ∧ writeLoc l v s = writeStatus v s) ∨ writeLoc l v s = s ∨
    (s.phase = .busy ∧ writeLoc l v s = setOvr s) ∨
    (s.phase = .idle ∧ writeLoc l v s = { s with
      staged := (writeLoc l v s).staged, msg := (writeLoc l v s).msg, cw := (writeLoc l v s).cw,
      opa := (writeLoc l v s).opa, opb := (writeLoc l v s).opb }) := by
  cases hp : s.phase with
  | busy =>
    have hs : ∀ store : State → State, storeOperand store s = setOvr s := fun _ => storeOperand_busy hp
    cases l with
    | reg name => cases name <;> simp [writeLoc, writeReg, hs]
    | poly w j => cases w <;> simp [writeLoc, writeWindow, hs]
    | table t j => simp [writeLoc]
    | reserved => simp [writeLoc]
  | idle =>
    have hs : ∀ store : State → State, storeOperand store s = store s := fun _ => storeOperand_idle hp
    cases l with
    | reg name => cases name <;> simp [writeLoc, writeReg, hs, hp]
    | poly w j => cases w <;> simp [writeLoc, writeWindow, hs, hp]
    | table t j => simp [writeLoc]
    | reserved => simp [writeLoc]

/-- No write changes the host's side. -/
@[simp] theorem writeLoc_host (l : Loc) (v : Word) (s : State) : (writeLoc l v s).host = s.host := by
  rcases writeLoc_cases l v s with ⟨-, h⟩ | ⟨-, h⟩ | ⟨-, h⟩ | h | ⟨-, h⟩ | ⟨-, h⟩
  · rw [h]; unfold writeCtrl; split <;> rfl
  · rw [h]; unfold acceptCommand; split <;> rfl
  · rw [h]; rfl
  · rw [h]
  · rw [h]; rfl
  · rw [h]

end Sys2Proof.Machine
end

