-- ==== Sys2Proof/Laws/Tables.lean ====
section
/-!
SUPPORT. Sys2Proof/Laws/Tables.lean: the forms in which tables and windows hold values: the canonical form of a table is
kept by every operation that makes one, entries read back, and words of a window read back (20_memory R95, log 8).
-/

namespace Sys2Proof.Machine

/-! ### Tables -/

theorem trimTable_length (t : Table) : (trimTable t).length ≤ t.length := by
  induction t with
  | nil => simp [trimTable]
  | cons w ws ih =>
    unfold trimTable
    split
    · split <;> simp
    · rename_i v vs h
      rw [h] at ih
      simpa using ih

theorem trimTable_getLast (t : Table) : (trimTable t).getLast? ≠ some 0 := by
  induction t with
  | nil => simp [trimTable]
  | cons w ws ih =>
    unfold trimTable
    split
    · split <;> simp_all
    · rename_i v vs h
      rw [h] at ih
      simpa [List.getLast?_cons] using ih

/-- Dropping the trailing zeros changes no entry. -/
theorem tableEntry_trimTable (t : Table) (j : Nat) : tableEntry (trimTable t) j = tableEntry t j := by
  unfold tableEntry
  induction t generalizing j with
  | nil => rfl
  | cons w ws ih =>
    unfold trimTable
    split
    · rename_i h
      rw [h] at ih
      have h0 : ∀ j, ws.getD j 0 = 0 := fun j => by rw [← ih j]; rfl
      split
      · rename_i hw
        subst hw
        cases j with
        | zero => rfl
        | succ j => simpa using (h0 j).symm
      · cases j with
        | zero => rfl
        | succ j => simpa using (h0 j).symm
    · rename_i v vs h
      rw [h] at ih
      cases j with
      | zero => rfl
      | succ j => simpa using ih j

/-- A table made by a command has the canonical form, if it is not too long. -/
theorem tableWf_toTable {vs : List Nat} (h : vs.length ≤ 4096) : tableWf (toTable vs) = true := by
  unfold tableWf toTable
  have h1 := trimTable_length (vs.map toWord)
  have h2 := trimTable_getLast (vs.map toWord)
  rw [List.length_map] at h1
  simp only [Bool.and_eq_true, decide_eq_true_eq]
  exact ⟨by omega, h2⟩

/-- Its entries are the given numbers, then 0 (44_decoder R250). -/
theorem tableEntry_toTable (vs : List Nat) (j : Nat) : tableEntry (toTable vs) j = toWord (vs.getD j 0) := by
  rw [toTable, tableEntry_trimTable, tableEntry]
  by_cases h : j < vs.length
  · simp [List.getD_eq_getElem?_getD, h]
  · simp [List.getD_eq_getElem?_getD, h, toWord]

/-! ### Windows -/

theorem windowWord_getLsbD (p : Window) (j i : Nat) :
    (windowWord p j).getLsbD i = (decide (i < 32) && p.getLsbD (32 * j + i)) := by
  simp [windowWord]

/-- Bit i of a window after word j is replaced: the word's bit inside it, the old bit outside (20_memory R95). -/
theorem setWindowWord_getLsbD (p : Window) (j : Nat) (v : Word) (i : Nat) (hi : i < 4096) :
    (setWindowWord p j v).getLsbD i
      = if 32 * j ≤ i ∧ i < 32 * j + 32 then v.getLsbD (i - 32 * j) else p.getLsbD i := by
  unfold setWindowWord
  simp only [BitVec.getLsbD_or, BitVec.getLsbD_and, BitVec.getLsbD_not, BitVec.getLsbD_shiftLeft,
    BitVec.getLsbD_setWidth, BitVec.getLsbD_allOnes, hi, decide_true, Bool.true_and]
  by_cases h1 : i < 32 * j
  · have : ¬ (32 * j ≤ i) := by omega
    simp [h1, this]
  · by_cases h2 : i < 32 * j + 32
    · have h3 : 32 * j ≤ i := by omega
      have h4 : i - 32 * j < 4096 := by omega
      have h5 : i - 32 * j < 32 := by omega
      simp [h1, h2, h3, h4, h5]
    · have h5 : ¬ (i - 32 * j < 32) := by omega
      have h6 : v.getLsbD (i - 32 * j) = false := BitVec.getLsbD_of_ge _ _ (by omega)
      simp [h1, h2, h5, h6]

/-- The word written reads back. -/
theorem windowWord_setWindowWord_self (p : Window) {j : Nat} (hj : j < 128) (v : Word) :
    windowWord (setWindowWord p j v) j = v := by
  refine BitVec.eq_of_getLsbD_eq (fun i hi => ?_)
  rw [windowWord_getLsbD, setWindowWord_getLsbD _ _ _ _ (by omega)]
  have h1 : 32 * j ≤ 32 * j + i ∧ 32 * j + i < 32 * j + 32 := by omega
  simp [hi, h1]

/-- Every other word is as it was. -/
theorem windowWord_setWindowWord_other (p : Window) {j k : Nat} (hk : k < 128) (hne : k ≠ j) (v : Word) :
    windowWord (setWindowWord p j v) k = windowWord p k := by
  refine BitVec.eq_of_getLsbD_eq (fun i hi => ?_)
  rw [windowWord_getLsbD, windowWord_getLsbD, setWindowWord_getLsbD _ _ _ _ (by omega)]
  have h1 : ¬ (32 * j ≤ 32 * k + i ∧ 32 * k + i < 32 * j + 32) := by omega
  simp [h1]

theorem toWindow_toNat {p : Poly} (h : p < 2 ^ 4096) : (toWindow p).toNat = p := by
  rw [toWindow, BitVec.toNat_ofNat, Nat.mod_eq_of_lt h]

theorem toWord_toNat {p : Nat} (h : p < 2 ^ 32) : (toWord p).toNat = p := by
  rw [toWord, BitVec.toNat_ofNat, Nat.mod_eq_of_lt h]

end Sys2Proof.Machine
end

