-- ==== Sys2Proof/Laws/Trace.lean ====
section
/-!
SUPPORT. Sys2Proof/Laws/Trace.lean: what one step does to the host program and which transfer it performs, said once.
-/

namespace Sys2Proof.Machine

/-- Everything a step does to the host program: it performs no transfer and leaves it, or it performs a transfer that
the encoding of the next operation admits, if the assertions still hold, and the operation stays only when it is
repeated (30_encoding R134). -/
theorem step_transfer {s t : State} (h : step s = .next t) :
    (stepTransfer s t = none ∧ t.host.program = s.host.program ∧ t.host.assertsHold = s.host.assertsHold) ∨
    ∃ op rest y, s.host.program = op :: rest ∧ stepTransfer s t = some y ∧
      (t.host.assertsHold = true → s.host.assertsHold = true ∧ admitsTransfer (transactionOf op) y = true) ∧
      t.host.program = if repeatsAfter (transactionOf op) y then op :: rest else rest := by
  rcases step_next h with ⟨hm, i, -, he⟩ | ⟨hm, -, rfl⟩ | ⟨hm, hp, rfl⟩ | ⟨hm, w, a, rest, hp, hd, rfl⟩ |
    ⟨hm, w, a, v, rest, hp, hd, rfl⟩ | ⟨hm, a, v, rest, hp, hd, rfl⟩ | ⟨hm, rest, hp, ⟨hb, rfl⟩ | ⟨hb, rfl⟩⟩
  · exact .inl (by simp [stepTransfer, hm, exec_host he])
  · exact .inl (by simp [stepTransfer, hm])
  · exact .inl (by simp [stepTransfer, transferOf, hm, hp])
  · exact .inr ⟨_, rest, _, hp, by simp [stepTransfer, transferOf, hm, hp]; rfl,
      by simp [admitsTransfer, transactionOf], by simp [repeatsAfter, transactionOf]⟩
  · exact .inr ⟨_, rest, _, hp, by simp [stepTransfer, transferOf, hm, hp]; rfl,
      by simp [admitsTransfer, transactionOf], by simp [repeatsAfter, transactionOf]⟩
  · exact .inr ⟨_, rest, _, hp, by simp [stepTransfer, transferOf, hm, hp]; rfl,
      by simp [admitsTransfer, transactionOf, recordAssert], by simp [repeatsAfter, transactionOf]⟩
  · exact .inr ⟨_, rest, _, hp, by simp [stepTransfer, transferOf, hm, hp]; rfl,
      by simp [admitsTransfer, transactionOf], by simp [repeatsAfter, transactionOf, hb, hp]⟩
  · exact .inr ⟨_, rest, _, hp, by simp [stepTransfer, transferOf, hm, hp]; rfl,
      by simp [admitsTransfer, transactionOf], by simpa [repeatsAfter, transactionOf] using hb⟩

end Sys2Proof.Machine
end

