-- ==== Sys2Proof/Tests/Slice0.lean ====
section
/-!
SUPPORT. Sys2Proof/Tests/Slice0.lean: the model's own tests. Expected values are those of the spec's tables and examples
(the rule stands beside each), never the model's. The `witness_` theorems show a state and operands that meet the
hypotheses of the statements of Sys2Proof/Certificates/Slice0/Obligations.lean, one per clause where a statement has several.
-/

namespace Sys2Proof.Tests

set_option Elab.async false

open Sys2Proof Sys2Proof.Machine Sys2Proof.Claims

/-! ### Helpers -/

/-- A check of the next state; false where there is none. -/
def after (o : Host.Outcome State Fault Refusal) (p : State → Bool) : Bool :=
  match o with
  | .next t => p t
  | .fault _ => false
  | .refused _ => false

/-- The state of a next outcome. -/
def result (o : Host.Outcome State Fault Refusal) : State :=
  match o with
  | .next t => t
  | .fault _ => State.reset
  | .refused _ => State.reset

/-- Reset with the operands OPA and OPB. -/
def withAB (a b : Word) : State := { State.reset with opa := a, opb := b }

/-- Reset with the staging registers. -/
def withRecord (n b d r : Word) (g : Window) : State := { State.reset with staged := ⟨n, b, d, r, g⟩ }

/-- The code (7, 1, 3): the row of 42_code_generator R188, its tables those of 95_test_vectors section 2.2. -/
def code7 : Code where
  n := 7
  b := 1
  d := 3
  m := 3
  k := 4
  t := 1
  q := 2
  r := 0xB
  g := 0xB
  ord := 7
  pow := [0x1, 0x2, 0x4, 0x3, 0x6, 0x7, 0x5]
  log := [none, some 0, some 1, some 3, some 2, some 6, some 4, some 5]

/-- Reset with the code (7, 1, 3) active. -/
def with7 : State := { State.reset with code := some code7 }

/-- Reset with the engine BUSY on a command word and the engine to move. -/
def running (w : Word) : State := { State.reset with phase := .busy, lastCmd := w }

/-- Reset with the host about to perform the given operations. -/
def hostDoes (ops : List HostOp) : State := setProgram ops State.reset

/-- BUSY on a command word, the host to move. -/
def hostDuring (w : Word) (ops : List HostOp) : State :=
  setProgram ops { running w with host := { HostAgent.reset with turns := [.host] } }

/-! ### Well-formedness: an ill-formed term for each check -/

theorem test_wf_command : Instr.wellFormed .gen = true := by decide
theorem test_wf_word : legalCommandWord 0x0000000D = true := by decide
theorem test_ill_rsvd : legalCommandWord 0x00000100 = false := by decide
theorem test_ill_opcode : legalCommandWord 0x00000006 = false := by decide
theorem test_wf_access : Access.wellFormed (.write 4 0x1FFFC 0) = true := by decide
theorem test_ill_width : Access.wellFormed (.read 2 0x020) = false := by decide
theorem test_ill_alignment : Access.wellFormed (.write 4 0x022 0) = false := by decide
theorem test_ill_outside : Access.wellFormed (.read 4 0x20000) = false := by decide
theorem test_ill_hostop : HostOp.wellFormed (.assertRead 0x011 0) = false := by decide
theorem test_ill_hostop_access : HostOp.wellFormed (.access (.read 1 0x010)) = false := by decide
theorem test_wf_mmax : legalMmax 2 = true ∧ legalMmax 12 = true := by decide
theorem test_ill_mmax : legalMmax 1 = false ∧ legalMmax 13 = false := by decide

/-! ### Decoding: words written out from 30_encoding R121 (OP in bits 7:0, RSVD in 31:8) and R123 -/

theorem test_decode_nop : decode 0b00000000_00000000_00000000_00000000#32 = .ok .nop := by rfl
theorem test_decode_gen : decode 0b00000000_00000000_00000000_00000001#32 = .ok .gen := by rfl
theorem test_decode_load : decode 0b00000000_00000000_00000000_00000010#32 = .ok .load := by rfl
theorem test_decode_save : decode 0b00000000_00000000_00000000_00000011#32 = .ok .save := by rfl
theorem test_decode_enc : decode 0b00000000_00000000_00000000_00000100#32 = .ok .enc := by rfl
theorem test_decode_dec : decode 0b00000000_00000000_00000000_00000101#32 = .ok .dec := by rfl
theorem test_decode_padd : decode 0b00000000_00000000_00000000_00001000#32 = .ok .padd := by rfl
theorem test_decode_pmul : decode 0b00000000_00000000_00000000_00001001#32 = .ok .pmul := by rfl
theorem test_decode_pmod : decode 0b00000000_00000000_00000000_00001010#32 = .ok .pmod := by rfl
theorem test_decode_fred : decode 0b00000000_00000000_00000000_00001011#32 = .ok .fred := by rfl
theorem test_decode_fmul : decode 0b00000000_00000000_00000000_00001100#32 = .ok .fmul := by rfl
theorem test_decode_fdiv : decode 0b00000000_00000000_00000000_00001101#32 = .ok .fdiv := by rfl
theorem test_decode_reserved_op : decode 0x0000000E = .error .reservedOpcode := by rfl
theorem test_decode_rsvd : decode 0x80000001 = .error .reservedField := by rfl
theorem test_table_word : decodeTableWord 32 0x0000000A = some .pmod := by rfl
theorem test_table_word_illegal : decodeTableWord 32 0x00000107 = none := by rfl

/-! ### Commands, one completion step each -/

/-- 45_descriptor_and_control R288: NOP after a failed ENC. -/
theorem test_nop :
    after (exec .nop { running 0 with err := true, errCode := .messageTooLarge, errInfo := 7 })
      (fun t => t.done && !t.err && decide (t.errCode = .noError) && decide (t.errInfo = 0)) = true := by decide +kernel

/-- 42_code_generator R188, row (7, 1, 3), and the tables of 95_test_vectors section 2.2. -/
theorem test_gen :
    after (exec .gen (withRecord 7 1 3 0 0))
      (fun t => decide (t.code = some code7) && decide (t.staged = ⟨7, 1, 3, 0xB, 0xB⟩) && !t.err) = true := by
  decide +kernel

/-- 42_code_generator R189, row (5, 1, 3): MinimalPolynomialError, 0. -/
theorem test_gen_error :
    after (exec .gen (withRecord 5 1 3 0 0))
      (fun t => t.err && decide (t.errCode = .minimalPolynomialError) && decide (t.errInfo = 0)
        && decide (t.code = none)) = true := by decide +kernel

/-- 45_descriptor_and_control R285, row (7, 1, 3, 0xD, 0xB): accepted, k 4, t 1, ord 7. -/
theorem test_load :
    after (exec .load (withRecord 7 1 3 0xD 0xB))
      (fun t => match t.code with
        | none => false
        | some c => decide (c.k = 4 ∧ c.t = 1 ∧ c.ord = 7 ∧ c.r = 0xD ∧ c.g = 0xB)) = true := by decide +kernel

/-- 45_descriptor_and_control R285, row (15, 1, 5, 0x1F, 0x1D1): NoValidExtension, 4. -/
theorem test_load_error :
    after (exec .load (withRecord 15 1 5 0x1F 0x1D1))
      (fun t => decide (t.errCode = .noValidExtension) && decide (t.errInfo = 4)) = true := by decide +kernel

/-- 95_test_vectors section 2.6: SAVE of (7, 1, 3) after N, B and D were overwritten. -/
theorem test_save :
    after (exec .save with7) (fun t => decide (t.staged = ⟨7, 1, 3, 0xB, 0xB⟩)) = true := by decide +kernel

/-- 43_encoder R214, row MSG 0xD. -/
theorem test_enc :
    after (exec .enc { with7 with msg := 0xD }) (fun t => decide (t.cw = 0x69) && !t.err) = true := by decide +kernel

/-- 43_encoder R214, row MSG 0x10: MessageTooLarge, 4. -/
theorem test_enc_error :
    after (exec .enc { with7 with msg := 0x10, cw := 0x69 })
      (fun t => decide (t.errCode = .messageTooLarge) && decide (t.errInfo = 4) && decide (t.cw = 0x69)) = true := by
  decide +kernel

/-- 44_decoder R254, row (7, 1, 3), CW 0x29. -/
theorem test_dec :
    after (exec .dec { with7 with cw := 0x29 })
      (fun t => decide (t.msg = 0xD) && decide (t.diag = ⟨0x40, [5, 7], [1, 5], [1], 1, 1, true⟩)) = true := by
  decide +kernel

/-- 44_decoder R254, row (7, 1, 3), CW 0x80: CodewordTooLarge, 7. -/
theorem test_dec_error :
    after (exec .dec { with7 with cw := 0x80 })
      (fun t => decide (t.errCode = .codewordTooLarge) && decide (t.errInfo = 7)) = true := by decide +kernel

/-- 95_test_vectors section 2.1. -/
theorem test_padd :
    after (exec .padd (withAB 0x5 0x3)) (fun t => decide (t.reslo = 0x6 ∧ t.reshi = 0)) = true := by decide +kernel

theorem test_pmul :
    after (exec .pmul (withAB 0xFFFFFFFF 0xFFFFFFFF))
      (fun t => decide (t.reslo = 0x55555555 ∧ t.reshi = 0x55555555)) = true := by decide +kernel

theorem test_pmul_top :
    after (exec .pmul (withAB 0x80000000 0x80000000))
      (fun t => decide (t.reslo = 0 ∧ t.reshi = 0x40000000)) = true := by decide +kernel

theorem test_pmod :
    after (exec .pmod (withAB 0xFFFFFFFF 0xB)) (fun t => decide (t.reslo = 0x4 ∧ t.reshi = 0x1A3468D1)) = true := by
  decide +kernel

theorem test_pmod_zero :
    after (exec .pmod { withAB 0x9 0 with reslo := 5 })
      (fun t => decide (t.errCode = .divisionByZero ∧ t.errInfo = 0 ∧ t.reslo = 5)) = true := by decide +kernel

/-- 95_test_vectors section 2.2, r = 0xB. -/
theorem test_fred :
    after (exec .fred { with7 with opa := 0xFFFFFFFF }) (fun t => decide (t.reslo = 0x4 ∧ t.reshi = 0)) = true := by
  decide +kernel

theorem test_fmul :
    after (exec .fmul { with7 with opa := 0x8, opb := 0x3 }) (fun t => decide (t.reslo = 0x5)) = true := by
  decide +kernel

theorem test_fdiv :
    after (exec .fdiv { with7 with opa := 0x1, opb := 0x2 }) (fun t => decide (t.reslo = 0x5)) = true := by
  decide +kernel

/-- 41_field_arithmetic R150: a divisor equal to r reduces to 0. -/
theorem test_fdiv_zero :
    after (exec .fdiv { with7 with opa := 0x1, opb := 0xB })
      (fun t => decide (t.errCode = .divisionByZero ∧ t.errInfo = 0)) = true := by decide +kernel

/-! ### The bus: 95_test_vectors section 2.7 -/

theorem test_illegal_word :
    after (step (State.reset.withFetchWord 32 0x80000001))
      (fun t => decide (t.errCode = .illegalCommand ∧ t.errInfo = 0x80000001 ∧ t.code = none)) = true := by decide +kernel

theorem test_busy_command_dropped :
    after (step (hostDuring 0x1 [.access (.write 4 0x00C 0)]))
      (fun t => t.ovr && decide (t.lastCmd = 0x1 ∧ t.phase = .busy)) = true := by decide +kernel

theorem test_busy_operand_dropped :
    after (step (hostDuring 0x1 [.access (.write 4 0x120C 1)])) (fun t => t.ovr && decide (t.msg = 0)) = true := by
  decide +kernel

theorem test_soft_reset_wins :
    after (busAccess (.write 4 0x008 3) { State.reset with done := true, irqEn := true })
      (fun t => !(irq t) && !t.irqEn && !t.done) = true := by decide +kernel

theorem test_status_write_ignored :
    after (busAccess (.write 4 0x010 0x11) { with7 with done := true, ovr := true })
      (fun t => t.done && t.ovr && codeValid t) = true := by decide +kernel

theorem test_status_reads : peek { with7 with done := true } (.reg .status) = 0x12 := by decide +kernel

theorem test_id_hwcfg :
    peek State.reset (.reg .id) = 0x42434801 ∧ peek State.reset (.reg .hwcfg) = 0x00000008 := by decide +kernel

theorem test_pow_log_windows :
    peek with7 (.table .pow 3) = 0x3 ∧ peek with7 (.table .pow 7) = 0 ∧ peek with7 (.table .log 3) = 3 ∧
      peek with7 (.table .log 0) = 0xFFFFFFFF ∧ peek with7 (.table .log 8) = 0xFFFFFFFF := by decide +kernel

/-- 95_test_vectors section 3.1: CODE_M 3, CODE_K 4, CODE_T 1 and CODE_ORD 7 of (7, 1, 3). -/
theorem test_code_registers :
    peek with7 (.reg .codeM) = 3 ∧ peek with7 (.reg .codeK) = 4 ∧ peek with7 (.reg .codeT) = 1 ∧
      peek with7 (.reg .codeOrd) = 7 := by decide +kernel

/-- The numbers of 60_exceptions R300, in its order. -/
theorem test_error_numbers :
    [ErrCode.noError, .invalidParameters, .noValidExtension, .minimalPolynomialError, .messageTooLarge,
      .codewordTooLarge, .divisionByZero, .noCode, .capacityExceeded, .illegalCommand].map
        (fun e => peek { State.reset with errCode := e } (.reg .errcode)) = [0, 1, 2, 3, 4, 5, 6, 7, 8, 9] := by
  decide +kernel

/-- 95_test_vectors section 3.2: `rd RESLO == v` as a step, met and not met. -/
theorem test_assert_read :
    after (step { hostDoes [.assertRead 0x048 9] with reslo := 9 }) (fun t => t.host.assertsHold) = true ∧
    after (step { hostDoes [.assertRead 0x048 9] with reslo := 8 }) (fun t => !t.host.assertsHold) = true := by
  decide +kernel

/-- 95_test_vectors section 3.1: the first lines of program P1 and their encoding, and a plain `rd STATUS`, which is
not repeated. -/
theorem test_program_encoding :
    encodeProgram [.wr (.reg .n) 7, .run .gen, .rdEq (.poly .g 0) 0xB, .rd (.reg .status), .ack] =
      [⟨.write, 0x020, .word 7⟩, ⟨.write, 0x00C, .word 1⟩, ⟨.read, 0x010, .untilClear⟩,
        ⟨.read, 0x1000, .word 0xB⟩, ⟨.read, 0x010, .returned⟩, ⟨.write, 0x010, .word 0xE⟩] := by decide +kernel

/-- 95_test_vectors section 3: a `wait` is zero or more reads with bit 0 set and then one with bit 0 clear; a read with
bit 0 set does not end it, and none follows the one that does. -/
theorem test_wait_unrolls :
    unrolls [⟨.read, 0x010, 0x11⟩, ⟨.read, 0x010, 0x19⟩, ⟨.read, 0x010, 0x12⟩] (encodeProgram [.wait]) = true ∧
    unrolls [⟨.read, 0x010, 0x12⟩] (encodeProgram [.wait]) = true ∧
    unrolls [⟨.read, 0x010, 0x11⟩] (encodeProgram [.wait]) = false ∧
    unrolls [⟨.read, 0x010, 0x12⟩, ⟨.read, 0x010, 0x12⟩] (encodeProgram [.wait]) = false := by decide +kernel

/-! ### Witnesses: states that meet the hypotheses of the statements -/

theorem generate7 : generate 8 7 1 3 = .ok code7 := by decide +kernel

theorem code7_ok : CodeOk 8 code7 := generate_codeOk generate7

/-- A state with (7, 1, 3) active, whatever the operand windows. -/
theorem goodCode7 (msg cw : Window) : GoodCode { with7 with msg := msg, cw := cw } code7 :=
  ⟨rfl, rfl, code7_ok, by decide⟩

theorem goodCode7_operands (a b : Word) : GoodCode { with7 with opa := a, opb := b } code7 :=
  ⟨rfl, rfl, code7_ok, by decide⟩

theorem witness_StepRunsLatchedCommand :
    mover (running 0x0D) = .engine ∧ decode (running 0x0D).lastCmd = .ok .fdiv ∧
      decode (BitVec.ofNat 32 0x0D) = .ok .fdiv ∧ (0x0D : Nat) < 2 ^ 32 := by decide

theorem witness_StepsOfEngineAndHost :
    mover (running 0) = .engine ∧ mover State.reset = .host ∧ State.reset.phase = .idle ∧
      (hostDuring 0 []).phase = .busy ∧ (hostDuring 0 []).host.turns.head? = some .host ∧
      State.reset.host.program = [] ∧
      (mover (hostDuring 8 [.access (.read 4 0x048)]) = .host ∧
        (hostDuring 8 [.access (.read 4 0x048)]).host.program = [.access (.read 4 0x048)]) ∧
      (mover (hostDoes [.assertRead 0x1FFFC 0]) = .host ∧
        (hostDoes [.assertRead 0x1FFFC 0]).host.program = [.assertRead 0x1FFFC 0] ∧
        0x1FFFC % 4 = 0 ∧ (0x1FFFC : Nat) < 0x20000) ∧
      ((hostDoes [.assertRead 0x012 0]).host.program = [.assertRead 0x012 0] ∧ 0x012 % 4 ≠ 0) ∧
      ((hostDoes [.assertRead 0x20000 0]).host.program = [.assertRead 0x20000 0] ∧ (0x20000 : Nat) ≤ 0x20000) := by decide

theorem witness_IllegalWordCompletes :
    mover (running 0x06) = .engine ∧ decode (running 0x06).lastCmd = .error .reservedOpcode ∧
      decode (running 0x100).lastCmd = .error .reservedField := by decide

theorem witness_AcceptedCommandCompletes :
    (hostDuring 0x0D []).phase = .busy ∧ (hostDuring 0x0D []).host.program = [] := by decide

theorem witness_ErrorChangesNothingElse :
    engineStep (running 0x0A) = .next (result (engineStep (running 0x0A))) ∧
      (result (engineStep (running 0x0A))).err = true ∧
      engineStep (running 0x06) = .next (result (engineStep (running 0x06))) ∧
      (result (engineStep (running 0x06))).err = true := ⟨rfl, rfl, rfl, rfl⟩

theorem witness_CommandWritesOnlyItsOutputs :
    exec .padd State.reset = .next (result (exec .padd State.reset)) ∧ ¬ OutputOf .padd (locate 0x020) ∧
      ¬ IsStatusLoc (locate 0x020) ∧ Instr.padd ≠ .gen ∧ Instr.padd ≠ .load := by
  refine ⟨rfl, ?_, ?_, by decide, by decide⟩ <;> rw [show locate 0x020 = .reg .n from rfl] <;>
    simp [OutputOf, IsStatusLoc]

/-- Two states that differ outside the operands, the command successful in both. -/
theorem witness_ResultDependsOnOperandsOnly :
    let s := withAB 5 3
    let s' := { running 0 with opa := 5, opb := 3 }
    s ≠ s' ∧ s.mmax = s'.mmax ∧ s.staged = s'.staged ∧ s.msg = s'.msg ∧ s.cw = s'.cw ∧ s.opa = s'.opa ∧
      s.opb = s'.opb ∧ s.code = s'.code ∧ exec .padd s = .next (result (exec .padd s)) ∧
      exec .padd s' = .next (result (exec .padd s')) ∧ (result (exec .padd s)).err = false ∧
      OutputOf .padd (.reg .reslo) := by
  exact ⟨by decide +kernel, rfl, rfl, rfl, rfl, rfl, rfl, rfl, rfl, rfl, rfl, by simp [OutputOf]⟩

theorem witness_RegisterMapOffsets :
    (127 : Nat) < 128 ∧ (4095 : Nat) < 4096 ∧ ValidLoc (.table .log 4095) ∧ Loc.table .log 4095 ≠ .reserved := by
  refine ⟨by decide, by decide, ?_, by decide⟩
  simp [ValidLoc]

theorem witness_ReservedSpaceReadsZero :
    definedAt 4 0x01C = true ∧ locate 0x01C = .reserved ∧ locate 0x05C = .reserved ∧ locate 0xFFC = .reserved ∧
      locate 0x1800 = .reserved ∧ locate 0x3FFC = .reserved ∧ locate 0x18000 = .reserved ∧
      definedAt 4 0x1FFFC = true ∧ locate 0x1FFFC = .reserved ∧ locate 0x058 ≠ .reserved ∧
      locate 0x1000 ≠ .reserved ∧ locate 0x17FC ≠ .reserved ∧ locate 0x17FFC ≠ .reserved := by decide

theorem witness_UndefinedAccessIsRefused :
    ((2 : Nat) ≠ 4 ∨ 0 % 4 ≠ 0 ∨ 0x20000 ≤ 0) ∧ ((4 : Nat) ≠ 4 ∨ 2 % 4 ≠ 0 ∨ 0x20000 ≤ 2) ∧
      ((4 : Nat) ≠ 4 ∨ 0x20000 % 4 ≠ 0 ∨ 0x20000 ≤ 0x20000) ∧ ((4 : Nat) = 4 ∧ 0x1FFFC % 4 = 0 ∧ 0x1FFFC < 0x20000) := by
  decide

theorem witness_ReadReturnsHeldValue :
    readsFree State.reset (.reg .reslo) = false ∧ readsFree (running 0x08) (.reg .reslo) = true ∧
      readsFree (running 0x08) (.reg .opa) = false ∧ State.reset.code = none ∧
      GoodCode { with7 with msg := 0, cw := 0 } code7 :=
  ⟨by decide, by decide, by decide, rfl, goodCode7 _ _⟩

theorem witness_CommandAcceptOrDrop : State.reset.phase = .idle ∧ (running 0).phase = .busy := by decide

theorem witness_OperandWriteStoredOrDropped :
    ValidLoc (.poly .cw 127) ∧ isOperandLoc (.poly .cw 127) = true ∧ (running 0).phase = .busy ∧
      State.reset.phase = .idle ∧ Loc.poly .cw 127 ≠ .reg .cmd ∧ ValidLoc (.table .log 4095) ∧
      Loc.table .log 4095 ≠ .poly .cw 127 ∧
      (let s := hostDuring 0x08 [.access (.write 4 0x040 5)]
       s.phase = .busy ∧ mover s = .host ∧ step s = .next (result (step s)) ∧ (result (step s)).phase = .busy) := by
  refine ⟨?_, rfl, rfl, rfl, by decide, ?_, by decide, rfl, rfl, rfl, rfl⟩ <;> simp [ValidLoc]

theorem witness_CtrlWriteAndSoftReset : (2 : Word).getLsbD 1 = true ∧ (1 : Word).getLsbD 1 = false := by decide

theorem witness_ResetReads :
    legalMmax 2 = true ∧ legalMmax 12 = true ∧ ValidLoc (.poly .errmask 127) ∧ ValidLoc (.table .log 4095) := by
  refine ⟨rfl, rfl, ?_, ?_⟩ <;> simp [ValidLoc]

theorem witness_WindowCoefficientLayout : (0 : Nat) < 4096 ∧ (4095 : Nat) < 4096 := by decide

theorem witness_ByteLanesLittleEndian : 0x1FFFC % 4 = 0 ∧ (3 : Nat) < 4 ∧ (7 : Nat) < 8 := by decide

theorem witness_CompletionInterrupt :
    engineStep (running 0) = .next (result (engineStep (running 0))) ∧ State.reset.phase = .idle ∧
      busAccess (.write 4 0x00C 1) State.reset = .next (result (busAccess (.write 4 0x00C 1) State.reset)) ∧
      (2 : Word).getLsbD 1 = true ∧
      busAccess (.write 4 0x010 2) State.reset = .next (result (busAccess (.write 4 0x010 2) State.reset)) ∧
      (0 : Word).getLsbD 0 = false ∧
      busAccess (.write 4 0x008 0) State.reset = .next (result (busAccess (.write 4 0x008 0) State.reset)) ∧
      (1 : Word).getLsbD 0 = true ∧ (1 : Word).getLsbD 1 = false ∧
      busAccess (.write 4 0x008 1) State.reset = .next (result (busAccess (.write 4 0x008 1) State.reset)) :=
  ⟨rfl, rfl, rfl, rfl, rfl, rfl, rfl, rfl, rfl, rfl⟩

/-- A `wait` in either phase; and a run of `run NOP` with one turn of the host while BUSY, which performs the transfers
0x0 to CMD, a read of STATUS with bit 0 set, and the read that ends the `wait`. -/
theorem witness_HostProgramsRunAsEncoded :
    (mover (hostDoes [.wait]) = .host ∧ (hostDoes [.wait]).host.program = [.wait] ∧
      mover (hostDuring 1 [.wait]) = .host ∧ (hostDuring 1 [.wait]).host.program = [.wait]) ∧
    (let s := withProgram [.run .nop] { State.reset with host := { HostAgent.reset with turns := [.host] } }
     (match Host.Core.run core 4 s with
      | .next t => t.host.program.isEmpty && t.host.assertsHold
      | .fault _ => false
      | .refused _ => false) = true ∧
     transfers 4 s = [⟨.write, 0x00C, 0⟩, ⟨.read, 0x010, 1⟩, ⟨.read, 0x010, 2⟩]) := by decide +kernel

theorem witness_OverrunIsSticky :
    (let s := { hostDoes [.access (.write 4 0x010 8)] with ovr := true }
     step s = .next (result (step s)) ∧ s.ovr = true ∧ (result (step s)).ovr = false) ∧
    (let s := { hostDoes [.access (.write 4 0x008 2)] with ovr := true }
     step s = .next (result (step s)) ∧ s.ovr = true ∧ (result (step s)).ovr = false) :=
  ⟨⟨rfl, rfl, rfl⟩, ⟨rfl, rfl, rfl⟩⟩

/-- A code disappears in a soft reset; one appears when LOAD succeeds. -/
theorem witness_ActiveCodeWriters :
    (let s := { hostDoes [.access (.write 4 0x008 2)] with code := some code7 }
     step s = .next (result (step s)) ∧ (result (step s)).code ≠ s.code) ∧
    (let s := { running 0x02 with staged := ⟨7, 1, 3, 0xB, 0xB⟩ }
     step s = .next (result (step s)) ∧ (result (step s)).code ≠ s.code) :=
  ⟨⟨rfl, by decide +kernel⟩, ⟨by
      rw [show step { running 0x02 with staged := ⟨7, 1, 3, 0xB, 0xB⟩ }
        = exec .load (takeTurn { running 0x02 with staged := ⟨7, 1, 3, 0xB, 0xB⟩ }) from rfl]
      obtain ⟨α, res, install, h, -⟩ := exec_eq_finish .load
        (takeTurn { running 0x02 with staged := ⟨7, 1, 3, 0xB, 0xB⟩ })
      rw [h]
      cases res <;> rfl, by decide +kernel⟩⟩

theorem witness_ConfigurationIsConstant :
    legalMmax State.reset.mmax = true ∧ legalMmax { State.reset with mmax := 12 }.mmax = true ∧
      step State.reset = .next State.reset := ⟨rfl, rfl, rfl⟩

theorem witness_StepKeepsMachineInv : MachineInv with7 ∧ step with7 = .next with7 := by
  refine ⟨⟨by decide, ?_, ?_, ?_, ?_, ?_, rfl, rfl, rfl⟩, rfl⟩
  · intro c h; cases h; exact code7_ok
  · intro c h; cases h; decide
  · intro h; cases h
  · intro; rfl
  · intro h; cases h

/-- The ends of the range of MMAX. -/
theorem witness_ResetHasMachineInv : legalMmax 2 = true ∧ legalMmax 12 = true := by decide

theorem witness_PmodDividesOperands : (withAB 9 0).opb = 0 ∧ (withAB 9 7).opb ≠ 0 := by decide

theorem witness_FredReducesOperand :
    State.reset.code = none ∧ GoodCode { with7 with opa := 0xFFFFFFFF, opb := 0 } code7 :=
  ⟨rfl, goodCode7_operands _ _⟩

theorem witness_FmulMultipliesInField :
    State.reset.code = none ∧ GoodCode { with7 with opa := 8, opb := 3 } code7 := ⟨rfl, goodCode7_operands _ _⟩

theorem witness_FdivWritesExactQuotient :
    State.reset.code = none ∧
    (GoodCode { with7 with opa := 1, opb := 0xB } code7 ∧ pmodulo (0xB : Word).toNat code7.r = 0) ∧
    (GoodCode { with7 with opa := 1, opb := 2 } code7 ∧ pmodulo (2 : Word).toNat code7.r ≠ 0 ∧ (7 : Nat) < 2 ^ code7.m) :=
  ⟨rfl, ⟨goodCode7_operands _ _, by decide⟩, ⟨goodCode7_operands _ _, by decide, by decide⟩⟩

theorem witness_NoCodeIsReported : State.reset.code = none := rfl

/-- The last exponent of the table, and an element without an exponent. -/
theorem witness_PowAndLogWindows :
    State.reset.code = none ∧ GoodCode { with7 with msg := 0, cw := 0 } code7 ∧ (6 : Nat) < code7.ord ∧ alphaSeq code7.r 6 = 5 ∧
      ∀ e < code7.ord, alphaSeq code7.r e ≠ 8 := ⟨rfl, goodCode7 _ _, by decide, by decide +kernel, by decide +kernel⟩

theorem witness_PowersMultiplyByAddingExponents :
    GoodCode { with7 with msg := 0, cw := 0 } code7 ∧ code7.log.getD 5 none = some 6 ∧ code7.log.getD 2 none = some 1 :=
  ⟨goodCode7 _ _, rfl, rfl⟩

theorem witness_OddLengthsHaveExtensionDegree : (3 : Nat) ≤ 3 ∧ 3 % 2 = 1 := by decide

/-- A binary polynomial below x^(L+1), L the size of the class, is M_i when the coefficients up to x^L agree. -/
theorem isMinPoly_of_le {r M : Poly} {n i : Nat} (hr : r ≠ 0) (hM : M < 2 ^ ((conjClass n i).length + 1))
    (h : ∀ j ≤ (conjClass n i).length,
      prodCoeff r ((conjClass n i).map (alphaSeq r)) j = if M.testBit j then 1 else 0) : IsMinPoly r n i M := by
  intro j
  rcases Nat.lt_or_ge (conjClass n i).length j with hj | hj
  · rw [prodCoeff_above hr (by simpa using hj), if_neg]
    simp [Nat.testBit_lt_two_pow (lt_of_lt_of_le hM (Nat.pow_le_pow_right (by omega) hj))]
  · exact h j hj

/-- The hypotheses of a successful GEN, for (7, 1, 3): minimal polynomials 0xB, 0xB (42_code_generator R188). -/
theorem witness_GenInstallsGeneratedCode :
    let s := withRecord 7 1 3 0 0
    legalMmax s.mmax = true ∧ s.staged.n.toNat = 7 ∧ s.staged.b.toNat = 1 ∧ s.staged.d.toNat = 3 ∧
      IsOrder 7 3 ∧ 3 ≤ s.mmax ∧ IsFirstAccepted 3 7 0xB ∧ IsPowTable 3 0xB code7.pow ∧
      [0xB, 0xB].length = 3 - 1 ∧ (∀ i < 3 - 1, IsMinPoly 0xB 7 (1 + i) ([0xB, 0xB].getD i 0)) ∧
      IsLcmOf [0xB, 0xB] 0xB ∧ 0 < degNat 0xB ∧ degNat 0xB < 7 ∧ PolyDivides 0xB (xnPlusOne 7) := by
  have hs : searchField 3 7 = some (0xB, code7.pow) := by decide +kernel
  obtain ⟨h1, h2, -⟩ := searchField_some hs
  refine ⟨by decide, rfl, rfl, rfl, order2_some.1 (by decide), by decide, h1, ?_, rfl, ?_, ?_, by decide +kernel,
    by decide +kernel, 0x17, by decide +kernel⟩
  · intro e he
    obtain rfl : e = 7 := isOrd_unique he (powTable_some h2).1
    decide +kernel
  · intro i hi
    obtain rfl | rfl : i = 0 ∨ i = 1 := by omega
    · exact isMinPoly_of_le (by decide) (by decide +kernel) (by decide +kernel)
    · exact isMinPoly_of_le (by decide) (by decide +kernel) (by decide +kernel)
  · intro h
    simp

/-- One input per clause: n = 2; n = 8; n = 11 with MMAX = 8; (5, 1, 3), whose first product is not binary; and
(7, 1, 1), whose g is 1 (42_code_generator R189). For the check of divisibility itself, in GF(4) with n = 9: the class
of 1 gives (x^2 + x + 1)^3 = 0x6B, which does not divide x^9 + 1 = (x + 1)(x^2 + x + 1)(x^6 + x^3 + 1). -/
theorem witness_GenErrorsInOrder :
    ((2 : Nat) < 3) ∧ (¬ ∃ m, IsOrder 8 m) ∧ (IsOrder 11 10 ∧ (withRecord 11 1 3 0 0).mmax < 10) ∧
    (IsOrder 5 4 ∧ IsFirstAccepted 4 5 0x13 ∧ ¬ ∃ M, IsMinPoly 0x13 5 (1 + 0) M) ∧
    (([] : List Poly).length = 1 - 1 ∧ IsLcmOf [] 1 ∧ degNat 1 = 0) ∧
    lcmFrom 7 [1, 2, 3] 9 1 (2 - 1) 0 1 = .ok 0x6B ∧ 0 < degNat 0x6B ∧ degNat 0x6B < 9 ∧
      ¬ PolyDivides 0x6B (xnPlusOne 9) := by
  have hs : searchField 4 5 = some (0x13, [1, 2, 4, 8, 3, 6, 0xC, 0xB, 5, 0xA, 7, 0xE, 0xF, 0xD, 9]) := by
    decide +kernel
  refine ⟨by decide, ?_, ⟨order2_some.1 (by decide), by decide⟩,
    ⟨order2_some.1 (by decide), (searchField_some hs).1, ?_⟩, ⟨rfl, ?_, by decide⟩,
    by decide +kernel, by decide +kernel, by decide +kernel, ?_⟩
  · rintro ⟨m, hm⟩
    exact order2_none.1 (by decide) m hm
  · rintro ⟨M, hM⟩
    have h : ∃ j < 5, 2 ≤ prodCoeff 0x13 ((conjClass 5 (1 + 0)).map (alphaSeq 0x13)) j := by decide +kernel
    obtain ⟨j, -, hj⟩ := h
    rw [hM j] at hj
    split at hj <;> exact absurd hj (by decide)
  · intro h
    exact ⟨fun _ M hM => absurd hM (by simp), fun _ => ⟨h, toPoly_injective (by simp)⟩⟩
  · rw [polyDivides_iff (by decide)]
    decide +kernel

theorem execGen7 : exec .gen (withRecord 7 1 3 0 0) = .next (complete (installGenerated code7 (withRecord 7 1 3 0 0))) := by
  change finish _ (generate 8 7 1 3) _ = _
  rw [generate7]
  rfl

theorem witness_GeneratedCodeProperties :
    ∃ t, exec .gen (withRecord 7 1 3 0 0) = .next t ∧ t.err = false := ⟨_, execGen7, rfl⟩

/-- The class of 6 modulo 7; the field of 0xB, whose ord is n = 7; and the lcm of 0xB and 0xD. -/
theorem witness_ClassesGiveMinimalPolynomials :
    ((3 : Nat) ≤ 3 ∧ 3 % 2 = 1 ∧ conjClass 7 6 = [6, 5, 3]) ∧
    (IsAccepted 3 7 0xB ∧ IsPowTable 3 0xB code7.pow ∧ minPoly 0xB code7.pow 7 6 = some 0xD) ∧
    (IsOrder 7 3 ∧ IsOrd 3 0xB 7) ∧ (0xB : Poly) ≠ 0 ∧ (0xD : Poly) ≠ 0 ∧ plcm 0xB 0xD = 0x7F := by
  refine ⟨by decide, ⟨⟨code7_ok.r_deg, code7_ok.r_irreducible, 7, code7_ok.ord_is, le_rfl⟩, ?_, by decide +kernel⟩,
    ⟨code7_ok.order, code7_ok.ord_is⟩, by decide, by decide, by decide +kernel⟩
  intro e he
  obtain rfl : e = 7 := isOrd_unique he code7_ok.ord_is
  decide +kernel

theorem witness_SearchFindsCandidate :
    (3 : Nat) ≤ 3 ∧ IsOrder 3 2 ∧ ∃ t, exec .gen (withRecord 7 1 3 0 0) = .next t :=
  ⟨le_rfl, order2_some.1 (by decide), _, execGen7⟩

/-- The record of (7, 1, 3) passes the eight checks of LOAD (45_descriptor_and_control R285). -/
theorem witness_LoadInstallsRecord :
    (withRecord 7 1 3 0xB 0xB).staged = ⟨7, 1, 3, 0xB, 0xB⟩ ∧ IsOrder 7 3 ∧ 3 ≤ (withRecord 7 1 3 0xB 0xB).mmax ∧
      deg 0xB = some 3 ∧ IsIrreducible 3 0xB ∧ (∃ e, IsOrd 3 0xB e ∧ 7 ≤ e) ∧ 0 < degNat 0xB ∧ degNat 0xB < 7 ∧
      PolyDivides 0xB (xnPlusOne 7) :=
  ⟨rfl, code7_ok.order, by decide, code7_ok.r_deg, code7_ok.r_irreducible, ⟨7, code7_ok.ord_is, le_rfl⟩, by decide,
    by decide, code7_ok.g_divides⟩

/-- One input per clause, from the rows of 45_descriptor_and_control R285. -/
theorem witness_LoadChecksInOrder :
    ((7 : Nat) < 9) ∧ (¬ ∃ m, IsOrder 8 m) ∧ (IsOrder 11 10 ∧ (withRecord 11 1 3 0x409 0xB).mmax < 10) ∧
    (IsOrder 7 3 ∧ deg 0x13 ≠ some 3) ∧ (deg 0xF = some 3 ∧ ¬ IsIrreducible 3 0xF) ∧
    (IsOrder 15 4 ∧ deg 0x1F = some 4 ∧ IsIrreducible 4 0x1F ∧ ¬ ∃ e, IsOrd 4 0x1F e ∧ 15 ≤ e) ∧
    (IsIrreducible 3 0xB ∧ (∃ e, IsOrd 3 0xB e ∧ 7 ≤ e) ∧ degNat 1 = 0 ∧ 7 ≤ degNat 0xFF) ∧
    (0 < degNat 7 ∧ degNat 7 < 7 ∧ ¬ PolyDivides 7 (xnPlusOne 7)) ∧ PolyDivides 0xB (xnPlusOne 7) := by
  have hp : powTable 4 0x1F = some [1, 2, 4, 8, 0xF] := by decide +kernel
  refine ⟨by decide, ?_, ⟨order2_some.1 (by decide), by decide⟩, ⟨code7_ok.order, by decide⟩, ⟨by decide, ?_⟩,
    ⟨order2_some.1 (by decide), by decide, irreducible_iff.1 (by decide +kernel), ?_⟩,
    ⟨code7_ok.r_irreducible, ⟨7, code7_ok.ord_is, le_rfl⟩, by decide, by decide⟩, ⟨by decide, by decide, ?_⟩, code7_ok.g_divides⟩
  · rintro ⟨m, hm⟩
    exact order2_none.1 (by decide) m hm
  · rw [← irreducible_iff]
    decide +kernel
  · rintro ⟨e, he, hn⟩
    obtain rfl : e = 5 := isOrd_unique he (powTable_some hp).1
    omega
  · rw [polyDivides_iff (by decide)]
    decide +kernel

theorem witness_SaveWritesRecord :
    State.reset.code = none ∧ GoodCode { with7 with msg := 0, cw := 0 } code7 := ⟨rfl, goodCode7 _ _⟩

/-- SAVE, then a reset with the record written back. -/
theorem witness_SaveThenLoadRestoresCode :
    GoodCode { with7 with msg := 0, cw := 0 } code7 ∧
      exec .save { with7 with msg := 0, cw := 0 } = .next (result (exec .save { with7 with msg := 0, cw := 0 })) ∧
      (let u := { State.reset with staged := (result (exec .save { with7 with msg := 0, cw := 0 })).staged }
       u.mmax = with7.mmax ∧ u.staged = (result (exec .save { with7 with msg := 0, cw := 0 })).staged) :=
  ⟨goodCode7 _ _, rfl, rfl, rfl⟩

/-- The largest message that fits and the smallest that does not. -/
theorem witness_EncWritesSystematicCodeword :
    State.reset.code = none ∧
    (GoodCode { with7 with msg := 0x10, cw := 0 } code7 ∧ 2 ^ code7.k ≤ (0x10 : Window).toNat) ∧
      (GoodCode { with7 with msg := 0xF, cw := 0 } code7 ∧ (0xF : Window).toNat < 2 ^ code7.k) :=
  ⟨rfl, ⟨goodCode7 _ _, by decide +kernel⟩, ⟨goodCode7 _ _, by decide +kernel⟩⟩

theorem execEnc7 :
    exec .enc { with7 with msg := 0xF, cw := 0 } =
      .next (complete (setCw 0x7F { with7 with msg := 0xF, cw := 0 })) := by
  have h : (needCode { with7 with msg := 0xF, cw := 0 }).bind
      (fun c => encodeMessage c (msgPoly { with7 with msg := 0xF, cw := 0 })) = .ok 0x7F := by decide +kernel
  unfold exec execEnc
  rw [h, finish_ok]

theorem witness_EncodedWordIsDivisible :
    GoodCode { with7 with msg := 0xF, cw := 0 } code7 ∧
      ∃ t, exec .enc { with7 with msg := 0xF, cw := 0 } = .next t ∧ t.err = false :=
  ⟨goodCode7 _ _, _, execEnc7, rfl⟩

theorem witness_EncodedWordIsSystematic :
    GoodCode { with7 with msg := 0xF, cw := 0 } code7 ∧
      ∃ t, exec .enc { with7 with msg := 0xF, cw := 0 } = .next t ∧ t.err = false := witness_EncodedWordIsDivisible

theorem witness_DecRejectsLongWord :
    { with7 with cw := 0x80 }.code = some code7 ∧ 2 ^ code7.n ≤ (0x80 : Window).toNat := ⟨rfl, by decide +kernel⟩

theorem witness_DecZeroSyndromesReturnWord :
    GoodCode { with7 with msg := 0, cw := 0x69 } code7 ∧ (0x69 : Window).toNat < 2 ^ code7.n ∧
      ∀ j < code7.d - 1,
        fieldSum (((List.range 4096).filter (fun p => (0x69 : Window).getLsbD p)).map
          (fun p => alphaSeq code7.r ((code7.b + j) * p))) = 0 :=
  ⟨goodCode7 _ _, by decide +kernel, by decide +kernel⟩

theorem witness_DecAlwaysSucceedsInLength :
    GoodCode { with7 with msg := 0, cw := 0x6A } code7 ∧ (0x6A : Window).toNat < 2 ^ code7.n :=
  ⟨goodCode7 _ _, by decide +kernel⟩

/-- 44_decoder R254, row CW 0x29. -/
theorem execDec7 :
    exec .dec { with7 with msg := 0, cw := 0x29 } =
      .next (complete (installDecoded (0xD, ⟨0x40, [5, 7], [1, 5], [1], 1, 1, true⟩)
        { with7 with msg := 0, cw := 0x29 })) := by
  have h : (needCode { with7 with msg := 0, cw := 0x29 }).bind
      (fun c => decodeReceived c (cwPoly { with7 with msg := 0, cw := 0x29 })) =
        .ok (0xD, ⟨0x40, [5, 7], [1, 5], [1], 1, 1, true⟩) := by decide +kernel
  unfold exec execDec
  rw [h, finish_ok]

theorem witness_SyndromesEvaluateReceivedWord :
    GoodCode { with7 with msg := 0, cw := 0x29 } code7 ∧ (1 : Nat) < code7.d - 1 ∧
      ∃ t, exec .dec { with7 with msg := 0, cw := 0x29 } = .next t ∧ t.err = false :=
  ⟨goodCode7 _ _, by decide, _, execDec7, rfl⟩

theorem witness_DecFlipsRootPositions :
    GoodCode { with7 with msg := 0, cw := 0x29 } code7 ∧
      ∃ t, exec .dec { with7 with msg := 0, cw := 0x29 } = .next t ∧ t.err = false ∧ t.diag.synNz = true :=
  ⟨goodCode7 _ _, _, execDec7, rfl, rfl⟩

/-- The code (15, 1, 5): the row of 42_code_generator R188. -/
def code15 : Code := mkCode 15 1 5 4 0x13 [1, 2, 4, 8, 3, 6, 0xC, 0xB, 5, 0xA, 7, 0xE, 0xF, 0xD, 9] 0x1D1

theorem generate15 : generate 8 15 1 5 = .ok code15 := by decide +kernel

/-- 44_decoder R254, row (15, 1, 5), CW 0x20: one error where t = 2. -/
def one15 : State := { State.reset with code := some code15, cw := 0x20 }

theorem execDec15 :
    exec .dec one15 =
      .next (complete (installDecoded (0, ⟨0x20, [6, 7, 1, 6], [1, 6], [10], 1, 1, true⟩) one15)) := by
  have h : (needCode one15).bind (fun c => decodeReceived c (cwPoly one15)) =
      .ok (0, ⟨0x20, [6, 7, 1, 6], [1, 6], [10], 1, 1, true⟩) := by decide +kernel
  unfold exec execDec
  rw [h, finish_ok]

/-- A size that solves equations, and a larger size up to t. -/
theorem witness_DecLocatorSolvesSyndromes :
    GoodCode one15 code15 ∧
      ∃ t, exec .dec one15 = .next t ∧ t.err = false ∧ 0 < t.diag.decE.toNat ∧ t.diag.decE.toNat < 2 ∧ 2 ≤ code15.t :=
  ⟨⟨rfl, rfl, generate_codeOk generate15, by decide⟩, _, execDec15, rfl, by decide +kernel, by decide +kernel,
    by decide +kernel⟩

theorem witness_EncodeThenDecodeRoundTrip :
    GoodCode { with7 with msg := 0xF, cw := 0 } code7 ∧ generate with7.mmax code7.n code7.b code7.d = .ok code7 ∧
      code7.ord = code7.n ∧ (0xF : Window).toNat < 2 ^ code7.k := ⟨goodCode7 _ _, generate7, rfl, by decide +kernel⟩

/-- No error, and one error at the highest coefficient: both ends of the radius. -/
theorem witness_DecCorrectsUpToRadius :
    GoodCode { with7 with msg := 0xF, cw := 0 } code7 ∧ generate with7.mmax code7.n code7.b code7.d = .ok code7 ∧
      code7.ord = code7.n ∧ (0xF : Window).toNat < 2 ^ code7.k ∧
      (∃ t, exec .enc { with7 with msg := 0xF, cw := 0 } = .next t) ∧
      (0x40 : Window).toNat < 2 ^ code7.n ∧ windowWeight 0x40 ≤ code7.t ∧ windowWeight 0 ≤ code7.t :=
  ⟨goodCode7 _ _, generate7, rfl, by decide +kernel, ⟨_, execEnc7⟩, by decide +kernel, by decide +kernel,
    by decide +kernel⟩

end Sys2Proof.Tests
end

section
/-!
The reasoning rules behind the statements about the state (10_state), and those statements: what one step can do to the
core, said once (`CoreStep`); the invariant of the machine, kept by each of these changes; the address map, the reserved
bits and the operand writes; the POW and LOG windows.
-/

namespace Sys2Proof.Machine

open Sys2Proof.Claims

/-! ### The host's side -/

/-- The state with another host side and another count of free values: no state of the core (log 1 to 3). -/
def withHost (host : HostAgent) (draws : Nat) (s : State) : State := { s with host := host, draws := draws }

@[simp] theorem withHost_ovr (host : HostAgent) (draws : Nat) (s : State) : (withHost host draws s).ovr = s.ovr := rfl

theorem takeTurn_eq_withHost (s : State) : takeTurn s = withHost (takeTurn s).host s.draws s := by
  unfold takeTurn; split <;> rfl

theorem setProgram_eq_withHost (ops : List HostOp) (s : State) :
    setProgram ops s = withHost { s.host with program := ops } s.draws s := rfl

theorem recordAssert_eq_withHost (v : Word) (s : State) :
    recordAssert v s = withHost (recordAssert v s).host s.draws s := rfl

theorem readLoc_eq_withHost (l : Loc) (s : State) :
    readLoc l s = withHost (readLoc l s).host (readLoc l s).draws s := by
  unfold readLoc; split <;> rfl

/-! ### What a step does to the core -/

theorem decode_of_runningCommand {s : State} {i : Instr} (h : runningCommand s = some i) :
    decode s.lastCmd = .ok i := by
  unfold runningCommand at h
  split at h
  · rename_i j hj; rw [hj, Option.some.inj h]
  · cases h

/-- Everything one step can do to the core, one constructor per kind of change (20_memory R91 to R93, 30_encoding R127,
R128; 60_exceptions R305; 10_state R35, R37, R42). -/
inductive CoreStep (s : State) : State → Prop where
  /-- The engine completes a command with success. -/
  | completes (i : Instr) (u : State) (engine : mover s = .engine) (word : decode s.lastCmd = .ok i)
      (effect : CommandEffect i (takeTurn s) u) : CoreStep s (complete u)
  /-- The engine completes a word, legal or not, with an error. -/
  | raises (e : Raise) (engine : mover s = .engine) (coded : e.code ≠ .noError) : CoreStep s (raiseError e (takeTurn s))
  /-- A read, an ignored write, or a host with nothing left to do. -/
  | hostOnly (host : HostAgent) (draws : Nat) : CoreStep s (withHost host draws s)
  /-- A write to CTRL with SRST = 1. -/
  | resets (host : HostAgent) (v : Word) (write : HostWrites s 0x008 v) (srst : v.getLsbD 1 = true) :
      CoreStep s (softReset (withHost host s.draws s))
  /-- A write to CTRL with SRST = 0. -/
  | setsIrqEn (host : HostAgent) (b : Bool) : CoreStep s { withHost host s.draws s with irqEn := b }
  /-- A write to STATUS. -/
  | clearsFlags (host : HostAgent) (v : Word) (write : HostWrites s 0x010 v) :
      CoreStep s (writeStatus v (withHost host s.draws s))
  /-- A write to CMD while IDLE. -/
  | accepts (host : HostAgent) (w : Word) (idle : s.phase = .idle) :
      CoreStep s (startCommand w (withHost host s.draws s))
  /-- A write to CMD or to an operand while BUSY. -/
  | overruns (host : HostAgent) : CoreStep s (setOvr (withHost host s.draws s))
  /-- A write to an operand while IDLE. -/
  | stores (host : HostAgent) (staged : Staging) (msg cw : Window) (opa opb : Word) (idle : s.phase = .idle) :
      CoreStep s { withHost host s.draws s with staged := staged, msg := msg, cw := cw, opa := opa, opb := opb }

/-- The step that a host write is. -/
theorem coreStep_writeLoc {s : State} {addr : Nat} {v : Word} (host : HostAgent) (hw : HostWrites s addr v)
    (hd : definedAt 4 addr = true) : CoreStep s (writeLoc (locate addr) v (withHost host s.draws s)) := by
  rcases writeLoc_cases (locate addr) v (withHost host s.draws s) with
    ⟨hl, h⟩ | ⟨-, h⟩ | ⟨hl, h⟩ | h | ⟨-, h⟩ | ⟨hp, h⟩
  · obtain rfl := regOffset_of_locate hd hl
    rw [h, writeCtrl]
    split
    · rename_i srst; exact .resets host v hw srst
    · exact .setsIrqEn host _
  · rw [h, acceptCommand]
    split
    · exact .overruns host
    · rename_i hb; exact .accepts host v ((busy_false_iff s).1 (Bool.eq_false_of_not_eq_true hb))
  · obtain rfl := regOffset_of_locate hd hl
    rw [h]; exact .clearsFlags host v hw
  · rw [h]; exact .hostOnly host s.draws
  · rw [h]; exact .overruns host
  · rw [h]; exact .stores host _ _ _ _ _ hp

/-- Every step is one of these changes of the core. -/
theorem coreStep_of_step {s t : State} (h : step s = .next t) : CoreStep s t := by
  rcases step_next h with ⟨hm, i, hi, he⟩ | ⟨hm, -, rfl⟩ | ⟨-, -, rfl⟩ | ⟨-, w, a, rest, -, -, rfl⟩ |
    ⟨hm, w, a, v, rest, hp, hd, rfl⟩ | ⟨-, a, v, rest, -, -, rfl⟩ | ⟨-, rest, -, ⟨-, rfl⟩ | ⟨-, rfl⟩⟩
  · rcases exec_next_coded he with ⟨u, hu, rfl⟩ | ⟨e, hc, rfl⟩
    · exact .completes i u hm (decode_of_runningCommand hi) hu
    · exact .raises e hm hc
  · exact .raises _ hm (by simp)
  · rw [takeTurn_eq_withHost]; exact .hostOnly _ _
  · rw [readLoc_eq_withHost, setProgram_eq_withHost, takeTurn_eq_withHost s]; exact .hostOnly _ _
  · obtain rfl : w = 4 := by simp [definedAt] at hd; exact hd.1.1
    rw [setProgram_eq_withHost, takeTurn_eq_withHost s]
    exact coreStep_writeLoc _ ⟨hm, rest, hp⟩ hd
  · rw [recordAssert_eq_withHost, readLoc_eq_withHost, setProgram_eq_withHost, takeTurn_eq_withHost s]
    exact .hostOnly _ _
  · rw [readLoc_eq_withHost, takeTurn_eq_withHost s]; exact .hostOnly _ _
  · rw [setProgram_eq_withHost, readLoc_eq_withHost, takeTurn_eq_withHost s]; exact .hostOnly _ _

/-! ### The tables DEC writes are short (44_decoder R232 to R250) -/

theorem shrink_le (m : Nat) (r : Poly) (syn : List Poly) (e : Nat) : shrink m r syn e ≤ e := by
  induction e with
  | zero => exact le_rfl
  | succ e ih =>
    rw [shrink]
    split
    · omega
    · exact le_rfl

theorem solveSyndromes_length {m e : Nat} {r : Poly} {syn u : List Poly} (h : solveSyndromes m r syn e = .ok u) :
    u.length = e := by
  obtain ⟨A, -, rfl⟩ := map_eq_ok h
  simp

theorem rootPositions_length_le (c : Code) (l : List Poly) : (rootPositions c l).length ≤ c.n :=
  (List.length_filter_le _ _).trans (by simp)

/-- Everything a successful DEC has found (44_decoder R233, R240 to R248). -/
theorem decodeWord_ok {c : Code} {rx : Poly} {dw : Decoded} (h : decodeWord c rx = .ok dw) :
    dw = ⟨syndromes c rx, 0, [1], [], 0⟩ ∨
    ∃ e u, e = shrink c.m c.r (syndromes c rx) c.t ∧ solveSyndromes c.m c.r (syndromes c rx) e = .ok u ∧
      dw = ⟨syndromes c rx, e, locator u, rootPositions c (locator u),
        maskOf c.n (rootPositions c (locator u))⟩ := by
  unfold decodeWord at h
  split at h
  · cases h
  · dsimp only at h
    split at h
    · obtain ⟨u, hu, hdw⟩ := map_eq_ok h
      exact .inr ⟨_, u, rfl, hu, hdw.symm⟩
    · exact .inl (Except.ok.inj h).symm

/-- No list DEC writes into a table is longer than n, for the t of R183. -/
theorem decodeWord_lengths {c : Code} {rx : Poly} {dw : Decoded} (h : decodeWord c rx = .ok dw) (hn : 3 ≤ c.n)
    (hd : c.d ≤ c.n) (ht : c.t = (c.d - 1) / 2) :
    dw.syn.length ≤ c.n ∧ dw.l.length ≤ c.n ∧ dw.pos.length ≤ c.n := by
  have hsyn : (syndromes c rx).length ≤ c.n := by simp [syndromes]; omega
  rcases decodeWord_ok h with rfl | ⟨e, u, rfl, hu, rfl⟩
  · exact ⟨hsyn, by simp; omega, by simp⟩
  · have he := shrink_le c.m c.r (syndromes c rx) c.t
    have hl := solveSyndromes_length hu
    exact ⟨hsyn, by simp [locator]; omega, rootPositions_length_le _ _⟩

/-! ### The invariant of the machine (10_state R37 to R39, R54, R70) -/

theorem legalMmax_le {mmax : Nat} (h : legalMmax mmax = true) : mmax ≤ 12 := by
  simp only [legalMmax, Bool.and_eq_true, decide_eq_true_eq] at h
  exact h.2

theorem codeOk_two_pow_m_le {mmax : Nat} {c : Code} (h : CodeOk mmax c) (hm : legalMmax mmax = true) :
    2 ^ c.m ≤ 4096 :=
  (Nat.pow_le_pow_right (by omega) (h.m_le.trans (legalMmax_le hm))).trans_eq (by norm_num : 2 ^ 12 = 4096)

theorem codeOk_n_le {mmax : Nat} {c : Code} (h : CodeOk mmax c) (hm : legalMmax mmax = true) : c.n ≤ 4096 :=
  (order_bound h.n_ge h.order).trans ((Nat.sub_le _ _).trans (codeOk_two_pow_m_le h hm))

/-- The tables DEC writes have the canonical form. -/
theorem decodeReceived_tableWf {mmax : Nat} {c : Code} {rx : Poly} {p : Poly × Diagnostics} (hc : CodeOk mmax c)
    (hm : legalMmax mmax = true) (h : decodeReceived c rx = .ok p) :
    tableWf p.2.syn = true ∧ tableWf p.2.elp = true ∧ tableWf p.2.errpos = true := by
  obtain ⟨dw, hdw, rfl⟩ := map_eq_ok h
  obtain ⟨hsyn, hl, hpos⟩ := decodeWord_lengths hdw hc.n_ge hc.d_le hc.t_eq
  have hn := codeOk_n_le hc hm
  exact ⟨tableWf_toTable (hsyn.trans hn), tableWf_toTable (hl.trans hn), tableWf_toTable (hpos.trans hn)⟩

theorem machineInv_withHost {s : State} (h : MachineInv s) (host : HostAgent) (draws : Nat) :
    MachineInv (withHost host draws s) := { h with }

theorem machineInv_takeTurn {s : State} (h : MachineInv s) : MachineInv (takeTurn s) := by
  rw [takeTurn_eq_withHost]; exact machineInv_withHost h _ _

/-- Power-on and soft reset, in a legal configuration (10_state R69, 70_reset_and_hazards R341). -/
theorem machineInv_reset {mmax : Nat} (h : legalMmax mmax = true) (host : HostAgent) (draws : Nat) :
    MachineInv { State.reset with mmax := mmax, host := host, draws := draws } where
  mmax_legal := h
  code_ok := by rintro c ⟨⟩
  code_b_lt := by rintro c ⟨⟩
  busy_clear := by rintro ⟨⟩
  info_clear _ := rfl
  err_coded := by rintro ⟨⟩
  syn_wf := rfl
  elp_wf := rfl
  errpos_wf := rfl

theorem machineInv_startCommand {s : State} (h : MachineInv s) (w : Word) : MachineInv (startCommand w s) :=
  { h with busy_clear := fun _ => ⟨rfl, rfl, rfl⟩, info_clear := fun _ => rfl, err_coded := by rintro ⟨⟩ }

theorem machineInv_complete {s : State} (h : MachineInv s) : MachineInv (complete s) :=
  { h with busy_clear := by rintro ⟨⟩, info_clear := fun _ => rfl, err_coded := by rintro ⟨⟩ }

theorem machineInv_raiseError {s : State} (h : MachineInv s) {e : Raise} (he : e.code ≠ .noError) :
    MachineInv (raiseError e s) :=
  { h with busy_clear := by rintro ⟨⟩, info_clear := fun hc => absurd hc he, err_coded := fun _ => he }

/-- Clearing flags sets none (10_state R37). -/
theorem machineInv_writeStatus {s : State} (h : MachineInv s) (v : Word) : MachineInv (writeStatus v s) :=
  { h with
    busy_clear := fun hb => by
      obtain ⟨hdone, herr, hcode⟩ := h.busy_clear hb
      exact ⟨by simp [writeStatus, hdone], by simp [writeStatus, herr], hcode⟩
    err_coded := fun he => h.err_coded (Bool.and_eq_true_iff.1 he).1 }

theorem machineInv_installCode {s : State} {c : Code} (h : MachineInv s) (hc : CodeOk s.mmax c) (hb : c.b < 2 ^ 32) :
    MachineInv (installCode c s) :=
  { h with
    code_ok := fun _ hc' => Option.some.inj hc' ▸ hc
    code_b_lt := fun _ hc' => Option.some.inj hc' ▸ hb }

theorem machineInv_setPair {s : State} (h : MachineInv s) (p : Nat × Nat) : MachineInv (setPair p s) := { h with }

/-- What a successful command writes keeps the invariant: only GEN and LOAD install a code, a checked one, and only DEC
writes tables. -/
theorem machineInv_of_commandEffect {i : Instr} {s u : State} (h : MachineInv s) (hu : CommandEffect i s u) :
    MachineInv u := by
  cases i with
  | nop => exact hu ▸ h
  | gen =>
    obtain ⟨c, hc, rfl⟩ := hu
    obtain ⟨m, r, pow, g, -, -, -, -, -, -, -, -, -, hmk⟩ := generate_ok hc
    have hb : c.b < 2 ^ 32 := by rw [hmk]; exact s.staged.b.isLt
    exact { machineInv_installCode h (generate_codeOk hc) hb with }
  | load =>
    obtain ⟨c, hc, rfl⟩ := hu
    obtain ⟨m, pow, -, -, -, -, -, -, -, -, -, hmk⟩ := loadRecord_ok hc
    have hb : c.b < 2 ^ 32 := by rw [hmk]; exact s.staged.b.isLt
    exact machineInv_installCode h (loadRecord_codeOk hc) hb
  | save => obtain ⟨c, -, rfl⟩ := hu; exact { h with }
  | enc => obtain ⟨c, p, -, -, rfl⟩ := hu; exact { h with }
  | dec =>
    obtain ⟨c, p, hc, hp, rfl⟩ := hu
    obtain ⟨hsyn, help, herrpos⟩ := decodeReceived_tableWf (h.code_ok c hc) h.mmax_legal hp
    exact { h with syn_wf := hsyn, elp_wf := help, errpos_wf := herrpos }
  | padd => exact hu ▸ machineInv_setPair h _
  | pmul => exact hu ▸ machineInv_setPair h _
  | pmod => obtain ⟨p, -, rfl⟩ := hu; exact machineInv_setPair h p
  | fred => obtain ⟨c, -, rfl⟩ := hu; exact machineInv_setPair h _
  | fmul => obtain ⟨c, -, rfl⟩ := hu; exact machineInv_setPair h _
  | fdiv => obtain ⟨c, p, -, -, rfl⟩ := hu; exact machineInv_setPair h p

/-! ### The address map (10_state R32, R40) -/

theorem definedAt_regOffset (name : Reg) : definedAt 4 (regOffset name) = true := by cases name <;> rfl

theorem locateReg_eq_reserved_iff (q : Nat) : locateReg (4 * q) = .reserved ↔ q = 7 ∨ 23 ≤ q := by
  by_cases hq : q < 23
  · interval_cases q <;> decide
  · have h : locateReg (4 * q) = .reserved := by
      unfold locateReg
      rw [Nat.mul_div_cancel_left q (by omega : 0 < 4)]
      split <;> first | omega | rfl
    exact iff_of_true h (by omega)

theorem locate_eq_reserved_iff {addr : Nat} (h4 : addr % 4 = 0) :
    locate addr = .reserved ↔
      addr = 0x01C ∨ (0x05C ≤ addr ∧ addr < 0x1000) ∨ (0x1800 ≤ addr ∧ addr < 0x4000) ∨ 0x18000 ≤ addr := by
  by_cases hreg : addr < 0x1000
  · obtain ⟨q, rfl⟩ := Nat.dvd_of_mod_eq_zero h4
    rw [locate, if_pos hreg, locateReg_eq_reserved_iff]
    omega
  · rw [locate, if_neg hreg]
    split_ifs <;> simp only [false_iff, true_iff] <;> omega

theorem busAccess_write_reg (name : Reg) (v : Word) (s : State) :
    busAccess (.write 4 (regOffset name) v) s = .next (writeReg name v s) := by
  rw [busAccess, if_pos (definedAt_regOffset name), locate_regOffset, writeLoc]

/-! ### Reserved bits, and what a write ignores (10_state R35, R37, R40) -/

theorem flagWord_getLsbD_of_ge (b4 b3 b2 b1 b0 : Bool) {i : Nat} (hi : 5 ≤ i) :
    (flagWord b4 b3 b2 b1 b0).getLsbD i = false := by
  obtain ⟨k, rfl⟩ := Nat.exists_eq_add_of_le' hi
  exact flagWord_getLsbD b4 b3 b2 b1 b0 (k + 5)

theorem flagWord_bit0_getLsbD (b : Bool) {i : Nat} (hi : 1 ≤ i) :
    (flagWord false false false false b).getLsbD i = false := by
  rw [flagWord_getLsbD]
  split
  · omega
  all_goals rfl

theorem toWord_getLsbD_of_lt {p i : Nat} (h : p < 2 ^ i) : (toWord p).getLsbD i = false := by
  rw [toWord, BitVec.getLsbD_ofNat, Nat.testBit_lt_two_pow h, Bool.and_false]

theorem errNumber_lt (c : ErrCode) : errNumber c < 2 ^ 8 := by cases c <;> decide

theorem hwcfg_getLsbD (s : State) {i : Nat} (hi : 4 ≤ i) : (peek s (.reg .hwcfg)).getLsbD i = false := by
  rw [peek, peekReg, BitVec.getLsbD_setWidth, BitVec.getLsbD_of_ge _ _ hi, Bool.and_false]

theorem hwcfg_toNat {s : State} (h : legalMmax s.mmax = true) : (peek s (.reg .hwcfg)).toNat = s.mmax := by
  have := legalMmax_le h
  rw [peek, peekReg, BitVec.toNat_setWidth, BitVec.toNat_ofNat]
  omega

/-- CTRL takes nothing from the bits above SRST. -/
theorem writeCtrl_reserved (v : Word) (s : State) : writeCtrl (v &&& 3) s = writeCtrl v s := by
  have h1 : (v &&& 3).getLsbD 1 = v.getLsbD 1 := by rw [BitVec.getLsbD_and]; exact Bool.and_true _
  have h0 : (v &&& 3).getLsbD 0 = v.getLsbD 0 := by rw [BitVec.getLsbD_and]; exact Bool.and_true _
  rw [writeCtrl, writeCtrl, h1, h0]

/-- STATUS takes nothing but the bits of DONE, ERR and OVR. -/
theorem writeStatus_reserved (v : Word) (s : State) : writeStatus (v &&& 0xE) s = writeStatus v s := by
  have h1 : (v &&& 0xE).getLsbD 1 = v.getLsbD 1 := by rw [BitVec.getLsbD_and]; exact Bool.and_true _
  have h2 : (v &&& 0xE).getLsbD 2 = v.getLsbD 2 := by rw [BitVec.getLsbD_and]; exact Bool.and_true _
  have h3 : (v &&& 0xE).getLsbD 3 = v.getLsbD 3 := by rw [BitVec.getLsbD_and]; exact Bool.and_true _
  rw [writeStatus, writeStatus, h1, h2, h3]

/-! ### Operand writes (10_state R42) -/

theorem isOperandLoc_reg {name : Reg} (h : isOperandLoc (.reg name) = true) :
    name = .cmd ∨ name = .n ∨ name = .b ∨ name = .d ∨ name = .r ∨ name = .opa ∨ name = .opb := by
  revert h; cases name <;> decide

theorem isOperandLoc_poly {w : PolyWin} {j : Nat} (h : isOperandLoc (.poly w j) = true) :
    w = .g ∨ w = .msg ∨ w = .cw := by
  cases w with
  | g => exact .inl rfl
  | msg => exact .inr (.inl rfl)
  | cw => exact .inr (.inr rfl)
  | errmask => cases h

theorem writeLoc_operand_busy {l : Loc} {s : State} (hl : isOperandLoc l = true) (hp : s.phase = .busy) (v : Word) :
    writeLoc l v s = setOvr s := by
  cases l with
  | reg name =>
    rcases isOperandLoc_reg hl with rfl | rfl | rfl | rfl | rfl | rfl | rfl
    · exact if_pos ((busy_iff s).2 hp)
    all_goals rw [writeLoc, writeReg]; exact storeOperand_busy hp
  | poly w j =>
    rcases isOperandLoc_poly hl with rfl | rfl | rfl
    all_goals rw [writeLoc, writeWindow]; exact storeOperand_busy hp
  | table t j => cases hl
  | reserved => cases hl

/-- An operand register other than CMD reads what was written to it, and no other register changes. -/
theorem peekReg_writeReg {name : Reg} {s : State} (hl : isOperandLoc (.reg name) = true) (hc : name ≠ .cmd)
    (hp : s.phase = .idle) (v : Word) (name' : Reg) :
    peekReg (writeReg name v s) name' = if name' = name then v else peekReg s name' := by
  rcases isOperandLoc_reg hl with rfl | rfl | rfl | rfl | rfl | rfl | rfl
  · exact absurd rfl hc
  all_goals rw [writeReg, storeOperand_idle hp]; cases name' <;> rfl

/-- A write to an operand window replaces one of its words, and no other window changes. -/
theorem peekWindow_writeWindow {w : PolyWin} {j : Nat} {s : State} (hl : isOperandLoc (.poly w j) = true)
    (hp : s.phase = .idle) (v : Word) (w' : PolyWin) :
    peekWindow (writeWindow w j v s) w' =
      if w' = w then setWindowWord (peekWindow s w) j v else peekWindow s w' := by
  rcases isOperandLoc_poly hl with rfl | rfl | rfl
  all_goals rw [writeWindow, storeOperand_idle hp]; cases w' <;> rfl

/-- A write to an operand register other than CMD leaves the windows and tables. -/
theorem peek_writeReg_frame {name : Reg} {s : State} (hl : isOperandLoc (.reg name) = true) (hc : name ≠ .cmd)
    (hp : s.phase = .idle) (v : Word) :
    (∀ w, peekWindow (writeReg name v s) w = peekWindow s w) ∧
      ∀ j t, peekTable (writeReg name v s) j t = peekTable s j t := by
  rcases isOperandLoc_reg hl with rfl | rfl | rfl | rfl | rfl | rfl | rfl
  · exact absurd rfl hc
  all_goals
    rw [writeReg, storeOperand_idle hp]
    exact ⟨fun w => by cases w <;> rfl, fun j t => by cases t <;> rfl⟩

/-- A write to an operand window leaves the registers and tables. -/
theorem peek_writeWindow_frame {w : PolyWin} {j : Nat} {s : State} (hl : isOperandLoc (.poly w j) = true)
    (hp : s.phase = .idle) (v : Word) :
    (∀ name, peekReg (writeWindow w j v s) name = peekReg s name) ∧
      ∀ k t, peekTable (writeWindow w j v s) k t = peekTable s k t := by
  rcases isOperandLoc_poly hl with rfl | rfl | rfl
  all_goals
    rw [writeWindow, storeOperand_idle hp]
    exact ⟨fun name => by cases name <;> rfl, fun k t => by cases t <;> rfl⟩

theorem peek_writeLoc_operand_self {l : Loc} {s : State} (hv : ValidLoc l) (hl : isOperandLoc l = true)
    (hp : s.phase = .idle) (v : Word) : peek (writeLoc l v s) l = v := by
  cases l with
  | reg name =>
    by_cases hc : name = .cmd
    · subst hc
      simp [writeLoc, writeReg, acceptCommand, busy, hp, peek, peekReg]
    · rw [writeLoc, peek, peekReg_writeReg hl hc hp, if_pos rfl]
  | poly w j =>
    rw [writeLoc, peek, peekWindow_writeWindow hl hp, if_pos rfl, windowWord_setWindowWord_self _ hv]
  | table t j => cases hl
  | reserved => cases hl

/-- CMD is left out: its write starts a command, which STATUS, ERRCODE and ERRINFO show (30_encoding R127). -/
theorem peek_writeLoc_operand_other {l l' : Loc} {s : State} (hl : isOperandLoc l = true) (hc : l ≠ .reg .cmd)
    (hp : s.phase = .idle) (hv' : ValidLoc l') (hne : l' ≠ l) (v : Word) : peek (writeLoc l v s) l' = peek s l' := by
  cases l with
  | reg name =>
    have hname : name ≠ .cmd := fun h => hc (congrArg _ h)
    obtain ⟨hwin, htable⟩ := peek_writeReg_frame hl hname hp v
    cases l' with
    | reg name' => exact (peekReg_writeReg hl hname hp v name').trans (if_neg fun h => hne (congrArg _ h))
    | poly w' j' => exact congrArg (windowWord · j') (hwin w')
    | table t' j' => exact htable j' t'
    | reserved => rfl
  | poly w j =>
    obtain ⟨hreg, htable⟩ := peek_writeWindow_frame hl hp v
    cases l' with
    | reg name' => exact hreg name'
    | poly w' j' =>
      rw [writeLoc, peek, peekWindow_writeWindow hl hp, peek]
      split
      · rename_i hww
        subst hww
        exact windowWord_setWindowWord_other _ hv' (fun h => hne (congrArg _ h)) v
      · rfl
    | table t' j' => exact htable j' t'
    | reserved => rfl
  | table t j => cases hl
  | reserved => cases hl

/-! ### What no command changes -/

theorem commandEffect_ovr {i : Instr} {s u : State} (h : CommandEffect i s u) : u.ovr = s.ovr := by
  rw [(commandEffect_frame h).1]

theorem commandEffect_mmax {i : Instr} {s u : State} (h : CommandEffect i s u) : u.mmax = s.mmax := by
  rw [(commandEffect_frame h).1]

/-- A command other than GEN and LOAD leaves the active code (10_state R54). -/
theorem commandEffect_code {i : Instr} {s u : State} (h : CommandEffect i s u) (hne : u.code ≠ s.code) :
    (i = .gen ∨ i = .load) ∧ u.code.isSome = true := by
  by_cases hg : i = .gen
  · subst hg; obtain ⟨c, -, rfl⟩ := h; exact ⟨.inl rfl, rfl⟩
  · by_cases hld : i = .load
    · subst hld; obtain ⟨c, -, rfl⟩ := h; exact ⟨.inr rfl, rfl⟩
    · exact absurd ((commandEffect_frame h).2.1 hg hld) hne

theorem coreStep_mmax {s t : State} (h : CoreStep s t) : t.mmax = s.mmax := by
  cases h with
  | completes i u _ _ effect => exact (commandEffect_mmax effect).trans (takeTurn_mmax s)
  | raises e _ _ => exact takeTurn_mmax s
  | hostOnly | resets | setsIrqEn | clearsFlags | accepts | overruns | stores => rfl

/-! ### The POW and LOG windows (10_state R59, R60) -/

theorem alphaSeq_ne_zero {m ord : Nat} {r : Poly} (hr : r ≠ 0) (ho : IsOrd m r ord) (h1 : 1 ≤ r.log2) (e : Nat) :
    alphaSeq r e ≠ 0 := by
  intro h
  obtain ⟨hord, -, hone, -⟩ := ho
  have he : toRing r 2 ^ e = 0 := by rw [← toRing_alphaSeq hr, h, toRing_zero]
  have hu : toRing r 2 ^ ord = 1 := by rw [← toRing_alphaSeq hr, hone, toRing_one]
  have h10 : toRing r 1 = toRing r 0 := by
    calc toRing r 1 = (toRing r 2 ^ ord) ^ e := by rw [hu, one_pow, toRing_one]
      _ = (toRing r 2 ^ e) ^ ord := by rw [← pow_mul, ← pow_mul, mul_comm]
      _ = toRing r 0 := by rw [he, zero_pow (by omega), toRing_zero]
  exact absurd ((toRing_inj hr (Nat.one_lt_two_pow (by omega)) (Nat.two_pow_pos _)).1 h10) (by decide)

theorem powEntry_of_code {s : State} {c : Code} (h : s.code = some c) (e : Nat) :
    powEntry s e = toWord (c.pow.getD e 0) := by rw [powEntry, h]

theorem logEntry_of_some {s : State} {c : Code} {v e : Nat} (h : s.code = some c) (hv : c.log.getD v none = some e) :
    logEntry s v = toWord e := by simp only [logEntry, h, hv]

theorem logEntry_of_none {s : State} {c : Code} {v : Nat} (h : s.code = some c) (hv : c.log.getD v none = none) :
    logEntry s v = nolog := by simp only [logEntry, h, hv]

section GoodCode

variable {mmax : Nat} {c : Code} (h : CodeOk mmax c)

include h

theorem codeOk_r_ne_zero : c.r ≠ 0 := (deg_eq_some.1 h.r_deg).1

theorem codeOk_r_log2 : c.r.log2 = c.m := (deg_eq_some.1 h.r_deg).2

theorem codeOk_one_le_log2 : 1 ≤ c.r.log2 := by
  have := h.m_ge
  rw [codeOk_r_log2 h]; omega

theorem codeOk_alphaSeq_lt (e : Nat) : alphaSeq c.r e < 2 ^ c.m :=
  codeOk_r_log2 h ▸ alphaSeq_lt (codeOk_r_ne_zero h) (codeOk_one_le_log2 h) e

theorem codeOk_alphaSeq_ne_zero (e : Nat) : alphaSeq c.r e ≠ 0 :=
  alphaSeq_ne_zero (codeOk_r_ne_zero h) h.ord_is (codeOk_one_le_log2 h) e

/-- CPOW past Cord reads 0 (10_state R59). -/
theorem codeOk_pow_getD (e : Nat) : c.pow.getD e 0 = if e < c.ord then alphaSeq c.r e else 0 := by
  split
  · rename_i he; exact h.tables.pow_entry e he
  · rename_i he; exact List.getD_eq_default _ _ (by rw [h.tables.pow_length]; omega)

/-- CLOG has no exponent for what is no power of alpha below Cord (10_state R60). -/
theorem codeOk_log_none {v : Nat} (hv : ∀ e < c.ord, alphaSeq c.r e ≠ v) : c.log.getD v none = none := by
  refine Option.eq_none_iff_forall_ne_some.2 fun e he => ?_
  obtain ⟨-, hlt, hpow⟩ := (h.tables.log_entry v e).1 he
  exact hv e hlt hpow

theorem codeOk_log_some {e : Nat} (he : e < c.ord) : c.log.getD (alphaSeq c.r e) none = some e :=
  (h.tables.log_entry _ e).2 ⟨codeOk_alphaSeq_lt h e, he, rfl⟩

theorem codeOk_ord_lt (hm : legalMmax mmax = true) : c.ord < 4096 := by
  have h1 := h.ord_is.2.1
  have h2 := codeOk_two_pow_m_le h hm
  have h3 := Nat.two_pow_pos c.m
  omega

end GoodCode

/-! ### The statements -/

/-- Settles O28: each kind of change of the core keeps the invariant. -/
theorem stepKeepsMachineInv : Obligations.StepKeepsMachineInv := by
  intro s t h hstep
  cases coreStep_of_step hstep with
  | completes i u _ _ effect => exact machineInv_complete (machineInv_of_commandEffect (machineInv_takeTurn h) effect)
  | raises e _ coded => exact machineInv_raiseError (machineInv_takeTurn h) coded
  | hostOnly host draws => exact machineInv_withHost h host draws
  | resets host v _ _ => exact machineInv_reset h.mmax_legal host s.draws
  | setsIrqEn host b => exact { h with }
  | clearsFlags host v _ => exact machineInv_writeStatus (machineInv_withHost h host s.draws) v
  | accepts host w _ => exact machineInv_startCommand (machineInv_withHost h host s.draws) w
  | overruns host => exact { h with }
  | stores host staged msg cw opa opb _ => exact { h with }

/-- Settles O12: by the address map, the bits of the flag words, and the bits a write to CTRL or STATUS looks at. -/
theorem reservedSpaceReadsZero : Obligations.ReservedSpaceReadsZero := by
  refine ⟨fun addr hd => ?_, fun _ => rfl, fun s v l hl => ?_, fun s i => ⟨?_, ?_, ?_, hwcfg_getLsbD s, ?_⟩,
    fun s v => ⟨(writeCtrl_reserved v s).symm, (writeStatus_reserved v s).symm⟩⟩
  · simp only [definedAt, Bool.and_eq_true, decide_eq_true_eq] at hd
    exact locate_eq_reserved_iff hd.1.2
  · rcases hl with rfl | ⟨t, j, rfl⟩ | ⟨j, rfl⟩ | hreg
    · rfl
    · rfl
    · rfl
    · fin_cases hreg <;> rfl
  · exact flagWord_bit0_getLsbD s.irqEn
  · exact flagWord_getLsbD_of_ge _ _ _ _ _
  · intro hi
    exact toWord_getLsbD_of_lt ((errNumber_lt s.errCode).trans_le (Nat.pow_le_pow_right (by omega) hi))
  · exact flagWord_bit0_getLsbD s.diag.synNz

/-- Settles O17: by the write rules of each operand; a host step that leaves the command BUSY is none of the changes
of the core that touch an operand. -/
theorem operandWriteStoredOrDropped : Obligations.OperandWriteStoredOrDropped := by
  refine ⟨fun s l v hv hl => ⟨fun hp => writeLoc_operand_busy hl hp v, fun hp =>
    ⟨peek_writeLoc_operand_self hv hl hp v, fun hc l' hv' hne => peek_writeLoc_operand_other hl hc hp hv' hne v⟩⟩,
    fun s t hbusy hhost hstep htbusy => ?_⟩
  cases coreStep_of_step hstep with
  | completes | raises | resets => cases htbusy
  | accepts host w idle => cases hbusy.symm.trans idle
  | stores host staged msg cw opa opb idle => cases hbusy.symm.trans idle
  | hostOnly | setsIrqEn | clearsFlags | overruns => exact ⟨rfl, rfl, rfl, rfl, rfl, rfl, rfl⟩

/-- Settles O25: only a STATUS write and the soft reset lower OVR. -/
theorem overrunIsSticky : Obligations.OverrunIsSticky := by
  intro s t hstep hovr htovr
  cases coreStep_of_step hstep with
  | completes i u _ _ effect => simp [commandEffect_ovr effect, hovr] at htovr
  | raises e _ _ => simp [hovr] at htovr
  | resets host v write srst => exact .inr ⟨v, write, srst⟩
  | clearsFlags host v write => exact .inl ⟨v, write, by simpa [writeStatus, hovr] using htovr⟩
  | overruns host => cases htovr
  | hostOnly | setsIrqEn | accepts | stores => cases hovr.symm.trans htovr

/-- Settles O26: of the changes of the core only a completion and the soft reset write the code, and of the commands only
GEN and LOAD do. -/
theorem activeCodeWriters : Obligations.ActiveCodeWriters := by
  intro s t hstep hne
  cases coreStep_of_step hstep with
  | completes i u engine word effect =>
    rw [complete_code, ← takeTurn_code s] at hne
    obtain ⟨hi, hsome⟩ := commandEffect_code effect hne
    exact .inl ⟨engine, hi.imp (fun hg => by rw [word, hg]) (fun hld => by rw [word, hld]), rfl, hsome⟩
  | raises e _ _ => exact absurd (takeTurn_code s) hne
  | resets host v write srst => exact .inr ⟨v, write, srst, rfl⟩
  | hostOnly | setsIrqEn | clearsFlags | accepts | overruns | stores => exact absurd rfl hne

/-- Settles O27: no change of the core writes MMAX. -/
theorem configurationIsConstant : Obligations.ConfigurationIsConstant := by
  refine ⟨fun _ => rfl, fun _ => hwcfg_toNat, fun s t hstep => ?_⟩
  have hm := coreStep_mmax (coreStep_of_step hstep)
  exact ⟨hm, by rw [peek, peekReg, hm, peek, peekReg]⟩

/-- Settles O38: by the tables of an active code; no power of alpha is 0, since alpha^ord = 1. -/
theorem powAndLogWindows : Obligations.PowAndLogWindows := by
  refine ⟨fun s hs j _ => ⟨by simp only [peek, peekTable, powEntry, hs],
      by simp only [peek, peekTable, logEntry, hs, nolog]⟩,
    fun s c hgood => ?_⟩
  obtain ⟨hm, hs, hc, -⟩ := hgood
  have hlog_none : ∀ v, (∀ e < c.ord, alphaSeq c.r e ≠ v) → peek s (.table .log v) = 0xFFFFFFFF :=
    fun v hv => logEntry_of_none hs (codeOk_log_none hc hv)
  refine ⟨fun e _ => ?_, fun v _ e he hv => ?_, fun v _ => hlog_none v,
    hlog_none 0 fun e _ => codeOk_alphaSeq_ne_zero hc e,
    fun e he e' he' => alphaSeq_injOn (codeOk_r_ne_zero hc) (codeOk_one_le_log2 hc) hc.ord_is he he',
    fun e _ => codeOk_alphaSeq_ne_zero hc e⟩
  · have hlt : c.pow.getD e 0 < 2 ^ 32 := by
      have h1 := (codeOk_alphaSeq_lt hc e).trans_le (codeOk_two_pow_m_le hc hm)
      rw [codeOk_pow_getD hc]
      split
      · exact h1.trans (by norm_num)
      · norm_num
    rw [peek, peekTable, powEntry_of_code hs, toWord_toNat hlt, codeOk_pow_getD hc]
  · subst hv
    have hlt : e < 2 ^ 32 := (he.trans (codeOk_ord_lt hc hm)).trans (by norm_num)
    rw [peek, peekTable, logEntry_of_some hs (codeOk_log_some hc he), toWord_toNat hlt]

/-- Settles O11: by where each register, window word and table entry is located. -/
theorem registerMapOffsets : Obligations.RegisterMapOffsets := by
  refine ⟨rfl, rfl, rfl, rfl, rfl, rfl, rfl, rfl, rfl, rfl, rfl, rfl, rfl, rfl, rfl, rfl, rfl, rfl, rfl, rfl, rfl, rfl,
    fun j hj => ⟨locate_windowWord .g hj, locate_windowWord .msg hj, locate_windowWord .cw hj,
      locate_windowWord .errmask hj⟩,
    fun j hj => ⟨locate_tableEntry .syn hj, locate_tableEntry .elp hj, locate_tableEntry .errpos hj,
      locate_tableEntry .pow hj, locate_tableEntry .log hj⟩,
    fun l hl hne => ?_⟩
  cases l with
  | reg name => exact ⟨locate_regOffset name, by cases name <;> decide⟩
  | poly w j =>
    have hj : j < 128 := hl
    exact ⟨locate_windowWord w hj, by cases w <;> simp only [locOffset, windowBase] <;> omega⟩
  | table t j =>
    have hj : j < 4096 := hl
    exact ⟨locate_tableEntry t hj, by cases t <;> simp only [locOffset, tableBase] <;> omega⟩
  | reserved => exact absurd rfl hne

/-- Settles O18: by the bits of a flag word and the write rule of STATUS. -/
theorem statusFieldsAndClear : Obligations.StatusFieldsAndClear := by
  intro s v
  have hbit : ∀ i, (peek s (.reg .status)).getLsbD i = _ := flagWord_getLsbD (codeValid s) s.ovr s.err s.done (busy s)
  exact ⟨by rw [hbit]; exact busy_iff s, hbit 1, hbit 2, hbit 3, hbit 4, busAccess_write_reg .status v s⟩

/-- Settles O19: by the bits of a flag word and the two branches of a write to CTRL. -/
theorem ctrlWriteAndSoftReset : Obligations.CtrlWriteAndSoftReset := by
  intro s v
  have hw : busAccess (.write 4 0x008 v) s = .next (writeCtrl v s) := busAccess_write_reg .ctrl v s
  refine ⟨⟨flagWord_getLsbD _ _ _ _ _ 0, fun i => flagWord_bit0_getLsbD s.irqEn⟩, fun hv => ?_, fun hv => ?_⟩
  · rw [hw, writeCtrl, if_pos hv]; rfl
  · rw [hw, writeCtrl, if_neg (ne_true_of_eq_false hv)]

/-- Settles O29: the state after reset has no code, no flag set and empty tables. -/
theorem resetHasMachineInv : Obligations.ResetHasMachineInv :=
  ⟨by decide, fun _ hm => machineInv_reset hm HostAgent.reset 0⟩

end Sys2Proof.Machine
end

section
/-!
The register block seen from the bus (20_memory), and the statements about it: which reads are free, what a read
returns, the coefficients of a window, and the byte lanes of a word.
-/

namespace Sys2Proof.Machine

open Sys2Proof.Claims

/-! ### The outputs of the running command (20_memory R92, R104) -/

theorem runningCommand_eq_some_iff {s : State} {i : Instr} : runningCommand s = some i ↔ decode s.lastCmd = .ok i :=
  ⟨decode_of_runningCommand, fun h => by rw [runningCommand, h]⟩

/-- The model's table of outputs is that of R104: every arm of the model is in a row of it, and every row of it in an
arm. -/
theorem isOutput_iff (i : Instr) (l : Loc) : isOutput i l = true ↔ OutputOf i l := by
  constructor
  · intro h
    unfold isOutput at h
    split at h <;> simp [OutputOf] at h ⊢
  · rintro (⟨rfl, rfl | ⟨j, rfl⟩⟩ | ⟨rfl | rfl, (rfl | rfl | rfl | rfl) | ⟨j, rfl | rfl⟩⟩ |
      ⟨rfl, (rfl | rfl | rfl | rfl) | ⟨j, rfl⟩⟩ | ⟨rfl, j, rfl⟩ |
      ⟨rfl, (rfl | rfl | rfl) | ⟨j, rfl | rfl | rfl | rfl | rfl⟩⟩ |
      ⟨rfl | rfl | rfl | rfl | rfl | rfl, rfl | rfl⟩) <;> rfl

theorem readsFree_iff (s : State) (l : Loc) :
    readsFree s l = true ↔ s.phase = .busy ∧ ∃ i, decode s.lastCmd = .ok i ∧ OutputOf i l := by
  rw [readsFree, Bool.and_eq_true, busy_iff]
  refine and_congr_right fun _ => ?_
  cases hr : runningCommand s with
  | none =>
    have hnone : ∀ i, decode s.lastCmd ≠ .ok i := fun i hi => by
      rw [runningCommand_eq_some_iff.2 hi] at hr; cases hr
    exact iff_of_false Bool.false_ne_true fun ⟨i, hi, _⟩ => hnone i hi
  | some i =>
    have hi := runningCommand_eq_some_iff.1 hr
    exact (isOutput_iff i l).trans
      ⟨fun ho => ⟨i, hi, ho⟩, fun ⟨j, hj, ho⟩ => Except.ok.inj (hj.symm.trans hi) ▸ ho⟩

/-- A location that no command has for an output reads exactly at all times. -/
theorem readsFree_eq_false {l : Loc} (h : ∀ i, ¬ OutputOf i l) (s : State) : readsFree s l = false :=
  Bool.eq_false_iff.2 fun hf => by
    obtain ⟨-, i, -, ho⟩ := (readsFree_iff s l).1 hf
    exact h i ho

/-! ### What a read returns (20_memory R92, R99; 10_state R55 to R58) -/

theorem readLoc_held {s : State} {l : Loc} (h : readsFree s l = false) :
    readLoc l s = { s with host := { s.host with readData := peek s l } } :=
  if_neg (ne_true_of_eq_false h)

theorem readLoc_free {s : State} {l : Loc} (h : readsFree s l = true) :
    readLoc l s = { s with host := { s.host with readData := Config.freeWord s.draws }, draws := s.draws + 1 } :=
  if_pos h

theorem codeView_of_none {s : State} (h : s.code = none) (f : Code → Nat) : codeView f s = 0 := by rw [codeView, h]

theorem codeView_toNat {s : State} {c : Code} (h : s.code = some c) {f : Code → Nat} (hf : f c ≤ 4096) :
    (codeView f s).toNat = f c := by
  rw [codeView, h]
  exact toWord_toNat (hf.trans_lt (by norm_num))

/-! ### The accesses that are defined (20_memory R97) -/

theorem definedAt_iff {width addr : Nat} :
    definedAt width addr = true ↔ width = 4 ∧ addr % 4 = 0 ∧ addr < 0x20000 := by
  simp only [definedAt, Bool.and_eq_true, decide_eq_true_eq, and_assoc]

/-! ### Offsets within a window and within a word (20_memory R94, R95) -/

theorem peek_window_getLsbD (s : State) (w : PolyWin) {i : Nat} (hi : i < 4096) :
    (peek s (locate (windowBase w + 4 * (i / 32)))).getLsbD (i % 32) = (peekWindow s w).getLsbD i := by
  have hloc : locate (windowBase w + 4 * (i / 32)) = .poly w (i / 32) := locate_windowWord w (by omega)
  rw [hloc, peek, windowWord_getLsbD, Nat.div_add_mod, decide_eq_true (Nat.mod_lt i (by norm_num)), Bool.true_and]

/-- The four bytes of a word stand at one location: the map has no boundary inside a word. -/
theorem locate_add_lane {addr j : Nat} (h4 : addr % 4 = 0) (hj : j < 4) : locate (addr + j) = locate addr := by
  have hlt : ∀ b, b % 4 = 0 → (addr + j < b ↔ addr < b) := fun b hb => by omega
  have hreg : locateReg (addr + j) = locateReg addr := by
    have hdiv : (addr + j) / 4 = addr / 4 := by omega
    rw [locateReg, locateReg, hdiv]
  have hsub : ∀ b, b % 4 = 0 → (addr + j - b) / 4 = (addr - b) / 4 := fun b hb => by omega
  unfold locate
  repeat' refine if_congr (hlt _ rfl) ?_ ?_
  · exact hreg
  all_goals simp (disch := decide) only [hsub]

/-! ### The statements -/

/-- Settles O15: the model's table of outputs is that of R104, and STATUS, ERRCODE, ERRINFO and CMD are not in it. -/
theorem onlyRunningOutputsReadFree : Obligations.OnlyRunningOutputsReadFree :=
  ⟨readsFree_iff, fun s => ⟨readsFree_eq_false (by simp [OutputOf]) s, readsFree_eq_false (by simp [OutputOf]) s,
    readsFree_eq_false (by simp [OutputOf]) s, readsFree_eq_false (by simp [OutputOf]) s⟩⟩

/-- Settles O13: the bus checks width, alignment and bound before it performs an access. -/
theorem undefinedAccessIsRefused : Obligations.UndefinedAccessIsRefused := by
  intro s width addr v
  refine ⟨fun hbad => ?_, fun hgood => ?_⟩
  · have hd : ¬ definedAt width addr = true := fun hd => by
      have := definedAt_iff.1 hd
      omega
    exact ⟨if_neg hd, if_neg hd⟩
  · have hd := definedAt_iff.2 hgood
    exact ⟨if_pos hd, if_pos hd⟩

/-- Settles O14: by the two branches of a read, the registers' values, and the bounds on an active code that let its
views fit a word. -/
theorem readReturnsHeldValue : Obligations.ReadReturnsHeldValue := by
  refine ⟨fun s l => ⟨readLoc_held, readLoc_free⟩, fun s => ?_, fun s hs => ?_, fun s c hgood => ?_⟩
  · have herr : peek s (.reg .errcode) = toWord (errNumber s.errCode) := rfl
    refine ⟨rfl, ?_, rfl, rfl, rfl, rfl, rfl, rfl, rfl, rfl, rfl, rfl, rfl,
      ⟨flagWord_getLsbD _ _ _ _ _ 0, fun i => flagWord_bit0_getLsbD s.diag.synNz⟩, fun j => ⟨rfl, rfl, rfl⟩⟩
    rw [herr]
    cases s.errCode <;> rfl
  · exact ⟨codeView_of_none hs _, codeView_of_none hs _, codeView_of_none hs _, codeView_of_none hs _⟩
  · obtain ⟨hm, hs, hc, -⟩ := hgood
    have hn := codeOk_n_le hc hm
    have hmn : c.m ≤ c.n := hc.order.2.1
    have hk := hc.k_eq
    have ht := hc.t_eq
    have hd := hc.d_le
    exact ⟨codeView_toNat hs (hmn.trans hn),
      (codeView_toNat hs (f := (·.k)) (by omega)).trans hk,
      (codeView_toNat hs (f := (·.t)) (by omega)).trans ht,
      codeView_toNat hs (codeOk_ord_lt hc hm).le⟩

/-- Settles O21: by where a window's word stands and which bits of the window it holds. -/
theorem windowCoefficientLayout : Obligations.WindowCoefficientLayout := fun s _ hi =>
  ⟨peek_window_getLsbD s .g hi, peek_window_getLsbD s .msg hi, peek_window_getLsbD s .cw hi,
    peek_window_getLsbD s .errmask hi⟩

/-- Settles O22: the byte at lane j is cut from the word at the aligned offset. -/
theorem byteLanesLittleEndian : Obligations.ByteLanesLittleEndian := by
  intro s addr j i h4 hj hi
  have hlane : (addr + j) % 4 = j := by omega
  rw [byteAt, locate_add_lane h4 hj, hlane, laneOf, BitVec.getLsbD_extractLsb', decide_eq_true hi, Bool.true_and]

end Sys2Proof.Machine
end

section
/-!
Command words (30_encoding R120 to R124), and the statements about them: the opcode map read in both directions, and the
words that are legal.
-/

namespace Sys2Proof

/-! ### The fields of a word (30_encoding R121) -/

theorem rsvdField_append_opField (w : Word) : rsvdField w ++ opField w = w :=
  (BitVec.extractLsb'_append_extractLsb'_eq_extractLsb' rfl).trans BitVec.extractLsb'_eq_self

@[simp] theorem opField_append (r : BitVec 24) (op : BitVec 8) : opField (r ++ op) = op :=
  BitVec.extractLsb'_append_eq_right

@[simp] theorem rsvdField_append (r : BitVec 24) (op : BitVec 8) : rsvdField (r ++ op) = r :=
  BitVec.extractLsb'_append_eq_left

/-! ### The opcode map (30_encoding R123) -/

theorem instrOf_opcodeOf (i : Instr) : instrOf (opcodeOf i) = some i := by cases i <;> rfl

/-- The two readings of the opcode map are inverse to each other. -/
theorem instrOf_eq_some_iff {op : BitVec 8} {i : Instr} : instrOf op = some i ↔ opcodeOf i = op := by
  refine ⟨fun h => BitVec.eq_of_toNat_eq ?_, fun h => h ▸ instrOf_opcodeOf i⟩
  unfold instrOf at h
  split at h
  case h_13 => cases h
  all_goals
    rename_i hop
    rw [hop, ← Option.some.inj h]
    rfl

/-- The OP values of the twelve commands are those of R123. -/
theorem exists_opcodeOf_iff {op : BitVec 8} : (∃ i, opcodeOf i = op) ↔ op.toNat ∈ legalOpcodes := by
  constructor
  · rintro ⟨i, rfl⟩
    cases i <;> decide
  · have hmap : legalOpcodes =
        [Instr.nop, .gen, .load, .save, .enc, .dec, .padd, .pmul, .pmod, .fred, .fmul, .fdiv].map
          (fun i => (opcodeOf i).toNat) := rfl
    rw [hmap, List.mem_map]
    rintro ⟨i, -, hi⟩
    exact ⟨i, BitVec.eq_of_toNat_eq hi⟩

/-! ### Decoding (30_encoding R124) -/

theorem decode_eq_ok_iff {w : Word} {i : Instr} :
    decode w = .ok i ↔ rsvdField w = 0 ∧ opcodeOf i = opField w := by
  rw [← instrOf_eq_some_iff]
  unfold decode
  split
  · rename_i hr; exact iff_of_false (by rintro ⟨⟩) fun h => hr h.1
  · rename_i hr
    rw [not_not] at hr
    cases instrOf (opField w) <;> simp [hr]

theorem decode_eq_ok_iff_encode {w : Word} {i : Instr} : decode w = .ok i ↔ encode i = w := by
  rw [decode_eq_ok_iff]
  constructor
  · rintro ⟨hr, hop⟩
    rw [encode, hop, ← hr, rsvdField_append_opField]
  · rintro rfl
    rw [encode, opField_append, rsvdField_append]
    exact ⟨rfl, rfl⟩

theorem decode_encode (i : Instr) : decode (encode i) = .ok i := decode_eq_ok_iff_encode.2 rfl

theorem decode_reservedField {w : Word} (h : rsvdField w ≠ 0) : decode w = .error .reservedField := if_pos h

theorem decode_reservedOpcode {w : Word} (hr : rsvdField w = 0) (hop : instrOf (opField w) = none) :
    decode w = .error .reservedOpcode := by
  rw [decode, if_neg (not_not.2 hr), hop]

/-! ### The statements -/

/-- Settles O1: the opcode map is read the same in both directions, and a word is its two fields. -/
theorem decodeAgreesWithEncode : Obligations.DecodeAgreesWithEncode := by
  refine ⟨fun w i => decode_eq_ok_iff_encode, fun w => ?_⟩
  calc (∃ i, decode w = .ok i) ↔ ∃ i, rsvdField w = 0 ∧ opcodeOf i = opField w :=
        exists_congr fun i => decode_eq_ok_iff
    _ ↔ rsvdField w = 0 ∧ ∃ i, opcodeOf i = opField w := exists_and_left
    _ ↔ rsvdField w = 0 ∧ (opField w).toNat ∈ legalOpcodes := and_congr_right fun _ => exists_opcodeOf_iff

/-- Settles O2: the five legal words are the encodings of their commands; the other two break R124 in one field each. -/
theorem specCommandWordsDecode : Obligations.SpecCommandWordsDecode :=
  ⟨decode_encode .nop, decode_encode .gen, decode_encode .dec, decode_encode .pmul, decode_encode .fdiv,
    decode_reservedOpcode rfl rfl, decode_reservedField (by decide)⟩

end Sys2Proof
end

section
/-!
One step of the machine (30_encoding R126 to R131), and the statements about it: which agent moves, what the engine's
and the host's step are, and how every command completes.
-/

namespace Sys2Proof.Machine

open Sys2Proof.Claims

/-! ### Which agent moves (30_encoding R126, R129) -/

theorem mover_busy {s : State} (h : s.phase = .busy) : mover s = s.host.turns.head?.getD .engine := by
  unfold mover
  cases ht : s.host.turns <;> rw [h] <;> rfl

theorem mover_eq_engine_iff {s : State} :
    mover s = .engine ↔ s.phase = .busy ∧ (s.host.turns = [] ∨ s.host.turns.head? = some .engine) := by
  cases hp : s.phase with
  | idle => rw [mover_idle hp]; exact iff_of_false (by decide) (by rintro ⟨⟨⟩, -⟩)
  | busy => rw [mover_busy hp]; cases s.host.turns <;> simp

theorem takeTurn_idle {s : State} (h : s.phase = .idle) : takeTurn s = s := by rw [takeTurn, h]

theorem takeTurn_turns_busy {s : State} (h : s.phase = .busy) : (takeTurn s).host.turns = s.host.turns.tail := by
  rw [takeTurn, h]

/-- A turn is no state of the core (log 2). -/
theorem takeTurn_frame (s : State) :
    takeTurn s = { s with host := { s.host with turns := (takeTurn s).host.turns } } := by
  unfold takeTurn; split <;> rfl

theorem step_of_engine {s : State} (h : mover s = .engine) : step s = engineStep (takeTurn s) := by rw [step, h]

theorem step_of_host {s : State} (h : mover s = .host) : step s = hostStep (takeTurn s) := by rw [step, h]

/-! ### The engine's step (30_encoding R124, R127, R128) -/

theorem engineStep_of_legal {s : State} {i : Instr} (h : decode s.lastCmd = .ok i) : engineStep s = exec i s := by
  rw [engineStep, runningCommand_eq_some_iff.2 h]

theorem engineStep_of_illegal {s : State} {e : Reject} (h : decode s.lastCmd = .error e) :
    engineStep s = .next (raiseError ⟨.illegalCommand, s.lastCmd.toNat⟩ s) := by
  have hr : runningCommand s = none := by rw [runningCommand, h]
  rw [engineStep, hr, finishIllegal]

theorem toWord_toNat_self (w : Word) : toWord w.toNat = w := by
  rw [toWord, BitVec.ofNat_toNat, BitVec.setWidth_eq]

/-- What 30_encoding R128 and 60_exceptions R305 say of every completion. -/
def HasCompleted (t : State) : Prop :=
  t.phase = .idle ∧ t.done = true ∧ (t.err = true ↔ t.errCode ≠ .noError) ∧ (t.errCode = .noError → t.errInfo = 0)

theorem hasCompleted_complete (u : State) : HasCompleted (complete u) := ⟨rfl, rfl, by simp, fun _ => rfl⟩

theorem hasCompleted_raiseError {e : Raise} (he : e.code ≠ .noError) (s : State) : HasCompleted (raiseError e s) :=
  ⟨rfl, rfl, iff_of_true rfl he, fun h => absurd h he⟩

theorem exec_completes (i : Instr) (s : State) : ∃ t, exec i s = .next t ∧ HasCompleted t := by
  obtain ⟨α, res, install, hx, hcoded⟩ := exec_eq_finish i s
  rw [hx]
  cases res with
  | ok a => exact ⟨_, rfl, hasCompleted_complete _⟩
  | error e => exact ⟨_, rfl, hasCompleted_raiseError (hcoded e rfl) s⟩

theorem engineStep_completes (s : State) : ∃ t, engineStep s = .next t ∧ HasCompleted t := by
  cases hd : decode s.lastCmd with
  | ok i => rw [engineStep_of_legal hd]; exact exec_completes i s
  | error e => exact ⟨_, engineStep_of_illegal hd, hasCompleted_raiseError (by simp) s⟩

/-! ### The host's step (30_encoding R132, R136) -/

theorem hostStep_idle {s : State} (h : s.host.program = []) : hostStep s = .next s := by rw [hostStep, h]

theorem hostStep_access {s : State} {a : Access} {rest : List HostOp} (h : s.host.program = .access a :: rest) :
    hostStep s = busAccess a (setProgram rest s) := by rw [hostStep, h]

theorem hostStep_assertRead {s : State} {addr : Nat} {v : Word} {rest : List HostOp}
    (h : s.host.program = .assertRead addr v :: rest) :
    hostStep s = if definedAt 4 addr then .next (recordAssert v (readLoc (locate addr) (setProgram rest s)))
      else .refused (.undefinedAccess 4 addr) := by rw [hostStep, h]

theorem busAccess_read {addr : Nat} (h : definedAt 4 addr = true) (s : State) :
    busAccess (.read 4 addr) s = .next (readLoc (locate addr) s) := if_pos h

/-! ### Runs of an idle host (30_encoding R129, R131) -/

theorem run_succ {s t : State} (h : step s = .next t) (k : Nat) :
    Host.Core.run core (k + 1) s = Host.Core.run core k t := by
  have hc : core.step s = .next t := h
  simp only [Host.Core.run, hc]

/-- While BUSY, a host with nothing left to do uses up its turns, and then the engine moves. -/
theorem run_to_engine {s : State} (hbusy : s.phase = .busy) (hprog : s.host.program = []) :
    ∃ k t, k ≤ s.host.turns.length ∧ Host.Core.run core k s = .next t ∧ mover t = .engine := by
  induction hturns : s.host.turns generalizing s with
  | nil => exact ⟨0, s, le_rfl, rfl, mover_eq_engine_iff.2 ⟨hbusy, .inl hturns⟩⟩
  | cons a rest ih =>
    cases a with
    | engine => exact ⟨0, s, Nat.zero_le _, rfl, mover_eq_engine_iff.2 ⟨hbusy, .inr (by rw [hturns]; rfl)⟩⟩
    | host =>
      have hhost : mover s = .host := by rw [mover_busy hbusy, hturns]; rfl
      have hstep : step s = .next (takeTurn s) := by
        rw [step_of_host hhost, hostStep_idle ((takeTurn_program s).trans hprog)]
      obtain ⟨k, t, hk, hrun, ht⟩ := ih ((takeTurn_phase s).trans hbusy) ((takeTurn_program s).trans hprog)
        (by rw [takeTurn_turns_busy hbusy, hturns, List.tail_cons])
      exact ⟨k + 1, t, Nat.succ_le_succ hk, (run_succ hstep k).trans hrun, ht⟩

/-! ### The statements -/

/-- Settles O6: the host uses up its turns, and the engine's step completes the word. -/
theorem acceptedCommandCompletes : Obligations.AcceptedCommandCompletes := by
  intro s hbusy hprog
  obtain ⟨k, t, hk, hrun, hengine⟩ := run_to_engine hbusy hprog
  obtain ⟨u, hu, hidle, hdone, -⟩ := engineStep_completes (takeTurn t)
  exact ⟨k, t, u, hk, hrun, hengine, (step_of_engine hengine).trans hu, hidle, hdone⟩

/-- Settles O7: a completion is a success or an error with a code. -/
theorem everyCommandCompletes : Obligations.EveryCommandCompletes := exec_completes

/-- Settles O3: a turn does not change the latched word. -/
theorem stepRunsLatchedCommand : Obligations.StepRunsLatchedCommand := by
  have hlatched : ∀ (s : State) (i : Instr), mover s = .engine → decode s.lastCmd = .ok i →
      step s = exec i (takeTurn s) := fun s i hm hd => by
    rw [step_of_engine hm, engineStep_of_legal (by rwa [takeTurn_lastCmd])]
  refine ⟨hlatched, takeTurn_frame, fun s w i hd hw => ?_⟩
  have hword : (s.withFetchWord 32 w).lastCmd = BitVec.ofNat 32 w := congrArg (BitVec.ofNat 32) (Nat.mod_eq_of_lt hw)
  have hturn : takeTurn (s.withFetchWord 32 w) = s.withFetchWord 32 w := rfl
  rw [hlatched _ i rfl (by rwa [hword]), hturn]

/-- Settles O4: by who moves and the host's step for each form of its next operation. -/
theorem stepsOfEngineAndHost : Obligations.StepsOfEngineAndHost := by
  refine ⟨fun s => mover_eq_engine_iff, fun s => step_of_host, fun s hp => ⟨mover_idle hp, takeTurn_idle hp⟩,
    fun s hp hhead => by rw [mover_busy hp, hhead]; rfl, fun s => takeTurn_turns_busy,
    fun s a rest hm hprog => ?_, fun s addr v rest hm hprog => ?_, fun s hm hprog => ?_⟩
  · rw [step_of_host hm, hostStep_access ((takeTurn_program s).trans hprog)]
    rfl
  · rw [step_of_host hm, hostStep_assertRead ((takeTurn_program s).trans hprog)]
    refine ⟨fun ⟨h4, hlt⟩ => ?_, fun hbad => if_neg fun hd => ?_⟩
    · have hd : definedAt 4 addr = true := definedAt_iff.2 ⟨rfl, h4, hlt⟩
      refine ⟨_, busAccess_read hd _, (if_pos hd).trans ?_⟩
      simp [recordAssert, setProgram]
    · obtain ⟨-, h4, hlt⟩ := definedAt_iff.1 hd
      omega
  · rw [step_of_host hm, hostStep_idle ((takeTurn_program s).trans hprog)]

/-- Settles O5: the error completion of a rejected word, whose ERRINFO is the word. -/
theorem illegalWordCompletes : Obligations.IllegalWordCompletes := by
  intro s e hm hd
  rw [step_of_engine hm, engineStep_of_illegal (by rwa [takeTurn_lastCmd]), takeTurn_lastCmd, raiseError,
    toWord_toNat_self]

/-- Settles O16: the two branches of a write to CMD. -/
theorem commandAcceptOrDrop : Obligations.CommandAcceptOrDrop := by
  intro s w
  have hw : busAccess (.write 4 0x00C w) s = .next (acceptCommand w s) := busAccess_write_reg .cmd w s
  refine ⟨fun hidle => ?_, fun hbusy => ?_⟩
  · rw [hw, acceptCommand, (busy_false_iff s).2 hidle]; rfl
  · rw [hw, acceptCommand, (busy_iff s).2 hbusy]; rfl

end Sys2Proof.Machine
end

section
/-!
What a command reads and writes (30_encoding R123, R130; 20_memory R104), and the statements about it: the locations
that each installed result leaves, and the operands that determine it.
-/

namespace Sys2Proof.Machine

open Sys2Proof.Claims

/-! ### The outputs of the commands (20_memory R104) -/

/-- The six commands of 41_field_arithmetic, whose outputs are RESLO and RESHI. -/
def arithmeticCommands : List Instr := [.padd, .pmul, .pmod, .fred, .fmul, .fdiv]

theorem outputOf_arithmetic {i : Instr} (hi : i ∈ arithmeticCommands) (l : Loc) :
    OutputOf i l ↔ l = .reg .reslo ∨ l = .reg .reshi := by
  fin_cases hi <;> simp [OutputOf]

theorem outputOf_not_status {i : Instr} {l : Loc} (h : OutputOf i l) : ¬ IsStatusLoc l := by
  rintro (rfl | rfl | rfl) <;> simp [OutputOf] at h

theorem outputOf_gen_of_load {l : Loc} (h : OutputOf .load l) : OutputOf .gen l := by
  simp only [OutputOf, reduceCtorEq, false_and, false_or, or_false, or_true, true_and] at h
  exact .inr (.inl ⟨.inl rfl, h⟩)

theorem commandEffect_arithmetic {i : Instr} {s u : State} (hi : i ∈ arithmeticCommands) (h : CommandEffect i s u) :
    ∃ p, u = setPair p s := by
  fin_cases hi
  · exact ⟨_, h⟩
  · exact ⟨_, h⟩
  · obtain ⟨p, -, hu⟩ := h; exact ⟨p, hu⟩
  · obtain ⟨c, -, hu⟩ := h; exact ⟨_, hu⟩
  · obtain ⟨c, -, hu⟩ := h; exact ⟨_, hu⟩
  · obtain ⟨c, p, -, -, hu⟩ := h; exact ⟨p, hu⟩

/-! ### What each installed result leaves -/

theorem peek_setPair {l : Loc} (hlo : l ≠ .reg .reslo) (hhi : l ≠ .reg .reshi) (p : Nat × Nat) (s : State) :
    peek (setPair p s) l = peek s l := by
  cases l with
  | reg name =>
    cases name
    case reslo => exact absurd rfl hlo
    case reshi => exact absurd rfl hhi
    all_goals rfl
  | poly w j => cases w <;> rfl
  | table t j => cases t <;> rfl
  | reserved => rfl

theorem peek_setCw {l : Loc} (h : isOutput .enc l = false) (p : Poly) (s : State) :
    peek (setCw p s) l = peek s l := by
  cases l with
  | reg name => cases name <;> rfl
  | poly w j =>
    cases w
    case cw => cases h
    all_goals rfl
  | table t j => cases t <;> rfl
  | reserved => rfl

theorem peek_installDecoded {l : Loc} (h : isOutput .dec l = false) (p : Poly × Diagnostics) (s : State) :
    peek (installDecoded p s) l = peek s l := by
  cases l with
  | reg name =>
    cases name
    case decE | decNerr | decFlags => cases h
    all_goals rfl
  | poly w j =>
    cases w
    case msg | errmask => cases h
    all_goals rfl
  | table t j =>
    cases t
    case syn | elp | errpos => cases h
    all_goals rfl
  | reserved => rfl

theorem peek_setRecord {l : Loc} (h : isOutput .save l = false) (c : Code) (s : State) :
    peek (setRecord c s) l = peek s l := by
  cases l with
  | reg name =>
    cases name
    case n | b | d | r => cases h
    all_goals rfl
  | poly w j =>
    cases w
    case g => cases h
    all_goals rfl
  | table t j => cases t <;> rfl
  | reserved => rfl

/-- STATUS shows CV (10_state R37). -/
theorem peek_installCode {l : Loc} (h : isOutput .load l = false) (hst : l ≠ .reg .status) (c : Code) (s : State) :
    peek (installCode c s) l = peek s l := by
  cases l with
  | reg name =>
    cases name
    case status => exact absurd rfl hst
    case codeM | codeK | codeT | codeOrd => cases h
    all_goals rfl
  | poly w j => cases w <;> rfl
  | table t j =>
    cases t
    case pow | log => cases h
    all_goals rfl
  | reserved => rfl

theorem peek_setGenerated {l : Loc} (h : isOutput .gen l = false) (r g : Poly) (s : State) :
    peek (setGenerated r g s) l = peek s l := by
  cases l with
  | reg name =>
    cases name
    case r => cases h
    all_goals rfl
  | poly w j =>
    cases w
    case g => cases h
    all_goals rfl
  | table t j => cases t <;> rfl
  | reserved => rfl

/-- A completion shows in STATUS, ERRCODE and ERRINFO only (30_encoding R128, 60_exceptions R305). -/
theorem peek_completion {l : Loc} (h : ¬ IsStatusLoc l) (s : State) (code : ErrCode) (info : Word) (err : Bool) :
    peek { s with errCode := code, errInfo := info, err := err, done := true, phase := .idle } l = peek s l := by
  cases l with
  | reg name =>
    cases name
    case status => exact absurd (.inl rfl) h
    case errcode => exact absurd (.inr (.inl rfl)) h
    case errinfo => exact absurd (.inr (.inr rfl)) h
    all_goals rfl
  | poly w j => cases w <;> rfl
  | table t j => cases t <;> rfl
  | reserved => rfl

theorem peek_complete {l : Loc} (h : ¬ IsStatusLoc l) (s : State) : peek (complete s) l = peek s l :=
  peek_completion h s .noError 0 false

theorem peek_raiseError {l : Loc} (h : ¬ IsStatusLoc l) (e : Raise) (s : State) : peek (raiseError e s) l = peek s l :=
  peek_completion h s e.code (toWord e.info) true

theorem peek_commandEffect {i : Instr} {s u : State} {l : Loc} (h : CommandEffect i s u) (hout : ¬ OutputOf i l)
    (hst : ¬ IsStatusLoc l) : peek u l = peek s l := by
  have ho : isOutput i l = false := Bool.eq_false_iff.2 (mt (isOutput_iff i l).1 hout)
  cases i with
  | nop => rw [h]
  | gen =>
    obtain ⟨c, -, rfl⟩ := h
    have hload : isOutput .load l = false :=
      Bool.eq_false_iff.2 fun hl => hout (outputOf_gen_of_load ((isOutput_iff _ _).1 hl))
    exact (peek_setGenerated ho c.r c.g _).trans (peek_installCode hload (fun hl => hst (.inl hl)) c s)
  | load => obtain ⟨c, -, rfl⟩ := h; exact peek_installCode ho (fun hl => hst (.inl hl)) c s
  | save => obtain ⟨c, -, rfl⟩ := h; exact peek_setRecord ho c s
  | enc => obtain ⟨c, p, -, -, rfl⟩ := h; exact peek_setCw ho p s
  | dec => obtain ⟨c, p, -, -, rfl⟩ := h; exact peek_installDecoded ho p s
  | padd | pmul | pmod | fred | fmul | fdiv =>
    obtain ⟨p, rfl⟩ := commandEffect_arithmetic (by decide) h
    rw [outputOf_arithmetic (by decide), not_or] at hout
    exact peek_setPair hout.1 hout.2 p s

theorem peek_exec {i : Instr} {s t : State} {l : Loc} (h : exec i s = .next t) (hout : ¬ OutputOf i l)
    (hst : ¬ IsStatusLoc l) : peek t l = peek s l := by
  rcases exec_next h with ⟨u, hu, rfl⟩ | ⟨e, rfl⟩
  · rw [peek_complete hst, peek_commandEffect hu hout hst]
  · exact peek_raiseError hst e s

/-! ### The operands (30_encoding R130) -/

/-- The configuration, the operand registers and the active code are the same in both states. -/
structure SameOperands (s s' : State) : Prop where
  mmax : s.mmax = s'.mmax
  staged : s.staged = s'.staged
  msg : s.msg = s'.msg
  cw : s.cw = s'.cw
  opa : s.opa = s'.opa
  opb : s.opb = s'.opb
  code : s.code = s'.code

/-- The active code and every output of the command are the same in both states. -/
def SameOutputs (i : Instr) (u u' : State) : Prop := u.code = u'.code ∧ ∀ l, OutputOf i l → peek u l = peek u' l

theorem sameOutputs_setPair {i : Instr} (hi : i ∈ arithmeticCommands) {s s' : State} (h : SameOperands s s')
    (p : Nat × Nat) : SameOutputs i (setPair p s) (setPair p s') := by
  refine ⟨h.code, fun l hl => ?_⟩
  rcases (outputOf_arithmetic hi l).1 hl with rfl | rfl <;> rfl

theorem sameOutputs_installCode {s s' : State} (c : Code) :
    SameOutputs .load (installCode c s) (installCode c s') := by
  refine ⟨rfl, fun l hl => ?_⟩
  simp only [OutputOf, reduceCtorEq, false_and, false_or, or_false, or_true, true_and] at hl
  rcases hl with (rfl | rfl | rfl | rfl) | ⟨j, rfl | rfl⟩ <;> rfl

theorem sameOutputs_installGenerated {s s' : State} (c : Code) :
    SameOutputs .gen (installGenerated c s) (installGenerated c s') := by
  refine ⟨rfl, fun l hl => ?_⟩
  simp only [OutputOf, reduceCtorEq, false_and, or_false, true_and] at hl
  rcases hl with (rfl | ⟨j, rfl⟩) | (rfl | rfl | rfl | rfl) | ⟨j, rfl | rfl⟩ <;> rfl

theorem sameOutputs_setRecord {s s' : State} (h : SameOperands s s') (c : Code) :
    SameOutputs .save (setRecord c s) (setRecord c s') := by
  refine ⟨h.code, fun l hl => ?_⟩
  simp only [OutputOf, reduceCtorEq, false_and, false_or, or_false, true_and] at hl
  rcases hl with (rfl | rfl | rfl | rfl) | ⟨j, rfl⟩ <;> rfl

theorem sameOutputs_setCw {s s' : State} (h : SameOperands s s') (p : Poly) :
    SameOutputs .enc (setCw p s) (setCw p s') := by
  refine ⟨h.code, fun l hl => ?_⟩
  simp only [OutputOf, reduceCtorEq, false_and, false_or, or_false, true_and] at hl
  obtain ⟨j, rfl⟩ := hl
  rfl

theorem sameOutputs_installDecoded {s s' : State} (h : SameOperands s s') (p : Poly × Diagnostics) :
    SameOutputs .dec (installDecoded p s) (installDecoded p s') := by
  refine ⟨h.code, fun l hl => ?_⟩
  simp only [OutputOf, reduceCtorEq, false_and, false_or, or_false, true_and] at hl
  rcases hl with (rfl | rfl | rfl) | ⟨j, rfl | rfl | rfl | rfl | rfl⟩ <;> rfl

/-- In both states a command is the completion step of one result, and installing it gives the same outputs. -/
theorem exec_eq_finish_of_sameOperands (i : Instr) {s s' : State} (h : SameOperands s s') :
    ∃ (α : Type) (res : Except Raise α) (install : α → State → State),
      exec i s = finish s res install ∧ exec i s' = finish s' res install ∧
      ∀ a, SameOutputs i (install a s) (install a s') := by
  have hneed : needCode s = needCode s' := by rw [needCode, needCode, h.code]
  have hmsg : msgPoly s = msgPoly s' := congrArg BitVec.toNat h.msg
  have hcw : cwPoly s = cwPoly s' := congrArg BitVec.toNat h.cw
  have hA : opA s = opA s' := congrArg BitVec.toNat h.opa
  have hB : opB s = opB s' := congrArg BitVec.toNat h.opb
  cases i with
  | nop => exact ⟨Unit, .ok (), fun _ u => u, rfl, rfl, fun _ => ⟨h.code, fun l hl => by simp [OutputOf] at hl⟩⟩
  | gen => exact ⟨_, _, _, rfl, by rw [h.mmax, h.staged]; rfl, sameOutputs_installGenerated⟩
  | load => exact ⟨_, _, _, rfl, by rw [h.mmax, h.staged]; rfl, sameOutputs_installCode⟩
  | save => exact ⟨_, _, _, rfl, by rw [hneed]; rfl, sameOutputs_setRecord h⟩
  | enc => exact ⟨_, _, _, rfl, by rw [hneed, hmsg]; rfl, sameOutputs_setCw h⟩
  | dec => exact ⟨_, _, _, rfl, by rw [hneed, hcw]; rfl, sameOutputs_installDecoded h⟩
  | padd => exact ⟨_, .ok (padd (opA s) (opB s), 0), _, rfl, by rw [hA, hB]; rfl, sameOutputs_setPair (by decide) h⟩
  | pmul =>
    exact ⟨_, .ok (pmul (opA s) (opB s) % 2 ^ 32, pmul (opA s) (opB s) >>> 32), _, rfl, by rw [hA, hB]; rfl,
      sameOutputs_setPair (by decide) h⟩
  | pmod => exact ⟨_, _, _, rfl, by rw [hA, hB]; rfl, sameOutputs_setPair (by decide) h⟩
  | fred => exact ⟨_, _, _, rfl, by rw [hneed, hA]; rfl, sameOutputs_setPair (by decide) h⟩
  | fmul => exact ⟨_, _, _, rfl, by rw [hneed, hA, hB]; rfl, sameOutputs_setPair (by decide) h⟩
  | fdiv => exact ⟨_, _, _, rfl, by rw [hneed, hA, hB]; rfl, sameOutputs_setPair (by decide) h⟩

/-! ### The statements -/

/-- Settles O9: a byte is a lane of the word at its location, and no command writes that word. -/
theorem commandWritesOnlyItsOutputs : Obligations.CommandWritesOnlyItsOutputs := by
  intro i s t h
  refine ⟨fun addr hout hst => by rw [byteAt, peek_exec h hout hst, byteAt], ?_⟩
  rcases exec_next h with ⟨u, hu, rfl⟩ | ⟨e, rfl⟩
  · obtain ⟨hframe, hcode, -⟩ := commandEffect_frame hu
    rw [hframe] at hcode ⊢
    exact ⟨rfl, rfl, rfl, rfl, hcode⟩
  · exact ⟨rfl, rfl, rfl, rfl, fun _ _ => rfl⟩

/-- Settles O10: the operands fix the result, and an output shows nothing but the result. -/
theorem resultDependsOnOperandsOnly : Obligations.ResultDependsOnOperandsOnly := by
  intro i s s' t t' hmmax hstaged hmsg hcw hopa hopb hcode ht ht'
  obtain ⟨α, res, install, hx, hx', hsame⟩ :=
    exec_eq_finish_of_sameOperands i ⟨hmmax, hstaged, hmsg, hcw, hopa, hopb, hcode⟩
  rw [hx] at ht
  rw [hx'] at ht'
  cases res with
  | ok a =>
    cases ht
    cases ht'
    obtain ⟨hc, houtputs⟩ := hsame a
    refine ⟨rfl, rfl, rfl, hc, fun _ l hl => ?_⟩
    rw [peek_complete (outputOf_not_status hl), peek_complete (outputOf_not_status hl), houtputs l hl]
  | error e =>
    cases ht
    cases ht'
    exact ⟨rfl, rfl, rfl, hcode, by rintro ⟨⟩⟩

end Sys2Proof.Machine
end

section
/-!
Host programs (30_encoding R132 to R136), and the statement about them: the step of a `wait`, the transfers that an
encoded `wait` stands for, and the transfers of a run.
-/

namespace Sys2Proof.Machine

open Sys2Proof.Claims

/-! ### The step of a wait (30_encoding R133) -/

theorem peek_status_takeTurn (s : State) : peek (takeTurn s) (.reg .status) = peek s (.reg .status) := by
  rw [takeTurn_eq_withHost]
  rfl

theorem status_bit0_iff (s : State) : (peek s (.reg .status)).getLsbD 0 = true ↔ s.phase = .busy :=
  (statusFieldsAndClear s 0).1

theorem readLoc_status (s : State) :
    readLoc (.reg .status) s = { s with host := { s.host with readData := peek s (.reg .status) } } :=
  readLoc_held (onlyRunningOutputsReadFree.2 s).1

/-- A wait reads STATUS, and stays exactly while BUSY. -/
theorem hostStep_wait {s : State} {rest : List HostOp} (h : s.host.program = .wait :: rest) :
    hostStep s = .next { s with host := { s.host with
      readData := peek s (.reg .status), program := if s.phase = .busy then .wait :: rest else rest } } := by
  rw [hostStep, h]
  simp only [readLoc_status, status_bit0_iff]
  split
  · rw [← h]
  · rfl

/-! ### The encoding of a program (30_encoding R134) -/

theorem encodeProgram_singleton (l : Line) : encodeProgram [l] = (expandLine l).map transactionOf := by
  rw [encodeProgram, expandProgram, List.flatMap_singleton]

theorem encodeProgram_append (ls ls' : List Line) :
    encodeProgram (ls ++ ls') = encodeProgram ls ++ encodeProgram ls' := by
  simp only [encodeProgram, expandProgram, List.flatMap_append, List.map_append]

/-! ### The transfers an encoding stands for (30_encoding R129, R134) -/

/-- A transfer that a transaction admits stands for it, or for one repetition of it. -/
theorem unrolls_cons {x : Transaction} {y : Transfer} (h : admitsTransfer x y = true) (ys : List Transfer)
    (xs : List Transaction) :
    unrolls (y :: ys) (x :: xs) = unrolls ys (if repeatsAfter x y then x :: xs else xs) := by
  rw [unrolls, h, Bool.true_and]
  split <;> rfl

/-- The encoding of `wait`. -/
def waitTransaction : Transaction := ⟨.read, 0x010, .untilClear⟩

theorem eq_of_admitsTransfer_wait {y : Transfer} (h : admitsTransfer waitTransaction y = true) :
    y = ⟨.read, 0x010, y.data⟩ := by
  obtain ⟨dir, offset, data⟩ := y
  simp only [admitsTransfer, Bool.and_eq_true, decide_eq_true_eq] at h
  obtain ⟨⟨rfl, rfl⟩, -⟩ := h
  rfl

theorem repeatsAfter_wait (y : Transfer) : repeatsAfter waitTransaction y = y.data.getLsbD 0 := rfl

theorem unrolls_wait_busy {v : Word} (hv : v.getLsbD 0 = true) (ys : List Transfer) (xs : List Transaction) :
    unrolls (⟨.read, 0x010, v⟩ :: ys) (waitTransaction :: xs) = unrolls ys (waitTransaction :: xs) := by
  rw [unrolls_cons rfl, repeatsAfter_wait, hv, if_pos rfl]

theorem unrolls_wait_clear {v : Word} (hv : v.getLsbD 0 = false) (ys : List Transfer) (xs : List Transaction) :
    unrolls (⟨.read, 0x010, v⟩ :: ys) (waitTransaction :: xs) = unrolls ys xs := by
  rw [unrolls_cons rfl, repeatsAfter_wait, hv, if_neg Bool.false_ne_true]

theorem unrolls_wait_iff (ys : List Transfer) (xs : List Transaction) :
    unrolls ys (waitTransaction :: xs) = true ↔
      ∃ (busyReads : List Word) (last : Word) (ys' : List Transfer),
        ys = busyReads.map (fun v => ⟨.read, 0x010, v⟩) ++ ⟨.read, 0x010, last⟩ :: ys' ∧
        (∀ v ∈ busyReads, v.getLsbD 0 = true) ∧ last.getLsbD 0 = false ∧ unrolls ys' xs = true := by
  constructor
  · intro h
    induction ys with
    | nil => cases h
    | cons y ys ih =>
      have hy : y = ⟨.read, 0x010, y.data⟩ := eq_of_admitsTransfer_wait (Bool.and_eq_true_iff.1 h).1
      rw [hy] at h ⊢
      cases hv : y.data.getLsbD 0 with
      | true =>
        rw [unrolls_wait_busy hv] at h
        obtain ⟨busyReads, last, ys', rfl, hbusy, hlast, hrest⟩ := ih h
        exact ⟨y.data :: busyReads, last, ys', rfl, List.forall_mem_cons.2 ⟨hv, hbusy⟩, hlast, hrest⟩
      | false =>
        rw [unrolls_wait_clear hv] at h
        exact ⟨[], y.data, ys, rfl, by simp, hv, h⟩
  · rintro ⟨busyReads, last, ys', rfl, hbusy, hlast, hrest⟩
    induction busyReads with
    | nil => exact (unrolls_wait_clear hlast ys' xs).trans hrest
    | cons v vs ih =>
      obtain ⟨hv, hvs⟩ := List.forall_mem_cons.1 hbusy
      exact (unrolls_wait_busy hv _ xs).trans (ih hvs)

/-! ### The transfers of a run (30_encoding R134, 20_memory R101) -/

theorem run_succ_next {k : Nat} {s t : State} (h : Host.Core.run core (k + 1) s = .next t) :
    ∃ u, step s = .next u ∧ Host.Core.run core k u = .next t := by
  cases hu : step s with
  | next u => exact ⟨u, rfl, (run_succ hu k).symm.trans h⟩
  | fault r =>
    have hc : core.step s = .fault r := hu
    simp [Host.Core.run, hc] at h
  | refused r =>
    have hc : core.step s = .refused r := hu
    simp [Host.Core.run, hc] at h

theorem transfers_succ {s u : State} (h : step s = .next u) (k : Nat) :
    transfers (k + 1) s = (stepTransfer s u).toList ++ transfers k u := by
  rw [transfers, h]

/-- A run that performs the whole program with its assertions met began with them met, and its transfers are those the
operations are encoded as. -/
theorem unrolls_transfers {k : Nat} {s t : State} (hrun : Host.Core.run core k s = .next t)
    (hdone : t.host.program = []) (hmet : t.host.assertsHold = true) :
    s.host.assertsHold = true ∧ unrolls (transfers k s) (s.host.program.map transactionOf) = true := by
  induction k generalizing s with
  | zero =>
    cases hrun
    rw [hdone]
    exact ⟨hmet, rfl⟩
  | succ k ih =>
    obtain ⟨u, hstep, hrun⟩ := run_succ_next hrun
    obtain ⟨hu, hys⟩ := ih hrun
    rw [transfers_succ hstep]
    rcases step_transfer hstep with ⟨hnone, hprog, hasserts⟩ | ⟨op, rest, y, hprog, hsome, hasserts, hleft⟩
    · rw [hnone, ← hprog, ← hasserts]
      exact ⟨hu, hys⟩
    · obtain ⟨hs, hadmits⟩ := hasserts hu
      refine ⟨hs, ?_⟩
      rw [hsome, hprog, Option.toList_some, List.singleton_append, List.map_cons, unrolls_cons hadmits]
      rw [hleft, apply_ite (List.map transactionOf)] at hys
      exact hys

/-! ### The statement -/

/-- Settles O24: the step of a wait, the expansion of each form, the reads of a wait one by one, and the transfers of a
run step by step. -/
theorem hostProgramsRunAsEncoded : Obligations.HostProgramsRunAsEncoded := by
  refine ⟨fun s rest hm hprog => ?_, ?_, unrolls_wait_iff, fun k ls s t hrun hdone hmet => ?_⟩
  · have hprog' : (takeTurn s).host.program = .wait :: rest := (takeTurn_program s).trans hprog
    refine ⟨_, (step_of_host hm).trans (hostStep_wait hprog'), peek_status_takeTurn s, ?_, rfl⟩
    rw [takeTurn_phase]
  · refine ⟨fun _ _ => rfl, fun _ => rfl, fun _ _ => rfl, fun _ => rfl, rfl, fun _ => rfl, fun w p => ?_, fun w p => ?_,
      rfl, encodeProgram_append⟩
    · rw [encodeProgram_singleton, expandLine, List.map_map]
      rfl
    · rw [encodeProgram_singleton, expandLine, List.map_map]
      rfl
  · exact (unrolls_transfers hrun hdone hmet).2

end Sys2Proof.Machine
end

section
/-!
The six field-arithmetic commands (41_field_arithmetic), and the statements about them: the bits of a carry-less product,
division as the one pair of 00_scope R15, the results of each command, and exponents of alpha.
-/

namespace Sys2Proof.Machine

open Polynomial Sys2Proof.Claims

/-! ### The bits of a product (00_scope R15) -/

/-- An exclusive or of bits is their sum over GF(2). -/
theorem foldl_xor_eq_sum (f : Nat → Bool) (k : Nat) :
    (if (List.range k).foldl (fun acc i => xor acc (f i)) false then (1 : ZMod 2) else 0)
      = ∑ i ∈ Finset.range k, if f i then 1 else 0 := by
  induction k with
  | zero => rfl
  | succ k ih =>
    rw [List.range_succ, List.foldl_append, List.foldl_cons, List.foldl_nil, Finset.sum_range_succ, ← ih]
    have hadd : ∀ x y : Bool, (if xor x y then (1 : ZMod 2) else 0) = (if x then 1 else 0) + if y then 1 else 0 := by
      decide
    exact hadd _ _

theorem testBit_pmul (a b : Poly) (j : Nat) : (pmul a b).testBit j = convBit a b j := by
  have hbit : ∀ x y : Bool, (if x then (1 : ZMod 2) else 0) = (if y then 1 else 0) → x = y := by decide
  have hand : ∀ x y : Bool, (if x then (1 : ZMod 2) else 0) * (if y then 1 else 0) = if x && y then 1 else 0 := by
    decide
  refine hbit _ _ ?_
  rw [← toPoly_coeff, toPoly_pmul, coeff_mul, Finset.Nat.sum_antidiagonal_eq_sum_range_succ_mk, convBit,
    foldl_xor_eq_sum]
  exact Finset.sum_congr rfl fun i _ => by rw [toPoly_coeff, toPoly_coeff, hand]

theorem log2_pmul_le (a b : Poly) : (pmul a b).log2 ≤ a.log2 + b.log2 := by
  rw [← natDegree_toPoly, ← natDegree_toPoly a, ← natDegree_toPoly b, toPoly_pmul]
  exact natDegree_mul_le

theorem log2_toNat_lt (w : Word) : w.toNat.log2 < 32 := by
  by_cases h : w.toNat = 0
  · rw [h]; decide
  · exact (Nat.log2_lt h).2 w.isLt

/-- The product of two words has degree at most 62 (41_field_arithmetic R146). -/
theorem testBit_pmul_words_63 (v w : Word) : (pmul v.toNat w.toNat).testBit 63 = false := by
  have hdeg := log2_pmul_le v.toNat w.toNat
  have hv := log2_toNat_lt v
  have hw := log2_toNat_lt w
  exact testBit_above_log2 (by omega)

theorem toWord_getLsbD (p j : Nat) : (toWord p).getLsbD j = (decide (j < 32) && p.testBit j) :=
  BitVec.getLsbD_ofNat 32 p j

/-- The low and the high word of a number hold its first 64 bits (41_field_arithmetic R146). -/
theorem toWord_halves_getLsbD (p : Nat) {j : Nat} (hj : j < 64) :
    (toWord (p >>> 32) ++ toWord (p % 2 ^ 32) : BitVec 64).getLsbD j = p.testBit j := by
  rw [BitVec.getLsbD_append]
  split
  · rename_i hlow
    rw [toWord_getLsbD, Nat.testBit_mod_two_pow, decide_eq_true hlow, Bool.true_and, Bool.true_and]
  · rename_i hlow
    rw [toWord_getLsbD, Nat.testBit_shiftRight, decide_eq_true (by omega), Bool.true_and,
      Nat.add_sub_cancel' (by omega)]

/-! ### Division (00_scope R15) -/

/-- divmod answers the one pair that 00_scope R15 describes. -/
theorem isDivMod_iff {a b q s : Poly} (hb : b ≠ 0) : IsDivMod a b q s ↔ q = pdiv a b ∧ s = pmodulo a b := by
  constructor
  · rintro ⟨heq, hdeg⟩
    obtain ⟨hq, hs⟩ := pdivmod_unique hb heq (degGe_eq_false.1 (hdeg _ (deg_eq_some.2 ⟨hb, rfl⟩)))
    exact ⟨hq.symm, hs.symm⟩
  · rintro ⟨rfl, rfl⟩
    obtain ⟨heq, hlt⟩ := pdivmod_spec a hb
    refine ⟨toPoly_injective (by rw [toPoly_padd, toPoly_pmul, heq]), fun e he => ?_⟩
    obtain ⟨-, rfl⟩ := deg_eq_some.1 he
    exact degGe_eq_false.2 hlt

theorem pmodulo_lt_of_lt {b k : Nat} (a : Poly) (hb : b ≠ 0) (h : b < 2 ^ k) : pmodulo a b < 2 ^ k :=
  (pmodulo_lt a hb).trans ((Nat.log2_self_le hb).trans_lt h)

theorem pdiv_lt_of_lt {a b k : Nat} (hb : b ≠ 0) (h : a < 2 ^ k) : pdiv a b < 2 ^ k := by
  rw [← degree_toPoly_lt, toPoly_pdiv a hb]
  exact (degree_divByMonic_le _ _).trans_lt (degree_toPoly_lt.2 h)

/-! ### The field of an active code (41_field_arithmetic R140 to R143) -/

theorem fmul_alphaSeq {r : Poly} (hr : r ≠ 0) (h1 : 1 ≤ r.log2) (i j : Nat) :
    fmul r (alphaSeq r i) (alphaSeq r j) = alphaSeq r (i + j) :=
  (toRing_inj hr (fmul_lt hr _ _) (alphaSeq_lt hr h1 _)).1
    (by simp only [toRing_fmul hr, toRing_alphaSeq hr, pow_add])

section GoodCode

variable {mmax : Nat} {s : State} {c : Code}

theorem codeOk_red_lt (h : CodeOk mmax c) (p : Poly) : red c.r p < 2 ^ c.m :=
  codeOk_r_log2 h ▸ red_lt (codeOk_r_ne_zero h) p

theorem codeOk_red_red (h : CodeOk mmax c) (p : Poly) : red c.r (red c.r p) = red c.r p :=
  red_of_lt (codeOk_r_ne_zero h) (red_lt (codeOk_r_ne_zero h) p)

/-- A field element fits a result register. -/
theorem goodCode_toWord_toNat (h : GoodCode s c) {v : Nat} (hv : v < 2 ^ c.m) : (toWord v).toNat = v := by
  obtain ⟨hm, -, hc, -⟩ := h
  have h4096 := codeOk_two_pow_m_le hc hm
  exact toWord_toNat (by omega)

theorem codeOk_pow_getD_mod (h : CodeOk mmax c) (e : Nat) :
    c.pow.getD (e % c.ord) 0 = alphaSeq c.r e := by
  have hord : 0 < c.ord := h.ord_is.1
  rw [codeOk_pow_getD h, if_pos (Nat.mod_lt e hord),
    alphaSeq_mod (codeOk_r_ne_zero h) (codeOk_one_le_log2 h) h.ord_is]

end GoodCode

/-! ### The completion of each command (41_field_arithmetic R145 to R150) -/

section Completion

variable {α : Type} {i : Instr} {s : State} {res : Except Raise α} {install : α → State → State}

theorem succeedsIn_of_finish {a : α} (hx : exec i s = finish s res install) (hres : res = .ok a) :
    SucceedsIn i s (install a s) := by
  rw [SucceedsIn, hx, hres, finish_ok]
  rfl

theorem failsWith_of_finish {code : ErrCode} {info : Nat} (hx : exec i s = finish s res install)
    (hres : res = .error ⟨code, info⟩) : FailsWith i s code info := by
  rw [FailsWith, hx, hres, finish_error]
  rfl

end Completion

/-- The check of the active code is the first (60_exceptions R301). -/
theorem failsWith_noCode {i : Instr} (hi : i ∈ [Instr.save, .enc, .dec, .fred, .fmul, .fdiv]) {s : State}
    (h : s.code = none) : FailsWith i s .noCode 0 := by
  have hneed := needCode_none h
  fin_cases hi
  · exact failsWith_of_finish rfl hneed
  all_goals exact failsWith_of_finish rfl (by rw [hneed]; rfl)

theorem succeedsIn_padd (s : State) : SucceedsIn .padd s (setPair (padd (opA s) (opB s), 0) s) :=
  succeedsIn_of_finish rfl rfl

theorem succeedsIn_pmul (s : State) :
    SucceedsIn .pmul s (setPair (pmul (opA s) (opB s) % 2 ^ 32, pmul (opA s) (opB s) >>> 32) s) :=
  succeedsIn_of_finish rfl rfl

theorem failsWith_pmod {s : State} (h : opB s = 0) : FailsWith .pmod s .divisionByZero 0 :=
  failsWith_of_finish rfl (if_pos h)

theorem succeedsIn_pmod {s : State} (h : opB s ≠ 0) :
    SucceedsIn .pmod s (setPair (pmodulo (opA s) (opB s), pdiv (opA s) (opB s)) s) :=
  succeedsIn_of_finish rfl (if_neg h)

section ActiveCode

variable {s : State} {c : Code} (h : s.code = some c)

include h

theorem succeedsIn_fred : SucceedsIn .fred s (setPair (red c.r (opA s), 0) s) :=
  succeedsIn_of_finish rfl (by rw [needCode_some h]; rfl)

theorem succeedsIn_fmul : SucceedsIn .fmul s (setPair (fmul c.r (opA s) (opB s), 0) s) :=
  succeedsIn_of_finish rfl (by rw [needCode_some h]; rfl)

theorem failsWith_fdiv (hb : red c.r (opB s) = 0) : FailsWith .fdiv s .divisionByZero 0 :=
  failsWith_of_finish rfl (by rw [needCode_some h]; exact if_pos hb)

theorem succeedsIn_fdiv (hb : red c.r (opB s) ≠ 0) :
    SucceedsIn .fdiv s (setPair (fquot c.m c.r (red c.r (opA s)) (red c.r (opB s)), 0) s) :=
  succeedsIn_of_finish rfl (by rw [needCode_some h]; exact if_neg hb)

end ActiveCode

/-! ### The statements -/

/-- Settles O31: exclusive or of the words is that of the numbers they hold. -/
theorem paddXorsOperands : Obligations.PaddXorsOperands := by
  refine ⟨rfl, fun s => ?_⟩
  have hlo : toWord (padd (opA s) (opB s)) = s.opa ^^^ s.opb := by
    rw [padd, opA, opB, ← BitVec.toNat_xor, toWord_toNat_self]
  rw [← hlo]
  exact succeedsIn_padd s

/-- Settles O32: by the coefficients of a product in GF(2)[x]; its degree is at most 62. -/
theorem pmulConvolvesOperands : Obligations.PmulConvolvesOperands := by
  refine ⟨rfl, fun s => ⟨_, _, succeedsIn_pmul s, ?_, fun j hj => ?_⟩⟩
  · rw [toWord_getLsbD, Nat.testBit_shiftRight]
    exact testBit_pmul_words_63 s.opa s.opb
  · rw [toWord_halves_getLsbD _ hj, testBit_pmul]
    rfl

/-- Settles O33: the remainder and the quotient of words are words, and they are the one pair. -/
theorem pmodDividesOperands : Obligations.PmodDividesOperands := by
  refine ⟨rfl, fun s => ⟨fun hb => failsWith_pmod (congrArg BitVec.toNat hb), fun hb => ?_⟩⟩
  have hb : opB s ≠ 0 := fun h0 => hb (BitVec.eq_of_toNat_eq h0)
  have hlo := toWord_toNat (pmodulo_lt_of_lt (opA s) hb s.opb.isLt)
  have hhi := toWord_toNat (pdiv_lt_of_lt hb s.opa.isLt)
  refine ⟨_, _, succeedsIn_pmod hb, (isDivMod_iff hb).2 ⟨hhi, hlo⟩, fun q r hqr => ?_⟩
  obtain ⟨rfl, rfl⟩ := (isDivMod_iff hb).1 hqr
  exact ⟨hhi.symm, hlo.symm⟩

/-- Settles O34: the remainder modulo r is a field element, so the result register holds it. -/
theorem fredReducesOperand : Obligations.FredReducesOperand := by
  refine ⟨rfl, fun s => failsWith_noCode (by decide), fun s c hgood => ?_⟩
  obtain ⟨-, hs, hc, -⟩ := id hgood
  have hlt := codeOk_red_lt hc (opA s)
  refine ⟨_, succeedsIn_fred hs, ?_⟩
  rw [goodCode_toWord_toNat hgood hlt]
  exact ⟨hlt, _, (isDivMod_iff (codeOk_r_ne_zero hc)).2 ⟨rfl, rfl⟩⟩

/-- Settles O35: the product modulo r does not change when the factors are reduced first. -/
theorem fmulMultipliesInField : Obligations.FmulMultipliesInField := by
  refine ⟨rfl, fun s => failsWith_noCode (by decide), fun s c hgood => ?_⟩
  obtain ⟨-, hs, hc, -⟩ := id hgood
  have hr := codeOk_r_ne_zero hc
  have hlt : fmul c.r (opA s) (opB s) < 2 ^ c.m := codeOk_red_lt hc _
  refine ⟨_, succeedsIn_fmul hs, ?_⟩
  rw [goodCode_toWord_toNat hgood hlt]
  exact ⟨hlt, ⟨_, (isDivMod_iff hr).2 ⟨rfl, rfl⟩⟩, (fmul_red hr (opA s) (opB s)).symm⟩

/-- Settles O36: the field of an irreducible r has one quotient by an element that is not 0. -/
theorem fdivWritesExactQuotient : Obligations.FdivWritesExactQuotient := by
  refine ⟨rfl, fun s => failsWith_noCode (by decide), fun s c hgood => ?_⟩
  obtain ⟨-, hs, hc, -⟩ := id hgood
  refine ⟨failsWith_fdiv hs, fun hb => ?_⟩
  have hm : 1 ≤ c.m := Nat.le_of_succ_le hc.m_ge
  have hbred : red c.r (red c.r (opB s)) ≠ 0 := by rwa [codeOk_red_red hc]
  obtain ⟨hlt, hquot⟩ := fquot_spec hm hc.r_deg hc.r_irreducible (codeOk_red_lt hc (opA s)) hbred
  refine ⟨_, succeedsIn_fdiv hs hb, ?_⟩
  rw [goodCode_toWord_toNat hgood hlt]
  exact ⟨hlt, hquot, fun q hq hprod =>
    fmul_right_cancel hm hc.r_deg hc.r_irreducible hq hlt hbred (hprod.trans hquot.symm)⟩

/-- Settles O39: an element with an exponent is that power of alpha, and products of powers add exponents. -/
theorem powersMultiplyByAddingExponents : Obligations.PowersMultiplyByAddingExponents := by
  intro s c hgood
  obtain ⟨-, -, hc, -⟩ := hgood
  refine ⟨fun a b i j ha hb => ?_, fun e => (codeOk_pow_getD_mod hc e).symm⟩
  obtain ⟨-, -, rfl⟩ := (hc.tables.log_entry a i).1 ha
  obtain ⟨-, -, rfl⟩ := (hc.tables.log_entry b j).1 hb
  rw [fmul_alphaSeq (codeOk_r_ne_zero hc) (codeOk_one_le_log2 hc), codeOk_pow_getD_mod hc]

end Sys2Proof.Machine
end

section
/-!
The order of 2 modulo an odd length, and the search for the field-defining polynomial (42_code_generator R172 to R176):
both exist, the first by Euler's theorem, the second because GF(2^m) has a primitive polynomial.
-/

namespace Sys2Proof.Machine

open Polynomial Sys2Proof.Claims

/-! ### order(2, n) of an odd n (42_code_generator R172) -/

theorem two_pow_totient_mod {n : Nat} (hn : 3 ≤ n) (hodd : n % 2 = 1) : 2 ^ n.totient % n = 1 := by
  have hco : Nat.Coprime 2 n := Nat.coprime_two_left.2 (Nat.odd_iff.2 hodd)
  have h := Nat.ModEq.pow_totient hco
  rwa [Nat.ModEq, Nat.mod_eq_of_lt (by omega : 1 < n)] at h

theorem exists_isOrder {n : Nat} (hn : 3 ≤ n) (hodd : n % 2 = 1) : ∃ m, IsOrder n m ∧ m ≤ n - 1 := by
  have hpos : 1 ≤ n.totient := Nat.totient_pos.2 (by omega)
  have hlt := Nat.totient_lt n (by omega)
  have hex : ∃ m, 1 ≤ m ∧ 2 ^ m % n = 1 := ⟨_, hpos, two_pow_totient_mod hn hodd⟩
  have hle : Nat.find hex ≤ n.totient := Nat.find_min' hex ⟨hpos, two_pow_totient_mod hn hodd⟩
  obtain ⟨h1, h2⟩ := Nat.find_spec hex
  exact ⟨Nat.find hex, ⟨h1, by omega, h2, fun i hi hlt h => Nat.find_min hex hlt ⟨hi, h⟩⟩, by omega⟩

theorem isOrder_odd {n m : Nat} (h : IsOrder n m) : n % 2 = 1 := by
  obtain ⟨hm, -, hpow, -⟩ := h
  by_contra hne
  exact two_pow_mod_even (by omega) hm hpow

/-! ### A primitive polynomial of every degree (42_code_generator R176) -/

theorem isIrreducible_of_toPoly {m : Nat} {r : Poly} (hd : deg r = some m) (h : Irreducible (toPoly r)) :
    IsIrreducible m r := by
  obtain ⟨hr, hl⟩ := deg_eq_some.1 hd
  intro f e hf h1 hm h0
  obtain ⟨hf0, rfl⟩ := deg_eq_some.1 hf
  obtain ⟨q, hq⟩ := (pmodulo_eq_zero r hf0).1 h0
  have hq0 : q ≠ 0 := by
    rintro rfl
    exact hr (toPoly_eq_zero.1 (by rw [hq, mul_zero]))
  have hdeg := congrArg natDegree hq
  rw [natDegree_mul (by simpa using hf0) hq0, natDegree_toPoly, natDegree_toPoly] at hdeg
  rcases h.isUnit_or_isUnit hq with hu | hu
  · have := natDegree_eq_zero_of_isUnit hu
    rw [natDegree_toPoly] at this
    omega
  · have := natDegree_eq_zero_of_isUnit hu
    omega

theorem alphaSeq_eq_one_iff {r : Poly} (hr : r ≠ 0) (h1 : 1 ≤ r.log2) (e : Nat) :
    alphaSeq r e = 1 ↔ toPoly r ∣ X ^ e - 1 := by
  rw [← toRing_inj hr (alphaSeq_lt hr h1 e) (Nat.one_lt_two_pow (by omega)), toRing_alphaSeq hr, toRing, toRing,
    toPoly_two, toPoly_one, ← map_pow, AdjoinRoot.mk_eq_mk]

/-- Every element but 0 is a power of a generator of the units. -/
theorem adjoin_generator_eq_top {m : Nat} {z : (GaloisField 2 m)ˣ} (hz : ∀ x, x ∈ Subgroup.zpowers z) :
    IntermediateField.adjoin (ZMod 2) {(z : GaloisField 2 m)} = ⊤ := by
  refine eq_top_iff.2 fun x _ => ?_
  by_cases hx : x = 0
  · rw [hx]; exact zero_mem _
  · obtain ⟨k, hk⟩ := Subgroup.mem_zpowers_iff.1 (hz (Units.mk0 x hx))
    have hxk : (z : GaloisField 2 m) ^ k = x := by rw [← Units.val_zpow_eq_zpow_val, hk, Units.val_mk0]
    exact hxk ▸ zpow_mem (IntermediateField.mem_adjoin_simple_self _ _) k

theorem exists_generator_galoisField {m : Nat} (hm : m ≠ 0) :
    ∃ z : GaloisField 2 m, orderOf z = 2 ^ m - 1 ∧ (minpoly (ZMod 2) z).natDegree = m := by
  obtain ⟨z, hz⟩ := IsCyclic.exists_generator (α := (GaloisField 2 m)ˣ)
  refine ⟨z, ?_, ?_⟩
  · rw [orderOf_units, orderOf_eq_card_of_forall_mem_zpowers hz, Nat.card_units, GaloisField.card 2 m hm]
  · exact ((Field.primitive_element_iff_minpoly_natDegree_eq _ _).1 (adjoin_generator_eq_top hz)).trans
      (GaloisField.finrank 2 hm)

/-- The minimal polynomial of a generator of GF(2^m) is primitive. -/
theorem exists_primitive {m : Nat} (hm : 1 ≤ m) :
    ∃ r, deg r = some m ∧ IsIrreducible m r ∧ IsOrd m r (2 ^ m - 1) := by
  obtain ⟨z, hord, hdeg⟩ := exists_generator_galoisField (m := m) (by omega)
  have hint : IsIntegral (ZMod 2) z := IsIntegral.of_finite _ _
  obtain ⟨r, hr⟩ := toPoly_surjective (minpoly (ZMod 2) z)
  have hr0 : r ≠ 0 := by
    rintro rfl
    exact minpoly.ne_zero hint (by rw [← hr, toPoly_zero])
  have hl : r.log2 = m := by rw [← natDegree_toPoly, hr, hdeg]
  have hd : deg r = some m := deg_eq_some.2 ⟨hr0, hl⟩
  have hone : ∀ e, alphaSeq r e = 1 ↔ z ^ e = 1 := fun e => by
    rw [alphaSeq_eq_one_iff hr0 (by omega), hr, minpoly.dvd_iff, map_sub, map_pow, aeval_X, map_one, sub_eq_zero]
  have hpow : 2 ^ 1 ≤ 2 ^ m := Nat.pow_le_pow_right (by omega) hm
  have hirr : Irreducible (toPoly r) := hr ▸ minpoly.irreducible hint
  refine ⟨r, hd, isIrreducible_of_toPoly hd hirr, by omega, le_rfl, ?_, fun i h1 hi h => ?_⟩
  · rw [hone, ← hord, pow_orderOf_eq_one]
  · exact pow_ne_one_of_lt_orderOf (by omega) (hord ▸ hi) ((hone i).1 h)

/-! ### The field of an accepted r -/

section Accepted

variable {m n : Nat} {r : Poly} (h : IsAccepted m n r)

include h

theorem isAccepted_ne_zero : r ≠ 0 := (deg_eq_some.1 h.1).1

theorem isAccepted_one_le_log2 : 1 ≤ r.log2 := by
  obtain ⟨hd, -, e, ⟨h1, h2, -⟩, -⟩ := h
  rw [(deg_eq_some.1 hd).2]
  by_contra hm
  obtain rfl : m = 0 := by omega
  omega

theorem isAccepted_irreducible : Irreducible (toPoly r) := by
  have hm := isAccepted_one_le_log2 h
  rw [(deg_eq_some.1 h.1).2] at hm
  exact irreducible_toPoly hm h.1 h.2.1

theorem isPowTable_unique {pow pow' : List Poly} (hp : IsPowTable m r pow) (hp' : IsPowTable m r pow') :
    pow = pow' := by
  obtain ⟨-, -, e, he, -⟩ := h
  rw [hp e he, hp' e he]

/-- The table gives every power of alpha (41_field_arithmetic R151). -/
theorem alphaPow_eq_alphaSeq {pow : List Poly} (hp : IsPowTable m r pow) (e : Nat) : alphaPow pow e = alphaSeq r e := by
  obtain ⟨-, -, ord, hord, -⟩ := id h
  rw [hp ord hord, alphaPow, List.length_map, List.length_range,
    ← alphaSeq_mod (isAccepted_ne_zero h) (isAccepted_one_le_log2 h) hord e]
  have hlt : e % ord < ord := Nat.mod_lt e hord.1
  rw [List.getD_eq_getElem _ _ (by simpa using hlt), List.getElem_map, List.getElem_range]

end Accepted

/-! ### The search (42_code_generator R174 to R176) -/

theorem powTable_isPowTable {m : Nat} {r : Poly} {pow : List Poly} (h : powTable m r = some pow) :
    IsPowTable m r pow := by
  intro e he
  obtain ⟨ho, hp⟩ := powTable_some h
  obtain rfl := isOrd_unique he ho
  refine List.ext_getElem (by simp) fun i hi _ => ?_
  rw [List.getElem_map, List.getElem_range, ← hp i hi, List.getD_eq_getElem _ _ hi]

theorem searchField_finds {n m : Nat} (hn : 3 ≤ n) (ho : IsOrder n m) :
    ∃ r pow, searchField m n = some (r, pow) := by
  obtain ⟨r, hd, hi, hord⟩ := exists_primitive (Nat.le_of_succ_le (two_le_order hn ho))
  have hacc : IsAccepted m n r := ⟨hd, hi, _, hord, order_bound hn ho⟩
  cases hs : searchField m n with
  | none => exact absurd hacc (searchField_none hs r)
  | some x => exact ⟨x.1, x.2, rfl⟩

theorem searchField_of_firstAccepted {m n : Nat} {r : Poly} {pow : List Poly} (h : IsFirstAccepted m n r)
    (hp : IsPowTable m r pow) : searchField m n = some (r, pow) := by
  obtain ⟨pow', hs⟩ := searchField_iff.2 h
  rw [hs, isPowTable_unique h.1 hp (powTable_isPowTable (searchField_some hs).2.1)]

end Sys2Proof.Machine
end

section
/-!
Conjugacy classes and minimal polynomials (42_code_generator R179 to R181): a class is the list of i, 2i, 4i, ...
modulo n up to the first return; the product over it has the coefficients of R180, which are 0 or 1 when ord(r) = n.
-/

namespace Sys2Proof.Machine

open Polynomial Sys2Proof.Claims

/-! ### Conjugacy classes (42_code_generator R179) -/

/-- L is the size of the class of i: the least number of doublings modulo n that leads back to i. -/
def IsClassSize (n i L : Nat) : Prop :=
  1 ≤ L ∧ 2 ^ L * i % n = i % n ∧ ∀ t, 1 ≤ t → t < L → 2 ^ t * i % n ≠ i % n

theorem exists_isClassSize {n : Nat} (hn : 3 ≤ n) (hodd : n % 2 = 1) (i : Nat) : ∃ L ≤ n, IsClassSize n i L := by
  obtain ⟨m, ⟨hm1, hmn, hpow, -⟩, -⟩ := exists_isOrder hn hodd
  have hm : 2 ^ m * i % n = i % n := by rw [← Nat.mod_mul_mod, hpow, one_mul]
  have hex : ∃ t, 1 ≤ t ∧ 2 ^ t * i % n = i % n := ⟨m, hm1, hm⟩
  obtain ⟨h1, h2⟩ := Nat.find_spec hex
  exact ⟨Nat.find hex, (Nat.find_min' hex ⟨hm1, hm⟩).trans hmn, h1, h2,
    fun t ht hlt h => Nat.find_min hex hlt ⟨ht, h⟩⟩

theorem two_mul_mod_class (n i t : Nat) : 2 * (2 ^ t * i % n) % n = 2 ^ (t + 1) * i % n := by
  rw [Nat.mul_mod_mod, ← mul_assoc, ← pow_succ']

theorem classFrom_eq {n i L : Nat} (hL : IsClassSize n i L) {k j : Nat} (hj : j < L) (hk : L ≤ j + k) :
    classFrom n (i % n) k (2 ^ j * i % n) = (List.range' j (L - j)).map (fun t => 2 ^ t * i % n) := by
  obtain ⟨-, hclose, hmin⟩ := id hL
  induction k generalizing j with
  | zero => omega
  | succ k ih =>
    rw [classFrom, two_mul_mod_class]
    rcases Nat.eq_or_lt_of_le (Nat.succ_le_of_lt hj) with hlast | hmore
    · rw [Nat.succ_eq_add_one] at hlast
      rw [hlast, if_pos hclose, show L - j = 1 by omega]
      rfl
    · rw [if_neg (hmin (j + 1) (by omega) hmore), ih hmore (by omega), show L - j = L - (j + 1) + 1 by omega]
      rfl

/-- The class lists i, 2i, 4i, ... modulo n, as many as there are before i modulo n comes back. -/
theorem conjClass_eq {n : Nat} (hn : 3 ≤ n) (hodd : n % 2 = 1) (i : Nat) :
    ∃ L, IsClassSize n i L ∧ conjClass n i = (List.range L).map (fun t => 2 ^ t * i % n) := by
  obtain ⟨L, hle, hL⟩ := exists_isClassSize hn hodd i
  have h := classFrom_eq hL (k := n) hL.1 (by omega)
  rw [pow_zero, one_mul, Nat.sub_zero, ← List.range_eq_range'] at h
  exact ⟨L, hL, h⟩

/-- Doubling modulo an odd n is one to one, so no member comes twice. -/
theorem isClassSize_injOn {n i L : Nat} (hodd : n % 2 = 1) (hL : IsClassSize n i L) {s t : Nat} (hs : s < L)
    (ht : t < L) (h : 2 ^ s * i % n = 2 ^ t * i % n) : s = t := by
  wlog hst : s ≤ t generalizing s t
  · exact (this ht hs h.symm (by omega)).symm
  by_contra hne
  have hco : Nat.gcd n (2 ^ s) = 1 := (Nat.coprime_two_right.2 (Nat.odd_iff.2 hodd)).pow_right s
  have hcancel : i ≡ 2 ^ (t - s) * i [MOD n] := by
    refine Nat.ModEq.cancel_left_of_coprime hco ?_
    rw [← mul_assoc, ← pow_add, Nat.add_sub_cancel' hst]
    exact h
  exact hL.2.2 (t - s) (by omega) (by omega) hcancel.symm

theorem conjClass_nodup {n : Nat} (hn : 3 ≤ n) (hodd : n % 2 = 1) (i : Nat) : (conjClass n i).Nodup := by
  obtain ⟨L, hL, hclass⟩ := conjClass_eq hn hodd i
  rw [hclass]
  exact List.Nodup.map_on (fun s hs t ht => isClassSize_injOn hodd hL (List.mem_range.1 hs) (List.mem_range.1 ht))
    List.nodup_range

theorem conjClass_head {n : Nat} (hn : 3 ≤ n) (hodd : n % 2 = 1) (i : Nat) : (conjClass n i).head? = some (i % n) := by
  obtain ⟨L, ⟨hpos, -, -⟩, hclass⟩ := conjClass_eq hn hodd i
  rw [hclass, List.head?_eq_getElem?, List.getElem?_map, List.getElem?_range hpos]
  simp

theorem conjClass_next {n : Nat} (hn : 3 ≤ n) (hodd : n % 2 = 1) {i j c c' : Nat} (h : (conjClass n i)[j]? = some c)
    (h' : (conjClass n i)[j + 1]? = some c') : c' = 2 * c % n := by
  obtain ⟨L, -, hclass⟩ := conjClass_eq hn hodd i
  rw [hclass] at h h'
  obtain ⟨hj, rfl⟩ : ∃ hj : j < L, 2 ^ j * i % n = c := by simpa [List.getElem?_eq_some_iff] using h
  obtain ⟨hj', rfl⟩ : ∃ hj : j + 1 < L, 2 ^ (j + 1) * i % n = c' := by simpa [List.getElem?_eq_some_iff] using h'
  exact (two_mul_mod_class n i j).symm

theorem conjClass_closes {n : Nat} (hn : 3 ≤ n) (hodd : n % 2 = 1) {i c : Nat}
    (h : (conjClass n i).getLast? = some c) : 2 * c % n = i % n := by
  obtain ⟨L, ⟨hpos, hclose, -⟩, hclass⟩ := conjClass_eq hn hodd i
  obtain ⟨k, rfl⟩ : ∃ k, L = k + 1 := ⟨L - 1, by omega⟩
  obtain rfl : 2 ^ k * i % n = c := by simpa [hclass, List.range_succ] using h
  rw [two_mul_mod_class, hclose]

/-! ### Minimal polynomials (42_code_generator R180, R181) -/

theorem testBit_ofCoeffs (P : List Poly) (j : Nat) : (ofCoeffs P).testBit j = decide (P.getD j 0 % 2 = 1) := by
  induction P generalizing j with
  | nil => simp [ofCoeffs]
  | cons c cs ih =>
    rw [ofCoeffs, padd, Nat.testBit_xor]
    cases j with
    | zero => simp [Nat.testBit_zero]
    | succ j =>
      have hlow : c % 2 < 2 ^ (j + 1) := (Nat.mod_lt c Nat.two_pos).trans_le (Nat.le_self_pow (by omega) 2)
      rw [Nat.testBit_lt_two_pow hlow, Nat.testBit_succ, Nat.mul_div_cancel_left _ (by omega), ih]
      simp

/-- A list of coefficients 0 and 1 and the binary polynomial made of them. -/
theorem forall_lt_two_and_ofCoeffs_eq_iff {P : List Poly} {M : Poly} :
    ((∀ c ∈ P, c < 2) ∧ ofCoeffs P = M) ↔ ∀ j, P.getD j 0 = if M.testBit j then 1 else 0 := by
  constructor
  · rintro ⟨hlt, rfl⟩ j
    have hj : P.getD j 0 < 2 := by
      by_cases hj : j < P.length
      · rw [List.getD_eq_getElem _ _ hj]; exact hlt _ (List.getElem_mem hj)
      · rw [List.getD_eq_default _ _ (by omega)]; exact Nat.two_pos
    rw [testBit_ofCoeffs]
    generalize P.getD j 0 = c at hj
    interval_cases c <;> rfl
  · intro hP
    refine ⟨fun c hc => ?_, Nat.eq_of_testBit_eq fun j => ?_⟩
    · obtain ⟨j, hj, rfl⟩ := List.mem_iff_getElem.1 hc
      rw [← List.getD_eq_getElem _ 0 hj, hP]
      split
      · exact Nat.one_lt_two
      · exact Nat.two_pos
    · rw [testBit_ofCoeffs, hP]
      cases M.testBit j <;> rfl

/-- The model's minimal polynomial is that of R181, whatever the length n' the class is taken for. -/
theorem minPoly_eq_some_iff {m n n' i : Nat} {r : Poly} {pow : List Poly} {M : Poly} (h : IsAccepted m n r)
    (hp : IsPowTable m r pow) : minPoly r pow n' i = some M ↔ IsMinPoly r n' i M := by
  have halpha : alphaPow pow = alphaSeq r := funext (alphaPow_eq_alphaSeq h hp)
  have hcoeff := minProduct_getD (isAccepted_ne_zero h) pow n' i
  rw [halpha] at hcoeff
  have hunfold : minPoly r pow n' i = some M ↔
      (∀ c ∈ minProduct r pow n' i, c < 2) ∧ ofCoeffs (minProduct r pow n' i) = M := by
    simp [minPoly]
  rw [hunfold, forall_lt_two_and_ofCoeffs_eq_iff]
  exact forall_congr' fun j => by rw [hcoeff]

/-- The coefficients of R180 are those of the product over the field of r. -/
theorem toRing_prodCoeff {r : Poly} (hr : r ≠ 0) (as : List Poly) (j : Nat) :
    toRing r (prodCoeff r as j) = ((as.map fun a => X + C (toRing r a)).prod).coeff j := by
  induction as generalizing j with
  | nil => by_cases hj : j = 0 <;> simp [prodCoeff, coeff_one, hj]
  | cons a as ih =>
    rw [List.map_cons, List.prod_cons, add_mul, coeff_add, coeff_C_mul, ← ih]
    cases j with
    | zero => simp [prodCoeff, toRing_fmul hr]
    | succ j => rw [prodCoeff, toRing_padd, toRing_fmul hr, coeff_X_mul, ← ih]

theorem prodCoeff_lt {r : Poly} (hr : r ≠ 0) (h1 : 1 ≤ r.log2) (as : List Poly) (j : Nat) :
    prodCoeff r as j < 2 ^ r.log2 := by
  induction as generalizing j with
  | nil =>
    have h2 : 2 ^ 1 ≤ 2 ^ r.log2 := Nat.pow_le_pow_right (by omega) h1
    rw [prodCoeff]
    split
    · exact lt_of_lt_of_le Nat.one_lt_two h2
    · exact Nat.two_pow_pos _
  | cons a as ih =>
    cases j with
    | zero => exact fmul_lt hr _ _
    | succ j => exact padd_lt (ih j) (fmul_lt hr _ _)

/-- A product of L linear factors is monic of degree L. -/
theorem prodCoeff_length {r : Poly} (hr : r ≠ 0) (as : List Poly) : prodCoeff r as as.length = 1 := by
  induction as with
  | nil => rfl
  | cons a as ih => rw [List.length_cons, prodCoeff, ih, prodCoeff_above hr (Nat.lt_succ_self _), fmul_zero hr]; rfl

/-- A product whose coefficients are all 0 or 1 is a binary polynomial (42_code_generator R181). -/
theorem exists_testBit_eq_prodCoeff {r : Poly} (hr : r ≠ 0) {as : List Poly} (h : ∀ j, prodCoeff r as j < 2) :
    ∃ M : Poly, ∀ j, prodCoeff r as j = if M.testBit j then 1 else 0 := by
  have hget : ∀ j, ((List.range (as.length + 1)).map (prodCoeff r as)).getD j 0 = prodCoeff r as j := by
    intro j
    by_cases hj : j < as.length + 1
    · simp [List.getD_eq_getElem?_getD, hj]
    · rw [List.getD_eq_default _ _ (by simpa using hj), prodCoeff_above hr (by omega)]
  have hlt : ∀ c ∈ (List.range (as.length + 1)).map (prodCoeff r as), c < 2 := by
    intro c hc
    obtain ⟨j, -, rfl⟩ := List.mem_map.1 hc
    exact h j
  exact ⟨_, fun j => (hget j).symm.trans (forall_lt_two_and_ofCoeffs_eq_iff.1 ⟨hlt, rfl⟩ j)⟩

theorem isMinPoly_ne_zero {r M : Poly} {n i : Nat} (hr : r ≠ 0) (h : IsMinPoly r n i M) : M ≠ 0 := by
  rintro rfl
  have h1 := h ((conjClass n i).map (alphaSeq r)).length
  rw [prodCoeff_length hr, Nat.zero_testBit] at h1
  exact absurd h1 (by decide)

/-- The product of (x + a^c) over the members c = i, 2i, 4i, ... modulo n, L of them. -/
noncomputable def classProduct {K : Type} [Field K] (a : K) (n i L : Nat) : K[X] :=
  ((List.range L).map fun t => X + C (a ^ (2 ^ t * i % n))).prod

/-- When a^n = 1, squaring the coefficients only moves the factors of the product around the class. -/
theorem map_frobenius_classProduct {K : Type} [Field K] [CharP K 2] {a : K} {n i L : Nat} (ha : a ^ n = 1)
    (hL : IsClassSize n i L) : (classProduct a n i L).map (frobenius K 2) = classProduct a n i L := by
  have hmod : ∀ e, a ^ (e % n) = a ^ e := fun e => by
    conv_rhs => rw [← Nat.div_add_mod e n, pow_add, pow_mul, ha, one_pow, one_mul]
  have hshift : (classProduct a n i L).map (frobenius K 2)
      = ((List.range L).map fun t => X + C (a ^ (2 ^ (t + 1) * i % n))).prod := by
    rw [classProduct, Polynomial.map_list_prod, List.map_map]
    congr 1
    refine List.map_congr_left fun t _ => ?_
    rw [Function.comp_apply, Polynomial.map_add, map_X, map_C, frobenius_def, hmod, hmod, ← pow_mul, mul_right_comm,
      ← pow_succ]
  have hlast := List.prod_range_succ (fun t => X + C (a ^ (2 ^ t * i % n))) L
  rw [hL.2.1, List.prod_range_succ' _ L, pow_zero, one_mul, mul_comm] at hlast
  exact hshift.trans (mul_right_cancel₀ (monic_X_add_C _).ne_zero hlast)

/-- The elements of a field of r that are their own squares are 0 and 1. -/
theorem lt_two_of_toRing_sq {r v : Poly} (hr : r ≠ 0) (h1 : 1 ≤ r.log2) (hirr : Irreducible (toPoly r))
    (hv : v < 2 ^ r.log2) (h : toRing r v ^ 2 = toRing r v) : v < 2 := by
  have : Fact (Irreducible (toPoly r)) := ⟨hirr⟩
  have hfac : toRing r v * (toRing r v - 1) = 0 := by rw [mul_sub, mul_one, ← sq, h, sub_self]
  rcases mul_eq_zero.1 hfac with h0 | h0
  · rw [← toRing_zero r, toRing_inj hr hv (Nat.two_pow_pos _)] at h0
    exact h0 ▸ Nat.two_pos
  · rw [sub_eq_zero, ← toRing_one r, toRing_inj hr hv (Nat.one_lt_two_pow (by omega))] at h0
    exact h0 ▸ Nat.one_lt_two

/-- The coefficients of R180 for a class are those of the product over it. -/
theorem toRing_prodCoeff_conjClass {r : Poly} [Fact (Irreducible (toPoly r))] (hr : r ≠ 0) {n i L : Nat}
    (hclass : conjClass n i = (List.range L).map fun t => 2 ^ t * i % n) (j : Nat) :
    toRing r (prodCoeff r ((conjClass n i).map (alphaSeq r)) j) = (classProduct (toRing r 2) n i L).coeff j := by
  have hlist : (((conjClass n i).map (alphaSeq r)).map fun a => X + C (toRing r a))
      = (List.range L).map fun t => X + C (toRing r 2 ^ (2 ^ t * i % n)) := by
    rw [hclass, List.map_map, List.map_map]
    exact List.map_congr_left fun t _ => by simp only [Function.comp_apply, toRing_alphaSeq hr]
  rw [toRing_prodCoeff hr, hlist]
  rfl

/-- The coefficients of the product over a class are their own squares when ord(r) = n (42_code_generator R181). -/
theorem exists_isMinPoly {m n : Nat} {r : Poly} (hn : 3 ≤ n) (hodd : n % 2 = 1) (h : IsAccepted m n r)
    (hord : IsOrd m r n) (i : Nat) : ∃ M, IsMinPoly r n i M := by
  have hr := isAccepted_ne_zero h
  have h1 := isAccepted_one_le_log2 h
  have hirr := isAccepted_irreducible h
  have : Fact (Irreducible (toPoly r)) := ⟨hirr⟩
  have : CharP (AdjoinRoot (toPoly r)) 2 := charP_of_injective_algebraMap (algebraMap (ZMod 2) _).injective 2
  obtain ⟨L, hL, hclass⟩ := conjClass_eq hn hodd i
  have halpha : toRing r 2 ^ n = 1 := by rw [← toRing_alphaSeq hr, hord.2.2.1, toRing_one]
  refine exists_testBit_eq_prodCoeff hr fun j => lt_two_of_toRing_sq hr h1 hirr (prodCoeff_lt hr h1 _ j) ?_
  have hsquare := congrArg (coeff · j) (map_frobenius_classProduct halpha hL)
  rw [toRing_prodCoeff_conjClass hr hclass]
  simpa only [coeff_map, frobenius_def] using hsquare

end Sys2Proof.Machine
end

section
/-!
The generator polynomial and GEN (42_code_generator R182 to R187): GEN's loop answers the least common multiple of the
minimal polynomials; the checks of the result and of GEN each have their equation; and the statements about GEN.
-/

namespace Sys2Proof.Machine

open Polynomial Sys2Proof.Claims

/-! ### Least common multiples (42_code_generator R182) -/

theorem polyDivides_iff_toPoly_dvd {g p : Poly} : PolyDivides g p ↔ toPoly g ∣ toPoly p := by
  constructor
  · rintro ⟨h, rfl⟩
    exact ⟨toPoly h, by rw [toPoly_pmul, mul_comm]⟩
  · rintro ⟨f, hf⟩
    obtain ⟨h, rfl⟩ := toPoly_surjective f
    exact ⟨h, toPoly_injective (by rw [toPoly_pmul, hf, mul_comm])⟩

theorem polyDivides_refl (g : Poly) : PolyDivides g g := polyDivides_iff_toPoly_dvd.2 dvd_rfl

theorem polyDivides_antisymm {g g' : Poly} (h : PolyDivides g g') (h' : PolyDivides g' g) : g = g' := by
  rw [polyDivides_iff_toPoly_dvd] at h h'
  by_cases h0 : g = 0
  · subst h0
    exact (toPoly_eq_zero.1 (zero_dvd_iff.1 (toPoly_zero ▸ h))).symm
  · have h0' : g' ≠ 0 := by
      rintro rfl
      exact h0 (toPoly_eq_zero.1 (zero_dvd_iff.1 (toPoly_zero ▸ h')))
    exact toPoly_injective
      (eq_of_monic_of_associated (monic_toPoly h0) (monic_toPoly h0') (associated_of_dvd_dvd h h'))

theorem polyDivides_plcm_iff {a b : Poly} (ha : a ≠ 0) (h : Poly) :
    PolyDivides (plcm a b) h ↔ PolyDivides a h ∧ PolyDivides b h := by
  simp only [polyDivides_iff_toPoly_dvd]
  obtain ⟨h1, h2⟩ := dvd_plcm (b := b) ha
  exact ⟨fun hdvd => ⟨h1.trans hdvd, h2.trans hdvd⟩, fun ⟨h1, h2⟩ => plcm_dvd ha h1 h2⟩

theorem isLcmOf_unique {Ms : List Poly} {g g' : Poly} (h : IsLcmOf Ms g) (h' : IsLcmOf Ms g') : g = g' :=
  polyDivides_antisymm ((h g').2 ((h' g').1 (polyDivides_refl g'))) ((h' g).2 ((h g).1 (polyDivides_refl g)))

theorem isLcmOf_mem_polyDivides {Ms : List Poly} {g M : Poly} (h : IsLcmOf Ms g) (hM : M ∈ Ms) : PolyDivides M g :=
  (h g).1 (polyDivides_refl g) M hM

/-- Taking the least common multiple with one polynomial after the other, as GEN does. -/
theorem isLcmOf_foldl_plcm {Ms : List Poly} {g : Poly} (hg : g ≠ 0) (hMs : ∀ M ∈ Ms, M ≠ 0) :
    IsLcmOf (g :: Ms) (Ms.foldl plcm g) := by
  induction Ms generalizing g with
  | nil => exact fun h => by simp
  | cons M Ms ih =>
    intro h
    have hplcm := plcm_ne_zero hg (hMs M (by simp))
    have hrest := ih hplcm (fun M' hM' => hMs M' (by simp [hM'])) h
    rw [List.foldl_cons, hrest]
    simp only [List.forall_mem_cons, polyDivides_plcm_iff hg, and_assoc]

theorem isLcmOf_one_cons {Ms : List Poly} {g : Poly} : IsLcmOf (1 :: Ms) g ↔ IsLcmOf Ms g := by
  have hone : ∀ h, PolyDivides 1 h := fun h => polyDivides_iff_toPoly_dvd.2 (by rw [toPoly_one]; exact one_dvd _)
  simp only [IsLcmOf, List.forall_mem_cons, hone, true_and]

/-! ### The loop over the indices (42_code_generator R182) -/

theorem lcmFrom_of_minPoly {r : Poly} {pow : List Poly} {n b s : Nat} {Ms : List Poly} {g : Poly}
    (h : ∀ i < Ms.length, minPoly r pow n (b + (s + i)) = some (Ms.getD i 0)) :
    lcmFrom r pow n b Ms.length s g = .ok (Ms.foldl plcm g) := by
  induction Ms generalizing s g with
  | nil => rfl
  | cons M Ms ih =>
    have h0 : minPoly r pow n (b + s) = some M := h 0 (by simp)
    rw [List.length_cons, lcmFrom, h0]
    refine ih fun i hi => ?_
    rw [show s + 1 + i = s + (i + 1) by omega]
    exact h (i + 1) (by simpa using hi)

/-- The loop fails at the first index that has no minimal polynomial. -/
theorem lcmFrom_error_of_minPoly {r : Poly} {pow : List Poly} {n b k s i : Nat} {g : Poly} (hi : i < k)
    (hsome : ∀ j < i, ∃ M, minPoly r pow n (b + (s + j)) = some M) (hnone : minPoly r pow n (b + (s + i)) = none) :
    lcmFrom r pow n b k s g = .error ⟨.minimalPolynomialError, s + i⟩ := by
  induction i generalizing k s g with
  | zero =>
    obtain ⟨k, rfl⟩ : ∃ k', k = k' + 1 := ⟨k - 1, by omega⟩
    rw [Nat.add_zero] at hnone
    rw [lcmFrom, hnone]
    rfl
  | succ i ih =>
    obtain ⟨k, rfl⟩ : ∃ k', k = k' + 1 := ⟨k - 1, by omega⟩
    obtain ⟨M, hM⟩ := hsome 0 (by omega)
    rw [Nat.add_zero] at hM
    rw [lcmFrom, hM, show s + (i + 1) = s + 1 + i by omega]
    refine ih (by omega) (fun j hj => ?_) ?_
    · rw [show s + 1 + j = s + (j + 1) by omega]
      exact hsome (j + 1) (by omega)
    · rw [show s + 1 + i = s + (i + 1) by omega]
      exact hnone

theorem exists_minPolys_of_lcmFrom {r : Poly} {pow : List Poly} {n b k s : Nat} {g g' : Poly}
    (h : lcmFrom r pow n b k s g = .ok g') :
    ∃ Ms : List Poly, Ms.length = k ∧ (∀ i < k, minPoly r pow n (b + (s + i)) = some (Ms.getD i 0)) := by
  induction k generalizing s g with
  | zero => exact ⟨[], rfl, fun i hi => absurd hi (by omega)⟩
  | succ k ih =>
    rw [lcmFrom] at h
    split at h
    · cases h
    · rename_i M hM
      obtain ⟨Ms, hlen, hMs⟩ := ih h
      refine ⟨M :: Ms, by rw [List.length_cons, hlen], fun i hi => ?_⟩
      cases i with
      | zero => exact hM
      | succ i =>
        rw [show s + (i + 1) = s + 1 + i by omega]
        exact hMs i (by omega)

/-- The list of the minimal polynomials of the indices from b on (42_code_generator R180 to R182). -/
def AreMinPolys (r : Poly) (n b d : Nat) (Ms : List Poly) : Prop :=
  Ms.length = d - 1 ∧ ∀ i < d - 1, IsMinPoly r n (b + i) (Ms.getD i 0)

theorem areMinPolys_getD_mem {r : Poly} {n b d i : Nat} {Ms : List Poly} (h : AreMinPolys r n b d Ms)
    (hi : i < d - 1) : Ms.getD i 0 ∈ Ms := by
  have hlt : i < Ms.length := by rw [h.1]; exact hi
  rw [List.getD_eq_getElem _ _ hlt]
  exact List.getElem_mem hlt

theorem areMinPolys_ne_zero {r : Poly} {n b d : Nat} {Ms : List Poly} (hr : r ≠ 0) (h : AreMinPolys r n b d Ms) :
    ∀ M ∈ Ms, M ≠ 0 := by
  obtain ⟨hlen, hMs⟩ := h
  intro M hM
  obtain ⟨i, hi, rfl⟩ := List.mem_iff_getElem.1 hM
  rw [← List.getD_eq_getElem _ 0 hi]
  exact isMinPoly_ne_zero hr (hMs i (by omega))

section Accepted

variable {m n b d : Nat} {r : Poly} {pow : List Poly} (h : IsAccepted m n r) (hp : IsPowTable m r pow)

include h hp

theorem exists_lcmFrom_of_areMinPolys {Ms : List Poly} (hMs : AreMinPolys r n b d Ms) :
    ∃ g, lcmFrom r pow n b (d - 1) 0 1 = .ok g ∧ IsLcmOf Ms g := by
  have hne := areMinPolys_ne_zero (isAccepted_ne_zero h) hMs
  obtain ⟨hlen, hMs⟩ := hMs
  refine ⟨Ms.foldl plcm 1, ?_, isLcmOf_one_cons.1 (isLcmOf_foldl_plcm Nat.one_ne_zero hne)⟩
  rw [← hlen]
  refine lcmFrom_of_minPoly fun i hi => ?_
  rw [Nat.zero_add]
  exact (minPoly_eq_some_iff h hp).2 (hMs i (by omega))

/-- The loop answers the least common multiple of the minimal polynomials of all its indices, if they exist. -/
theorem lcmFrom_eq_ok_iff {g : Poly} :
    lcmFrom r pow n b (d - 1) 0 1 = .ok g ↔ ∃ Ms, AreMinPolys r n b d Ms ∧ IsLcmOf Ms g := by
  constructor
  · intro hok
    obtain ⟨Ms, hMs⟩ := exists_minPolys_of_lcmFrom hok
    have hMs : AreMinPolys r n b d Ms := by simpa only [AreMinPolys, Nat.zero_add, minPoly_eq_some_iff h hp] using hMs
    obtain ⟨g', hok', hg'⟩ := exists_lcmFrom_of_areMinPolys h hp hMs
    obtain rfl : g = g' := Except.ok.inj (hok.symm.trans hok')
    exact ⟨Ms, hMs, hg'⟩
  · rintro ⟨Ms, hMs, hg⟩
    obtain ⟨g', hok, hg'⟩ := exists_lcmFrom_of_areMinPolys h hp hMs
    rw [hok, isLcmOf_unique hg hg']

theorem lcmFrom_eq_error {i : Nat} (hi : i < d - 1) (hsome : ∀ j < i, ∃ M, IsMinPoly r n (b + j) M)
    (hnone : ¬ ∃ M, IsMinPoly r n (b + i) M) :
    lcmFrom r pow n b (d - 1) 0 1 = .error ⟨.minimalPolynomialError, i⟩ := by
  have herr := lcmFrom_error_of_minPoly (r := r) (pow := pow) (n := n) (b := b) (s := 0) (g := 1) hi
    (fun j hj => ?_) (Option.eq_none_iff_forall_ne_some.2 fun M hM => ?_)
  · rwa [Nat.zero_add] at herr
  · obtain ⟨M, hM⟩ := hsome j hj
    exact ⟨M, by rwa [Nat.zero_add, minPoly_eq_some_iff h hp]⟩
  · rw [Nat.zero_add, minPoly_eq_some_iff h hp] at hM
    exact hnone ⟨M, hM⟩

end Accepted

/-! ### The checks of the result (42_code_generator R185) -/

section GeneratorPoly

variable {r g : Poly} {pow : List Poly} {n b d : Nat}

theorem ne_zero_of_degNat_pos (h : 0 < degNat g) : g ≠ 0 := by
  rintro rfl
  exact absurd h (by decide)

theorem badDegree_eq_true (h : degNat g = 0 ∨ n ≤ degNat g) : badDegree n g = true := by
  by_contra hne
  have := badDegree_eq_false.1 (Bool.eq_false_iff.2 hne)
  omega

theorem badDegree_eq_false_of_degNat (h : 0 < degNat g) (hn : degNat g < n) : badDegree n g = false :=
  badDegree_eq_false.2 ⟨h, hn, ne_zero_of_degNat_pos h⟩

theorem generatorPoly_of_lcmFrom_error {e : Raise} (h : lcmFrom r pow n b (d - 1) 0 1 = .error e) :
    generatorPoly r pow n b d = .error e := by
  rw [generatorPoly, h]

variable (h : lcmFrom r pow n b (d - 1) 0 1 = .ok g)

include h

theorem generatorPoly_of_lcmFrom :
    generatorPoly r pow n b d =
      if badDegree n g then .error ⟨.invalidParameters, 2⟩
      else if notDivisor n g then .error ⟨.invalidParameters, 4⟩
      else .ok g := by
  rw [generatorPoly, h]

theorem generatorPoly_badDegree (hdeg : degNat g = 0 ∨ n ≤ degNat g) :
    generatorPoly r pow n b d = .error ⟨.invalidParameters, 2⟩ := by
  rw [generatorPoly_of_lcmFrom h, if_pos (badDegree_eq_true hdeg)]

theorem generatorPoly_notDivisor (hpos : 0 < degNat g) (hlt : degNat g < n) (hdvd : ¬ PolyDivides g (xnPlusOne n)) :
    generatorPoly r pow n b d = .error ⟨.invalidParameters, 4⟩ := by
  have hnd : notDivisor n g = true := by
    rwa [← notDivisor_eq_false (ne_zero_of_degNat_pos hpos), Bool.not_eq_false] at hdvd
  simp [generatorPoly_of_lcmFrom h, badDegree_eq_false_of_degNat hpos hlt, hnd]

theorem generatorPoly_ok (hpos : 0 < degNat g) (hlt : degNat g < n) (hdvd : PolyDivides g (xnPlusOne n)) :
    generatorPoly r pow n b d = .ok g := by
  rw [← notDivisor_eq_false (ne_zero_of_degNat_pos hpos)] at hdvd
  simp [generatorPoly_of_lcmFrom h, badDegree_eq_false_of_degNat hpos hlt, hdvd]

end GeneratorPoly

theorem lcmFrom_error_code {r : Poly} {pow : List Poly} {n b k s : Nat} {g : Poly} {e : Raise}
    (h : lcmFrom r pow n b k s g = .error e) : e.code = .minimalPolynomialError := by
  induction k generalizing s g with
  | zero => cases h
  | succ k ih =>
    rw [lcmFrom] at h
    split at h
    · cases h; rfl
    · exact ih h

theorem generatorPoly_error_code {r : Poly} {pow : List Poly} {n b d : Nat} {e : Raise}
    (h : generatorPoly r pow n b d = .error e) : e.code ≠ .noValidExtension := by
  cases hl : lcmFrom r pow n b (d - 1) 0 1 with
  | error e' =>
    rw [generatorPoly_of_lcmFrom_error hl] at h
    cases h
    rw [lcmFrom_error_code hl]
    decide
  | ok g =>
    rw [generatorPoly_of_lcmFrom hl] at h
    split at h
    · cases h; decide
    · split at h
      · cases h; decide
      · cases h

/-! ### The checks of GEN in order (42_code_generator R186) -/

section Generate

variable {mmax n b d m : Nat} {r g : Poly} {pow : List Poly}

theorem generate_badParameters (h : n < 3 ∨ b < 1 ∨ d < 1 ∨ n < d) :
    generate mmax n b d = .error ⟨.invalidParameters, 1⟩ := by
  have hbad : badParameters n b d = true := by
    by_contra hne
    have := badParameters_eq_false.1 (Bool.eq_false_iff.2 hne)
    omega
  rw [generate, if_pos hbad]

variable (hpar : badParameters n b d = false)

include hpar

theorem generate_noOrder (h : ∀ m, ¬ IsOrder n m) : generate mmax n b d = .error ⟨.noValidExtension, 1⟩ := by
  simp [generate, hpar, order2_none.2 h]

theorem generate_capacity (ho : IsOrder n m) (h : mmax < m) : generate mmax n b d = .error ⟨.capacityExceeded, m⟩ := by
  simp [generate, hpar, order2_some.2 ho, h]

theorem generate_of_search (ho : IsOrder n m) (hm : m ≤ mmax) (hs : searchField m n = some (r, pow)) :
    generate mmax n b d = (generatorPoly r pow n b d).map (mkCode n b d m r pow) := by
  simp only [generate, hpar, order2_some.2 ho, hs, Nat.not_lt.2 hm]
  cases generatorPoly r pow n b d <;> rfl

end Generate

/-- The search cannot fail, so the one NoValidExtension is that of order(2, n) (42_code_generator R172, R176). -/
theorem generate_noValidExtension_info {mmax n b d : Nat} {e : Raise} (h : generate mmax n b d = .error e)
    (he : e.code = .noValidExtension) : e.info = 1 := by
  cases hbad : badParameters n b d with
  | true =>
    rw [generate, if_pos hbad] at h
    cases h
    cases he
  | false =>
    by_cases hex : ∃ m, IsOrder n m
    · obtain ⟨m, ho⟩ := hex
      rcases Nat.lt_or_ge mmax m with hm | hm
      · rw [generate_capacity hbad ho hm] at h
        cases h
        cases he
      · obtain ⟨r, pow, hs⟩ := searchField_finds (badParameters_eq_false.1 hbad).1 ho
        rw [generate_of_search hbad ho hm hs] at h
        cases hg : generatorPoly r pow n b d with
        | ok g => rw [hg] at h; cases h
        | error e' =>
          rw [hg] at h
          cases h
          exact absurd he (generatorPoly_error_code hg)
    · rw [generate_noOrder hbad (not_exists.1 hex)] at h
      cases h
      rfl

theorem exists_areMinPolys_of_generate {mmax n b d : Nat} {c : Code} (h : generate mmax n b d = .ok c) :
    ∃ Ms, AreMinPolys c.r c.n c.b c.d Ms ∧ IsLcmOf Ms c.g := by
  obtain ⟨m, r, pow, g, -, -, -, hr, htable, -, hl, -, -, rfl⟩ := generate_ok h
  exact (lcmFrom_eq_ok_iff hr.1 (powTable_isPowTable htable)).1 hl

theorem generate_of_exec_gen {s t : State} (h : exec .gen s = .next t) (herr : t.err = false) :
    ∃ c, generate s.mmax s.staged.n.toNat s.staged.b.toNat s.staged.d.toNat = .ok c ∧
      t = complete (installGenerated c s) := by
  rcases finish_next (h : execGen s = _) with ⟨c, hc, rfl⟩ | ⟨e, -, rfl⟩
  · exact ⟨c, hc, rfl⟩
  · cases herr

/-! ### The statements -/

/-- Settles O40: by Euler's theorem 2^phi(n) is 1 modulo n, and phi(n) is below n. -/
theorem oddLengthsHaveExtensionDegree : Obligations.OddLengthsHaveExtensionDegree := by
  intro n hn hodd
  obtain ⟨m, ho, hle⟩ := exists_isOrder hn hodd
  exact ⟨m, order2_some.2 ho, ho, two_le_order hn ho, hle⟩

/-- Settles O45: a primitive polynomial of degree m is accepted, because n is at most 2^m - 1. -/
theorem searchFindsCandidate : Obligations.SearchFindsCandidate := by
  refine ⟨fun n m hn ho => ?_, ?_⟩
  · obtain ⟨r, pow, hs⟩ := searchField_finds hn ho
    obtain ⟨hfirst, htable, -⟩ := searchField_some hs
    exact ⟨r, pow, hs, hfirst, powTable_isPowTable htable⟩
  · rintro s t ht ⟨hcode, hinfo⟩
    rcases finish_next (ht : execGen s = _) with ⟨c, -, rfl⟩ | ⟨e, he, rfl⟩
    · cases hcode
    · rw [raiseError_errInfo, generate_noValidExtension_info he hcode] at hinfo
      exact absurd hinfo (by decide)

/-- Settles O44: doubling permutes the class, so when alpha^n = 1 the coefficients of the product are their own
squares. -/
theorem classesGiveMinimalPolynomials : Obligations.ClassesGiveMinimalPolynomials := by
  refine ⟨fun n i hn hodd => ⟨conjClass_head hn hodd i, conjClass_nodup hn hodd i,
    fun j c c' => conjClass_next hn hodd, fun c => conjClass_closes hn hodd⟩,
    fun m n r pow i M h hp => minPoly_eq_some_iff h hp, fun m n r i hn ho h hord => ?_, fun a b ha hb => ?_⟩
  · exact exists_isMinPoly hn (isOrder_odd ho) h hord i
  · exact isLcmOf_foldl_plcm (Ms := [b]) ha (by simpa using hb)

/-- Settles O42: the result of each check, given those before it. -/
theorem genErrorsInOrder : Obligations.GenErrorsInOrder := by
  refine ⟨?_, fun n b d r g pow hl hpos hlt => ⟨fun herr hdvd => ?_, generatorPoly_notDivisor hl hpos hlt⟩⟩
  · rintro s n b d rfl rfl rfl
    refine ⟨fun h => failsWith_of_finish rfl (generate_badParameters h), fun hn hb hd hdn => ?_⟩
    have hpar := badParameters_eq_false.2 ⟨hn, hb, hd, hdn⟩
    refine ⟨fun h => failsWith_of_finish rfl (generate_noOrder hpar (not_exists.1 h)), fun m ho =>
      ⟨fun hm => failsWith_of_finish rfl (generate_capacity hpar ho hm), fun hm r hr => ?_⟩⟩
    obtain ⟨pow, hs⟩ := searchField_iff.2 hr
    have hp := powTable_isPowTable (searchField_some hs).2.1
    have hfail : ∀ {code info}, generatorPoly r pow _ _ _ = .error ⟨code, info⟩ → FailsWith .gen s code info :=
      fun h => failsWith_of_finish rfl (by rw [generate_of_search hpar ho hm hs, h]; rfl)
    refine ⟨fun i hi hsome hnone =>
      hfail (generatorPoly_of_lcmFrom_error (lcmFrom_eq_error hr.1 hp hi hsome hnone)), fun Ms g hlen hMs hg => ?_⟩
    have hl := (lcmFrom_eq_ok_iff hr.1 hp).2 ⟨Ms, ⟨hlen, hMs⟩, hg⟩
    exact ⟨fun hdeg => hfail (generatorPoly_badDegree hl hdeg),
      fun hpos hlt hdvd => hfail (generatorPoly_notDivisor hl hpos hlt hdvd)⟩
  · rw [generatorPoly_ok hl hpos hlt hdvd] at herr
    cases herr

/-- Settles O41: every check passes, and the least common multiple is unique. -/
theorem genInstallsGeneratedCode : Obligations.GenInstallsGeneratedCode := by
  rintro s n b d m r g pow Ms - rfl rfl rfl hn hb hd hdn ho hm hr hp hlen hMs hg hpos hlt hdvd
  have hs := searchField_of_firstAccepted hr hp
  have hl := (lcmFrom_eq_ok_iff hr.1 hp).2 ⟨Ms, ⟨hlen, hMs⟩, hg⟩
  have hgen := generate_of_search (badParameters_eq_false.2 ⟨hn, hb, hd, hdn⟩) ho hm hs
  rw [generatorPoly_ok hl hpos hlt hdvd] at hgen
  have hsucc : SucceedsIn .gen s (installGenerated (mkCode _ _ _ m r pow g) s) := succeedsIn_of_finish rfl hgen
  exact ⟨_, hsucc, rfl, rfl, rfl, rfl, rfl, rfl, rfl, rfl, rfl, rfl, generate_codeOk hgen⟩

/-- Settles O43: what a successful GEN computed, read off its checks. -/
theorem generatedCodeProperties : Obligations.GeneratedCodeProperties := by
  intro s t ht herr
  obtain ⟨c, hc, rfl⟩ := generate_of_exec_gen ht herr
  have hok := generate_codeOk hc
  obtain ⟨Ms, hMs, hg⟩ := exists_areMinPolys_of_generate hc
  refine ⟨c, rfl, hok, hok.g_divides, ?_, fun i hbi hid => ?_, Ms, hMs.1, hMs.2, hg⟩
  · have hlt := hok.g_deg_lt
    have hk := hok.k_eq
    omega
  · obtain ⟨j, rfl⟩ := Nat.exists_eq_add_of_le hbi
    have hj : j < c.d - 1 := by omega
    exact ⟨_, hMs.2 j hj, isLcmOf_mem_polyDivides hg (areMinPolys_getD_mem hMs hj)⟩

end Sys2Proof.Machine
end

section
/-!
ENC (43_encoder R210 to R213): the codeword is the shifted message over the remainder modulo g, and g divides it; a
cyclic shift within length n changes a word by a multiple of x^n + 1; and the statements about ENC.
-/

namespace Sys2Proof.Machine

open Polynomial Sys2Proof.Claims

/-! ### A word as its coefficients from x^n on and those below (00_scope R13) -/

theorem padd_shiftLeft_shiftRight {a j s : Nat} (hs : s < 2 ^ j) : padd (a <<< j) s >>> j = a := by
  rw [padd, Nat.shiftRight_xor_distrib, Nat.shiftLeft_shiftRight, Nat.shiftRight_eq_zero s j hs, Nat.xor_zero]

theorem padd_shiftLeft_mod {a j s : Nat} (hs : s < 2 ^ j) : padd (a <<< j) s % 2 ^ j = s := by
  rw [padd, Nat.xor_mod_two_pow, Nat.shiftLeft_eq, Nat.mul_mod_left, Nat.zero_xor, Nat.mod_eq_of_lt hs]

theorem padd_mod_shiftRight (a n : Nat) : padd (a % 2 ^ n) ((a >>> n) <<< n) = a := by
  refine Nat.eq_of_testBit_eq fun i => ?_
  rw [padd, Nat.testBit_xor, Nat.testBit_mod_two_pow, Nat.testBit_shiftLeft, Nat.testBit_shiftRight]
  by_cases hi : n ≤ i
  · simp [hi, Nat.not_lt.2 hi]
  · simp [hi, Nat.not_le.1 hi]

/-! ### Cyclic shifts (43_encoder R212) -/

/-- Adding the coefficients from x^n on to those below adds a multiple of x^n + 1. -/
theorem toPoly_wrap (a n : Nat) :
    toPoly (padd (a % 2 ^ n) (a >>> n)) = toPoly a + toPoly (a >>> n) * toPoly (xnPlusOne n) := by
  have hsplit := congrArg toPoly (padd_mod_shiftRight a n)
  rw [toPoly_padd, toPoly_shiftLeft] at hsplit
  have hcancel : (toPoly (a >>> n) * X ^ n + toPoly (a >>> n) * X ^ n : (ZMod 2)[X]) = 0 := CharTwo.add_self_eq_zero _
  rw [xnPlusOne, toPoly_padd, toPoly_padd, toPoly_two_pow, toPoly_one]
  linear_combination hsplit - hcancel

/-- A cyclic shift within length n is the product with x^i with its coefficients from x^n on added to those below. -/
theorem polyDivides_cyclicShift {g p n i : Nat} (hp : PolyDivides g p) (hn : PolyDivides g (xnPlusOne n))
    (hi : i ≤ n) :
    PolyDivides g (padd ((p <<< i) % 2 ^ n) (p >>> (n - i))) := by
  have hhigh : p >>> (n - i) = (p <<< i) >>> n := by
    rw [← Nat.add_sub_of_le hi, Nat.shiftRight_add, Nat.shiftLeft_shiftRight, Nat.add_sub_cancel_left]
  rw [polyDivides_iff_toPoly_dvd] at hp hn ⊢
  rw [hhigh, toPoly_wrap, toPoly_shiftLeft]
  exact dvd_add (hp.mul_right _) (hn.mul_left _)

/-! ### The codeword (43_encoder R210) -/

/-- A polynomial less its remainder modulo g is a multiple of g. -/
theorem polyDivides_padd_pmodulo {g : Poly} (hg : g ≠ 0) (a : Poly) : PolyDivides g (padd a (pmodulo a g)) := by
  rw [polyDivides_iff hg, pmodulo_padd _ _ hg, pmodulo_of_lt hg (pmodulo_lt a hg), padd_self]

section GoodCode

variable {mmax : Nat} {c : Code} (h : CodeOk mmax c)

include h

theorem codeOk_g_ne_zero : c.g ≠ 0 := ne_zero_of_degNat_pos h.g_deg_pos

theorem codeOk_k_le : c.k ≤ c.n := h.k_eq ▸ Nat.sub_le _ _

theorem codeOk_pmodulo_g_lt (a : Poly) : pmodulo a c.g < 2 ^ (c.n - c.k) := by
  have hdeg : c.n - c.k = c.g.log2 := by rw [h.k_eq, Nat.sub_sub_self h.g_deg_lt.le, degNat]
  exact hdeg ▸ pmodulo_lt a (codeOk_g_ne_zero h)

theorem codeword_polyDivides (msg : Poly) : PolyDivides c.g (codeword c msg) :=
  polyDivides_padd_pmodulo (codeOk_g_ne_zero h) _

theorem codeword_shiftRight (msg : Poly) : codeword c msg >>> (c.n - c.k) = msg :=
  padd_shiftLeft_shiftRight (codeOk_pmodulo_g_lt h _)

theorem codeword_mod (msg : Poly) :
    codeword c msg % 2 ^ (c.n - c.k) = pmodulo (msg <<< (c.n - c.k)) c.g :=
  padd_shiftLeft_mod (codeOk_pmodulo_g_lt h _)

theorem codeword_lt {msg : Nat} (hmsg : msg < 2 ^ c.k) : codeword c msg < 2 ^ c.n := by
  have hshift : msg <<< (c.n - c.k) < 2 ^ c.n := by
    simpa only [Nat.add_sub_of_le (codeOk_k_le h)] using Nat.shiftLeft_lt (m := c.n - c.k) hmsg
  have hrem : pmodulo (msg <<< (c.n - c.k)) c.g < 2 ^ c.n :=
    (codeOk_pmodulo_g_lt h _).trans_le (Nat.pow_le_pow_right Nat.two_pos (Nat.sub_le _ _))
  exact Nat.xor_lt_two_pow hshift hrem

end GoodCode

/-! ### The completion of ENC (43_encoder R211) -/

theorem encodeMessage_tooLarge {c : Code} {msg : Nat} (h : 2 ^ c.k ≤ msg) :
    encodeMessage c msg = .error ⟨.messageTooLarge, degNat msg⟩ := if_pos (degGe_eq_true.2 h)

theorem encodeMessage_fits {c : Code} {msg : Nat} (h : msg < 2 ^ c.k) : encodeMessage c msg = .ok (codeword c msg) :=
  if_neg (Bool.eq_false_iff.1 (degGe_eq_false.2 h))

section ActiveCode

variable {s t : State} {c : Code}

/-- CW holds every bit of a codeword. -/
theorem goodCode_toWindow_codeword (h : GoodCode s c) (hmsg : msgPoly s < 2 ^ c.k) :
    (toWindow (codeword c (msgPoly s))).toNat = codeword c (msgPoly s) := by
  obtain ⟨hm, -, hc, -⟩ := h
  exact toWindow_toNat ((codeword_lt hc hmsg).trans_le (pow_le_pow_right₀ one_le_two (codeOk_n_le hc hm)))

theorem failsWith_enc (h : s.code = some c) (hmsg : 2 ^ c.k ≤ msgPoly s) :
    FailsWith .enc s .messageTooLarge (degNat (msgPoly s)) :=
  failsWith_of_finish rfl (by rw [needCode_some h]; exact encodeMessage_tooLarge hmsg)

theorem succeedsIn_enc (h : s.code = some c) (hmsg : msgPoly s < 2 ^ c.k) :
    SucceedsIn .enc s (setCw (codeword c (msgPoly s)) s) :=
  succeedsIn_of_finish rfl (by rw [needCode_some h]; exact encodeMessage_fits hmsg)

/-- What a successful ENC leaves in CW; only a message that fits gets there. -/
theorem cw_of_exec_enc (h : GoodCode s c) (ht : exec .enc s = .next t) (herr : t.err = false) :
    t.cw.toNat = codeword c s.msg.toNat := by
  obtain ⟨-, hs, -, -⟩ := id h
  rcases Nat.lt_or_ge (msgPoly s) (2 ^ c.k) with hfits | hlarge
  · obtain rfl := Host.Outcome.next.inj (ht.symm.trans (succeedsIn_enc hs hfits))
    exact goodCode_toWindow_codeword h hfits
  · obtain rfl := Host.Outcome.next.inj (ht.symm.trans (failsWith_enc hs hlarge))
    cases herr

end ActiveCode

/-! ### The statements -/

/-- Settles O50: the remainder modulo g has degree below n - k, so no bit of the codeword stands at or above n. -/
theorem encWritesSystematicCodeword : Obligations.EncWritesSystematicCodeword := by
  refine ⟨rfl, fun s => failsWith_noCode (by decide), fun s c hgood => ?_⟩
  obtain ⟨-, hs, hc, -⟩ := id hgood
  refine ⟨failsWith_enc hs, fun hmsg => ⟨_, succeedsIn_enc hs hmsg, ?_⟩⟩
  rw [goodCode_toWindow_codeword hgood hmsg]
  exact ⟨codeword_lt hc hmsg, _, _, (isDivMod_iff (codeOk_g_ne_zero hc)).2 ⟨rfl, rfl⟩, rfl⟩

/-- Settles O51: g divides s less its remainder, and x^n + 1. -/
theorem encodedWordIsDivisible : Obligations.EncodedWordIsDivisible := by
  intro s t c hgood ht herr
  obtain ⟨-, -, hc, -⟩ := id hgood
  rw [cw_of_exec_enc hgood ht herr]
  have hdvd := codeword_polyDivides hc s.msg.toNat
  exact ⟨hdvd, fun i hi => polyDivides_cyclicShift hdvd hc.g_divides hi⟩

/-- Settles O52: the shifted message has no coefficient below n - k, the remainder none from there on. -/
theorem encodedWordIsSystematic : Obligations.EncodedWordIsSystematic := by
  intro s t c hgood ht herr
  obtain ⟨-, -, hc, -⟩ := id hgood
  rw [cw_of_exec_enc hgood ht herr]
  exact ⟨codeword_shiftRight hc _, codeword_mod hc _⟩

end Sys2Proof.Machine
end

section
/-!
Linear algebra over the field of r (44_decoder R235 to R243). A row of field elements acts on a column over the field
(`rowDot`); the model's determinant is 0 exactly when some column that is not 0 is sent to 0 by every row; and the
Gauss-Jordan elimination of a matrix that is not singular keeps its solutions and ends at the unit matrix.
-/

namespace Sys2Proof.Machine

open Polynomial Sys2Proof.Claims

/-! ### Field elements and their classes modulo r -/

section Field

variable {m : Nat} {r : Poly} (hd : deg r = some m)

include hd

theorem toRing_inj_of_deg {a b : Poly} (ha : a < 2 ^ m) (hb : b < 2 ^ m) : toRing r a = toRing r b ↔ a = b := by
  obtain ⟨hr, rfl⟩ := deg_eq_some.1 hd
  exact toRing_inj hr ha hb

theorem toRing_eq_zero_iff {a : Poly} (ha : a < 2 ^ m) : toRing r a = 0 ↔ a = 0 := by
  rw [← toRing_zero r, toRing_inj_of_deg hd ha (Nat.two_pow_pos _)]

/-- Every element of the ring of r is the class of one field element. -/
theorem exists_toRing_eq (x : AdjoinRoot (toPoly r)) : ∃ a < 2 ^ m, toRing r a = x := by
  obtain ⟨hr, rfl⟩ := deg_eq_some.1 hd
  obtain ⟨f, rfl⟩ := AdjoinRoot.mk_surjective x
  obtain ⟨a, rfl⟩ := toPoly_surjective f
  exact ⟨red r a, red_lt hr a, toRing_red hr a⟩

theorem fmul_lt_of_deg (a b : Poly) : fmul r a b < 2 ^ m := by
  obtain ⟨hr, rfl⟩ := deg_eq_some.1 hd
  exact fmul_lt hr a b

theorem toRing_fmul_of_deg (a b : Poly) : toRing r (fmul r a b) = toRing r a * toRing r b :=
  toRing_fmul (deg_eq_some.1 hd).1 a b

variable (hm : 1 ≤ m) (hi : IsIrreducible m r)

include hm hi

theorem fquot_lt {a b : Poly} (ha : a < 2 ^ m) (hb : b < 2 ^ m) (hb0 : b ≠ 0) : fquot m r a b < 2 ^ m := by
  obtain ⟨hr, rfl⟩ := deg_eq_some.1 hd
  exact (fquot_spec hm hd hi ha (by rwa [red_of_lt hr hb])).1

/-- The model's quotient is that of the field (41_field_arithmetic R144). -/
theorem toRing_fquot [Fact (Irreducible (toPoly r))] {a b : Poly} (ha : a < 2 ^ m) (hb : b < 2 ^ m) (hb0 : b ≠ 0) :
    toRing r (fquot m r a b) = toRing r a / toRing r b := by
  have hr := (deg_eq_some.1 hd).1
  have hred : red r b ≠ 0 := by
    rw [red_of_lt hr (by rwa [(deg_eq_some.1 hd).2])]
    exact hb0
  have hb' : toRing r b ≠ 0 := fun h => hb0 ((toRing_eq_zero_iff hd hb).1 h)
  rw [eq_div_iff hb', ← toRing_fmul hr, (fquot_spec hm hd hi ha hred).2]

end Field

/-! ### Sums of field elements -/

theorem toRing_foldl_xor (r : Poly) (l : List Nat) (a : Nat) :
    toRing r (l.foldl (fun acc v => acc ^^^ v) a) = toRing r a + (l.map (toRing r)).sum := by
  induction l generalizing a with
  | nil => simp
  | cons v l ih => rw [List.foldl_cons, ih, List.map_cons, List.sum_cons, ← add_assoc, ← toRing_padd]; rfl

theorem toRing_fieldSum (r : Poly) (l : List Nat) : toRing r (fieldSum l) = (l.map (toRing r)).sum := by
  rw [fieldSum, toRing_foldl_xor, toRing_zero, zero_add]

theorem toRing_fieldSum_range (r : Poly) (f : Nat → Poly) (k : Nat) :
    toRing r (fieldSum ((List.range k).map f)) = ∑ j ∈ Finset.range k, toRing r (f j) := by
  rw [toRing_fieldSum, List.map_map]
  rfl

theorem fieldSum_lt {m : Nat} {l : List Nat} (h : ∀ v ∈ l, v < 2 ^ m) : fieldSum l < 2 ^ m := by
  have hacc : ∀ a, a < 2 ^ m → l.foldl (fun acc v => acc ^^^ v) a < 2 ^ m := by
    induction l with
    | nil => exact fun a ha => ha
    | cons v l ih =>
      obtain ⟨hv, hl⟩ := List.forall_mem_cons.1 h
      exact fun a ha => ih hl _ (Nat.xor_lt_two_pow ha hv)
  exact hacc 0 (Nat.two_pow_pos m)

/-! ### Rows of field elements -/

/-- A row of w field elements. -/
def FieldRow (m w : Nat) (row : List Poly) : Prop := row.length = w ∧ ∀ x ∈ row, x < 2 ^ m

theorem getD_lt_of_forall_lt {m : Nat} {l : List Poly} (h : ∀ x ∈ l, x < 2 ^ m) (j : Nat) : l.getD j 0 < 2 ^ m := by
  by_cases hj : j < l.length
  · rw [List.getD_eq_getElem _ _ hj]; exact h _ (List.getElem_mem hj)
  · rw [List.getD_eq_default _ _ (by omega)]; exact Nat.two_pow_pos m

theorem forall_lt_of_getD_lt {m : Nat} {l : List Poly} (h : ∀ j < l.length, l.getD j 0 < 2 ^ m) :
    ∀ x ∈ l, x < 2 ^ m := by
  intro x hx
  obtain ⟨j, hj, rfl⟩ := List.mem_iff_getElem.1 hx
  rw [← List.getD_eq_getElem _ 0 hj]
  exact h j hj

theorem fieldRow_tail {m w : Nat} {row : List Poly} (h : FieldRow m (w + 1) row) : FieldRow m w row.tail :=
  ⟨by rw [List.length_tail, h.1, Nat.add_sub_cancel], fun x hx => h.2 x (List.mem_of_mem_tail hx)⟩

theorem headD_eq_getD (row : List Poly) : row.headD 0 = row.getD 0 0 := by cases row <;> rfl

theorem getD_tail (row : List Poly) (j : Nat) : row.tail.getD j 0 = row.getD (j + 1) 0 := by cases row <;> rfl

theorem getD_map_range {α : Type} (f : Nat → α) {j k : Nat} (hj : j < k) (d : α) :
    ((List.range k).map f).getD j d = f j := by
  rw [List.getD_eq_getElem _ _ (by simpa using hj), List.getElem_map, List.getElem_range]

theorem getD_subScaled {r : Poly} (hr : r ≠ 0) (f : Poly) {m w : Nat} {row p : List Poly} (h : FieldRow m w row)
    (hp : FieldRow m w p) (j : Nat) :
    (subScaled r f row p).getD j 0 = padd (row.getD j 0) (fmul r f (p.getD j 0)) := by
  have hlen : (subScaled r f row p).length = w := by rw [subScaled, List.length_zipWith, h.1, hp.1, min_self]
  by_cases hj : j < w
  · rw [List.getD_eq_getElem _ _ (hlen.symm ▸ hj), List.getD_eq_getElem _ _ (h.1.symm ▸ hj),
      List.getD_eq_getElem _ _ (hp.1.symm ▸ hj)]
    exact List.getElem_zipWith
  · have hge : w ≤ j := not_lt.1 hj
    rw [List.getD_eq_default _ _ (hlen.symm ▸ hge), List.getD_eq_default _ _ (h.1.symm ▸ hge),
      List.getD_eq_default _ _ (hp.1.symm ▸ hge), fmul_zero hr]
    rfl

theorem fieldRow_subScaled {m w : Nat} {r : Poly} (hd : deg r = some m) (f : Poly) {row p : List Poly}
    (h : FieldRow m w row) (hp : FieldRow m w p) : FieldRow m w (subScaled r f row p) := by
  refine ⟨by rw [subScaled, List.length_zipWith, h.1, hp.1, min_self], forall_lt_of_getD_lt fun j _ => ?_⟩
  rw [getD_subScaled (deg_eq_some.1 hd).1 f h hp]
  exact padd_lt (getD_lt_of_forall_lt h.2 j) (fmul_lt_of_deg hd _ _)

/-- The product of a row of width w with a column over the field of r. -/
noncomputable def rowDot (r : Poly) (w : Nat) (row : List Poly) (v : Nat → AdjoinRoot (toPoly r)) :
    AdjoinRoot (toPoly r) :=
  ∑ j ∈ Finset.range w, toRing r (row.getD j 0) * v j

theorem rowDot_subScaled {r : Poly} (hr : r ≠ 0) (f : Poly) {m w : Nat} {row p : List Poly} (h : FieldRow m w row)
    (hp : FieldRow m w p) (v : Nat → AdjoinRoot (toPoly r)) :
    rowDot r w (subScaled r f row p) v = rowDot r w row v + toRing r f * rowDot r w p v := by
  rw [rowDot, rowDot, rowDot, Finset.mul_sum, ← Finset.sum_add_distrib]
  refine Finset.sum_congr rfl fun j _ => ?_
  rw [getD_subScaled hr f h hp, toRing_padd, toRing_fmul hr, add_mul, mul_assoc]

theorem rowDot_succ (r : Poly) (w : Nat) (row : List Poly) (v : Nat → AdjoinRoot (toPoly r)) :
    rowDot r (w + 1) row v = rowDot r w row.tail (fun j => v (j + 1)) + toRing r (row.headD 0) * v 0 := by
  rw [rowDot, Finset.sum_range_succ', headD_eq_getD, rowDot]
  simp only [getD_tail]

/-- The column with x above the entries of v. -/
def consColumn {K : Type} (x : K) (v : Nat → K) : Nat → K
  | 0 => x
  | i + 1 => v i

/-! ### The determinant (44_decoder R236) -/

theorem takePivot_eq_none {rows : Rows} (h : takePivot rows = none) : ∀ row ∈ rows, row.headD 0 = 0 := by
  induction rows with
  | nil => simp
  | cons row rows ih =>
    unfold takePivot at h
    split at h
    · cases h
    · rename_i h0
      split at h
      · rename_i hrows
        exact List.forall_mem_cons.2 ⟨not_not.1 h0, ih hrows⟩
      · cases h

theorem takePivot_eq_some {rows others : Rows} {p : List Poly} (h : takePivot rows = some (p, others)) :
    p.headD 0 ≠ 0 ∧ rows.Perm (p :: others) := by
  induction rows generalizing others with
  | nil => cases h
  | cons row rows ih =>
    unfold takePivot at h
    split at h
    · rename_i h0
      cases h
      exact ⟨h0, .rfl⟩
    · split at h
      · cases h
      · rename_i p' others' hrows
        cases h
        obtain ⟨h0, hperm⟩ := ih hrows
        exact ⟨h0, (hperm.cons row).trans (List.Perm.swap _ _ _)⟩

/-- A matrix of e rows of e field elements. -/
def FieldMatrix (m e : Nat) (rows : Rows) : Prop := rows.length = e ∧ ∀ row ∈ rows, FieldRow m e row

/-- Some column that is not 0 is sent to 0. -/
def HasKernel (r : Poly) (e : Nat) (rows : Rows) : Prop :=
  ∃ v : Nat → AdjoinRoot (toPoly r), (∃ j < e, v j ≠ 0) ∧ ∀ row ∈ rows, rowDot r e row v = 0

/-- The rows that are left after the column of the pivot p is cleared. -/
def clearColumn (m : Nat) (r : Poly) (p : List Poly) (others : Rows) : Rows :=
  others.map fun row => (subScaled r (fquot m r (row.headD 0) (p.headD 0)) row p).tail

section Determinant

variable {m : Nat} {r : Poly} (hd : deg r = some m)

include hd

theorem fieldMatrix_clearColumn {e : Nat} {p : List Poly} {others : Rows} (h : FieldMatrix m (e + 1) (p :: others)) :
    FieldMatrix m e (clearColumn m r p others) := by
  obtain ⟨hlen, hrows⟩ := h
  obtain ⟨hp, hothers⟩ := List.forall_mem_cons.1 hrows
  refine ⟨by simpa [clearColumn] using hlen, List.forall_mem_map.2 fun row hrow => ?_⟩
  exact fieldRow_tail (fieldRow_subScaled hd _ (hothers row hrow) hp)

theorem det_lt (hm : 1 ≤ m) (e : Nat) (rows : Rows) : det m r e rows < 2 ^ m := by
  cases e with
  | zero => exact Nat.one_lt_two_pow (by omega)
  | succ e =>
    unfold det
    split
    · exact Nat.two_pow_pos m
    · exact fmul_lt_of_deg hd _ _

variable (hm : 1 ≤ m) (hi : IsIrreducible m r) [Fact (Irreducible (toPoly r))]

include hm hi

/-- What a row is after the column of p is cleared, on a column whose head makes p vanish. -/
theorem rowDot_clearColumn {e : Nat} {p row : List Poly} (hp : FieldRow m (e + 1) p) (hrow : FieldRow m (e + 1) row)
    (hp0 : p.headD 0 ≠ 0) {v : Nat → AdjoinRoot (toPoly r)} (hv : rowDot r (e + 1) p v = 0) :
    rowDot r e (subScaled r (fquot m r (row.headD 0) (p.headD 0)) row p).tail (fun j => v (j + 1))
      = rowDot r (e + 1) row v := by
  have hr := (deg_eq_some.1 hd).1
  have hplt : p.headD 0 < 2 ^ m := headD_eq_getD p ▸ getD_lt_of_forall_lt hp.2 0
  have hrlt : row.headD 0 < 2 ^ m := headD_eq_getD row ▸ getD_lt_of_forall_lt hrow.2 0
  have hcleared : (subScaled r (fquot m r (row.headD 0) (p.headD 0)) row p).headD 0 = 0 := by
    rw [headD_eq_getD, getD_subScaled hr _ hrow hp, ← headD_eq_getD, ← headD_eq_getD,
      (fquot_spec hm hd hi hrlt (by rwa [red_of_lt hr (by rwa [(deg_eq_some.1 hd).2])])).2, padd_self]
  have hsucc := rowDot_succ r e (subScaled r (fquot m r (row.headD 0) (p.headD 0)) row p) v
  rw [hcleared, toRing_zero, zero_mul, add_zero] at hsucc
  rw [← hsucc, rowDot_subScaled hr _ hrow hp, hv, mul_zero, add_zero]

/-- Clearing the column of a pivot changes nothing about being singular. -/
theorem hasKernel_clearColumn_iff {e : Nat} {p : List Poly} {others : Rows}
    (h : FieldMatrix m (e + 1) (p :: others)) (hp0 : p.headD 0 ≠ 0) :
    HasKernel r e (clearColumn m r p others) ↔ HasKernel r (e + 1) (p :: others) := by
  obtain ⟨hp, hothers⟩ := List.forall_mem_cons.1 h.2
  have hpne : toRing r (p.headD 0) ≠ 0 := fun h0 =>
    hp0 ((toRing_eq_zero_iff hd (headD_eq_getD p ▸ getD_lt_of_forall_lt hp.2 0)).1 h0)
  constructor
  · rintro ⟨v, ⟨j, hj, hvj⟩, hv⟩
    have hdot : rowDot r (e + 1) p (consColumn (-rowDot r e p.tail v / toRing r (p.headD 0)) v) = 0 := by
      rw [rowDot_succ]
      exact (congrArg _ (mul_div_cancel₀ _ hpne)).trans (add_neg_cancel _)
    refine ⟨_, ⟨j + 1, by omega, hvj⟩, List.forall_mem_cons.2 ⟨hdot, fun row hrow => ?_⟩⟩
    rw [← rowDot_clearColumn hd hm hi hp (hothers row hrow) hp0 hdot]
    exact hv _ (List.mem_map_of_mem hrow)
  · rintro ⟨v, ⟨j, hj, hvj⟩, hv⟩
    obtain ⟨hdot, hv⟩ := List.forall_mem_cons.1 hv
    refine ⟨fun i => v (i + 1), ?_, List.forall_mem_map.2 fun row hrow => ?_⟩
    · by_contra hnone
      push Not at hnone
      have htail : rowDot r e p.tail (fun i => v (i + 1)) = 0 :=
        Finset.sum_eq_zero fun i hi => mul_eq_zero_of_right _ (hnone i (Finset.mem_range.1 hi))
      rw [rowDot_succ, htail, zero_add] at hdot
      cases j with
      | zero => exact hvj ((mul_eq_zero.1 hdot).resolve_left hpne)
      | succ j => exact hvj (hnone j (by omega))
    · rw [rowDot_clearColumn hd hm hi hp (hothers row hrow) hp0 hdot]
      exact hv row hrow

/-- The determinant is 0 exactly for a singular matrix. -/
theorem det_eq_zero_iff {e : Nat} {rows : Rows} (h : FieldMatrix m e rows) :
    det m r e rows = 0 ↔ HasKernel r e rows := by
  induction e generalizing rows with
  | zero => exact ⟨fun h0 => absurd h0 one_ne_zero, fun ⟨_, ⟨_, hj, _⟩, _⟩ => absurd hj (Nat.not_lt_zero _)⟩
  | succ e ih =>
    cases hpivot : takePivot rows with
    | none =>
      have hzero : det m r (e + 1) rows = 0 := by rw [det, hpivot]
      refine iff_of_true hzero ⟨fun j => if j = 0 then 1 else 0, ⟨0, by omega, by simp⟩, fun row hrow => ?_⟩
      rw [rowDot_succ, takePivot_eq_none hpivot row hrow]
      simp [rowDot]
    | some po =>
      obtain ⟨p, others⟩ := po
      obtain ⟨hp0, hperm⟩ := takePivot_eq_some hpivot
      have hmat : FieldMatrix m (e + 1) (p :: others) :=
        ⟨hperm.length_eq ▸ h.1, fun row hrow => h.2 row (hperm.mem_iff.2 hrow)⟩
      have hplt : p.headD 0 < 2 ^ m :=
        headD_eq_getD p ▸ getD_lt_of_forall_lt (hmat.2 p List.mem_cons_self).2 0
      have hdet : det m r (e + 1) rows = fmul r (p.headD 0) (det m r e (clearColumn m r p others)) := by
        rw [det, hpivot]; rfl
      have hkernel : HasKernel r (e + 1) rows ↔ HasKernel r (e + 1) (p :: others) := by
        simp only [HasKernel, hperm.mem_iff]
      rw [hkernel, ← hasKernel_clearColumn_iff hd hm hi hmat hp0, ← ih (fieldMatrix_clearColumn hd hmat), hdet,
        ← toRing_eq_zero_iff hd (fmul_lt_of_deg hd _ _), toRing_fmul_of_deg hd, mul_eq_zero,
        toRing_eq_zero_iff hd hplt, toRing_eq_zero_iff hd (det_lt hd hm e _)]
      exact or_iff_right hp0

end Determinant

end Sys2Proof.Machine
end

section
/-!
The locator stage of DEC (44_decoder R235 to R244): the shrink loop finds the largest size whose matrix of syndromes is
not singular, and the Gauss-Jordan elimination, which keeps the columns that every row sends to 0, answers the solution
of the syndrome equations for it.
-/

namespace Sys2Proof.Machine

open Polynomial Sys2Proof.Claims

/-! ### The matrix of syndromes (44_decoder R235) -/

theorem synRows_getD (syn : List Poly) {e i : Nat} (hi : i < e) (w : Nat) :
    (synRows syn e w).getD i [] = (List.range w).map fun j => syn.getD (i + j) 0 := getD_map_range _ hi []

theorem fieldRow_syndromes {m : Nat} {syn : List Poly} (hsyn : ∀ x ∈ syn, x < 2 ^ m) (w i : Nat) :
    FieldRow m w ((List.range w).map fun j => syn.getD (i + j) 0) :=
  ⟨by simp, List.forall_mem_map.2 fun _ _ => getD_lt_of_forall_lt hsyn _⟩

theorem rowDot_syndromes (r : Poly) (syn : List Poly) (w i : Nat) (v : Nat → AdjoinRoot (toPoly r)) :
    rowDot r w ((List.range w).map fun j => syn.getD (i + j) 0) v
      = ∑ j ∈ Finset.range w, toRing r (syn.getD (i + j) 0) * v j :=
  Finset.sum_congr rfl fun j hj => by rw [getD_map_range _ (Finset.mem_range.1 hj)]

/-- Some column that is not 0 is sent to 0 by the e×e matrix of the S (i + j). -/
def HankelSingular {K : Type} [CommRing K] (S : Nat → K) (e : Nat) : Prop :=
  ∃ v : Nat → K, (∃ j < e, v j ≠ 0) ∧ ∀ i < e, ∑ j ∈ Finset.range e, S (i + j) * v j = 0

/-- u solves the syndrome equations of size e (44_decoder R242). -/
def SolvesSyndromes {K : Type} [CommRing K] (S : Nat → K) (e : Nat) (u : Nat → K) : Prop :=
  ∀ i < e, S (i + e) = ∑ j ∈ Finset.range e, S (i + j) * u j

section Singular

variable {m : Nat} {r : Poly} (hd : deg r = some m)

include hd

theorem syndromeSingular_iff (syn : Nat → Poly) (e : Nat) :
    SyndromeSingular m r syn e ↔ HankelSingular (fun j => toRing r (syn j)) e := by
  have hsum : ∀ v : Nat → Poly, ∀ i,
      toRing r (fieldSum ((List.range e).map fun j => fmul r (syn (i + j)) (v j)))
        = ∑ j ∈ Finset.range e, toRing r (syn (i + j)) * toRing r (v j) := fun v i => by
    rw [toRing_fieldSum_range]
    exact Finset.sum_congr rfl fun j _ => toRing_fmul_of_deg hd _ _
  constructor
  · rintro ⟨v, hlt, ⟨j, hj, hvj⟩, hv⟩
    refine ⟨fun j => toRing r (v j), ⟨j, hj, fun h0 => hvj ((toRing_eq_zero_iff hd (hlt j)).1 h0)⟩, fun i hi => ?_⟩
    rw [← hsum, hv i hi, toRing_zero]
  · rintro ⟨v, ⟨j, hj, hvj⟩, hv⟩
    choose u hlt hu using fun j => exists_toRing_eq hd (v j)
    refine ⟨u, hlt, ⟨j, hj, fun h0 => hvj ?_⟩, fun i hi => ?_⟩
    · rw [← hu j, h0, toRing_zero]
    · have hfield : fieldSum ((List.range e).map fun j => fmul r (syn (i + j)) (u j)) < 2 ^ m :=
        fieldSum_lt (List.forall_mem_map.2 fun j _ => fmul_lt_of_deg hd _ _)
      rw [← toRing_eq_zero_iff hd hfield, hsum]
      simpa only [hu] using hv i hi

variable (hm : 1 ≤ m) (hi : IsIrreducible m r) [Fact (Irreducible (toPoly r))] {syn : List Poly}
  (hsyn : ∀ x ∈ syn, x < 2 ^ m)

include hm hi hsyn

/-- The determinant of DEC is 0 exactly when the matrix is singular (44_decoder R236). -/
theorem det_synRows_eq_zero_iff (e : Nat) :
    det m r e (synRows syn e e) = 0 ↔ HankelSingular (fun j => toRing r (syn.getD j 0)) e := by
  have hmat : FieldMatrix m e (synRows syn e e) :=
    ⟨by simp [synRows], List.forall_mem_map.2 fun i _ => fieldRow_syndromes hsyn e i⟩
  rw [det_eq_zero_iff hd hm hi hmat, HasKernel, HankelSingular]
  simp only [synRows, List.forall_mem_map, List.mem_range, rowDot_syndromes]

/-- The shrink loop ends at the largest size that is not singular (44_decoder R240). -/
theorem shrink_spec (t : Nat) :
    ¬ HankelSingular (fun j => toRing r (syn.getD j 0)) (shrink m r syn t) ∧
      ∀ e, shrink m r syn t < e → e ≤ t → HankelSingular (fun j => toRing r (syn.getD j 0)) e := by
  induction t with
  | zero => exact ⟨fun ⟨_, ⟨_, hj, _⟩, _⟩ => absurd hj (Nat.not_lt_zero _), fun e h1 h2 => by omega⟩
  | succ t ih =>
    rw [shrink]
    split <;> rename_i hdet <;> rw [det_synRows_eq_zero_iff hd hm hi hsyn] at hdet
    · refine ⟨ih.1, fun e h1 h2 => ?_⟩
      rcases Nat.lt_or_eq_of_le h2 with hlt | rfl
      · exact ih.2 e h1 (by omega)
      · exact hdet
    · exact ⟨hdet, fun e h1 h2 => by omega⟩

theorem shrink_eq_of_hankelSingular {e t : Nat} (het : e ≤ t)
    (hreg : ¬ HankelSingular (fun j => toRing r (syn.getD j 0)) e)
    (hsing : ∀ e', e < e' → e' ≤ t → HankelSingular (fun j => toRing r (syn.getD j 0)) e') :
    shrink m r syn t = e := by
  obtain ⟨hreg', hsing'⟩ := shrink_spec hd hm hi hsyn t
  rcases lt_trichotomy (shrink m r syn t) e with hlt | heq | hgt
  · exact absurd (hsing' e hlt het) hreg
  · exact heq
  · exact absurd (hsing _ hgt (shrink_le m r syn t)) hreg'

end Singular

/-! ### One column of the elimination (44_decoder R243) -/

theorem swapRows_getD {A : Rows} {p q i : Nat} (hp : p < A.length) (hq : q < A.length) :
    (swapRows A p q).getD i [] = A.getD (Equiv.swap p q i) [] := by
  rw [swapRows]
  by_cases hiq : i = q
  · rw [hiq, Equiv.swap_apply_right, List.getD_eq_getElem _ _ (by simpa using hq), List.getElem_set_self]
  · rw [List.getD_eq_getElem?_getD, List.getElem?_set_ne (Ne.symm hiq), ← List.getD_eq_getElem?_getD]
    by_cases hip : i = p
    · rw [hip, Equiv.swap_apply_left, List.getD_eq_getElem _ _ (by simpa using hp), List.getElem_set_self]
    · rw [Equiv.swap_apply_of_ne_of_ne hip hiq, List.getD_eq_getElem?_getD, List.getElem?_set_ne (Ne.symm hip),
        ← List.getD_eq_getElem?_getD]

theorem reduceColumn_getD {m : Nat} {r : Poly} {A : Rows} {p col i : Nat} (hp : p < A.length) (hcol : col < A.length)
    (hi : i < A.length) :
    (reduceColumn m r A p col).getD i [] =
      if i = col then (A.getD p []).map fun x => fquot m r x (entry A p col)
      else subScaled r (entry A (Equiv.swap p col i) col) (A.getD (Equiv.swap p col i) [])
        ((A.getD p []).map fun x => fquot m r x (entry A p col)) := by
  have hlen : i < (swapRows A p col).length := by simpa [swapRows] using hi
  have hget := swapRows_getD (i := i) hp hcol
  have hpivot : (swapRows A p col).getD col [] = A.getD p [] := by rw [swapRows_getD hp hcol, Equiv.swap_apply_right]
  have hdiag : entry (swapRows A p col) col col = entry A p col := congrArg (List.getD · col 0) hpivot
  rw [List.getD_eq_getElem _ _ hlen] at hget
  rw [reduceColumn, List.getD_eq_getElem _ _ (by simpa using hlen), List.getElem_mapIdx, hget, hpivot, hdiag]
  rfl

/-- Every row of the matrix, e rows of width e + 1, sends the column v to 0. -/
def SolvedBy (r : Poly) (e : Nat) (A : Rows) (v : Nat → AdjoinRoot (toPoly r)) : Prop :=
  ∀ i < e, rowDot r (e + 1) (A.getD i []) v = 0

/-- What the elimination of the columns below col has reached: e rows of width e + 1 with the solutions of A0 and
unit columns below col. -/
structure ReducedTo (m : Nat) (r : Poly) (e col : Nat) (A0 A : Rows) : Prop where
  length_eq : A.length = e
  fieldRow : ∀ i < e, FieldRow m (e + 1) (A.getD i [])
  unit : ∀ i < e, ∀ j < col, entry A i j = if i = j then 1 else 0
  solvedBy_iff : ∀ v, SolvedBy r e A v ↔ SolvedBy r e A0 v

theorem charP_adjoinRoot (r : Poly) [Fact (Irreducible (toPoly r))] : CharP (AdjoinRoot (toPoly r)) 2 :=
  charP_of_injective_algebraMap (algebraMap (ZMod 2) _).injective 2

theorem reducedTo_entry_lt {m e col : Nat} {r : Poly} {A0 A : Rows} (h : ReducedTo m r e col A0 A) {i : Nat}
    (hi : i < e) (j : Nat) : entry A i j < 2 ^ m := getD_lt_of_forall_lt (h.fieldRow i hi).2 j

theorem swap_lt {e p q i : Nat} (hp : p < e) (hq : q < e) (hi : i < e) : Equiv.swap p q i < e := by
  rw [Equiv.swap_apply_def]
  split_ifs <;> assumption

section Pivot

variable {m e col p : Nat} {r : Poly} {A0 A : Rows}

theorem pivotRow_eq_some (h : pivotRow A e col = some p) : p < e ∧ col ≤ p ∧ entry A p col ≠ 0 := by
  have hmem := List.mem_of_find?_eq_some h
  have hprop := List.find?_some h
  exact ⟨List.mem_range.1 hmem, by simpa using hprop⟩

theorem pivotRow_eq_none (h : pivotRow A e col = none) {i : Nat} (hi : i < e) (hcol : col ≤ i) :
    entry A i col = 0 := by
  have := List.find?_eq_none.1 h i (List.mem_range.2 hi)
  simpa [hcol] using this

variable (hd : deg r = some m) (hm : 1 ≤ m) (hi : IsIrreducible m r) (h : ReducedTo m r e col A0 A)
  (hp : pivotRow A e col = some p)

include hd hm hi h hp

/-- Dividing a row by its pivot divides its entries. -/
theorem toRing_getD_pivotRow [Fact (Irreducible (toPoly r))] (j : Nat) :
    toRing r (((A.getD p []).map fun x => fquot m r x (entry A p col)).getD j 0)
      = toRing r (entry A p j) / toRing r (entry A p col) := by
  obtain ⟨hpe, -, hp0⟩ := pivotRow_eq_some hp
  have hlt := reducedTo_entry_lt h hpe
  rw [← toRing_fquot hd hm hi (hlt j) (hlt col) hp0]
  by_cases hj : j < (A.getD p []).length
  · have hentry : entry A p j = (A.getD p [])[j] := List.getD_eq_getElem _ _ hj
    rw [List.getD_eq_getElem _ _ (by simpa using hj), List.getElem_map, hentry]
  · rw [List.getD_eq_default _ _ (by simpa using hj), toRing_fquot hd hm hi (hlt j) (hlt col) hp0, entry,
      List.getD_eq_default _ _ (not_lt.1 hj), toRing_zero, zero_div]

variable (hcol : col < e)

include hcol

theorem fieldRow_reduceColumn {i : Nat} (hie : i < e) :
    FieldRow m (e + 1) ((reduceColumn m r A p col).getD i []) := by
  obtain ⟨hpe, -, hp0⟩ := pivotRow_eq_some hp
  obtain rfl := h.length_eq
  have hpivot : FieldRow m (A.length + 1) ((A.getD p []).map fun x => fquot m r x (entry A p col)) :=
    ⟨by rw [List.length_map, (h.fieldRow p hpe).1], List.forall_mem_map.2 fun x hx =>
      fquot_lt hd hm hi ((h.fieldRow p hpe).2 x hx) (reducedTo_entry_lt h hpe col) hp0⟩
  rw [reduceColumn_getD hpe hcol hie]
  split
  · exact hpivot
  · exact fieldRow_subScaled hd _ (h.fieldRow _ (swap_lt hpe hcol hie)) hpivot

variable [Fact (Irreducible (toPoly r))]

/-- The entries after column col is cleared. -/
theorem toRing_entry_reduceColumn {i : Nat} (hie : i < e) (j : Nat) :
    toRing r (entry (reduceColumn m r A p col) i j) =
      if i = col then toRing r (entry A p j) / toRing r (entry A p col)
      else toRing r (entry A (Equiv.swap p col i) j)
        + toRing r (entry A (Equiv.swap p col i) col) * (toRing r (entry A p j) / toRing r (entry A p col)) := by
  obtain ⟨hpe, -, -⟩ := pivotRow_eq_some hp
  have hdiv := toRing_getD_pivotRow hd hm hi h hp j
  have hcolumn := fieldRow_reduceColumn hd hm hi h hp hcol hcol
  obtain rfl := h.length_eq
  rw [reduceColumn_getD hpe hcol hcol, if_pos rfl] at hcolumn
  rw [entry, reduceColumn_getD hpe hcol hie]
  split
  · exact hdiv
  · rw [getD_subScaled (deg_eq_some.1 hd).1 _ (h.fieldRow _ (swap_lt hpe hcol hie)) hcolumn, toRing_padd,
      toRing_fmul_of_deg hd, hdiv]
    rfl

/-- A row after column col is cleared, on any column v. -/
theorem rowDot_reduceColumn {i : Nat} (hie : i < e) (v : Nat → AdjoinRoot (toPoly r)) :
    rowDot r (e + 1) ((reduceColumn m r A p col).getD i []) v =
      if i = col then rowDot r (e + 1) (A.getD p []) v / toRing r (entry A p col)
      else rowDot r (e + 1) (A.getD (Equiv.swap p col i) []) v
        + toRing r (entry A (Equiv.swap p col i) col)
          * (rowDot r (e + 1) (A.getD p []) v / toRing r (entry A p col)) := by
  have hentry := toRing_entry_reduceColumn hd hm hi h hp hcol hie
  unfold entry at hentry
  simp only [rowDot, hentry]
  split
  · rw [Finset.sum_div]
    exact Finset.sum_congr rfl fun j _ => div_mul_eq_mul_div _ _ _
  · rw [Finset.sum_div, Finset.mul_sum, ← Finset.sum_add_distrib]
    exact Finset.sum_congr rfl fun j _ => by rw [add_mul, mul_assoc, div_mul_eq_mul_div]; rfl

/-- The rows after column col is cleared send the same columns to 0. -/
theorem solvedBy_reduceColumn_iff (v : Nat → AdjoinRoot (toPoly r)) :
    SolvedBy r e (reduceColumn m r A p col) v ↔ SolvedBy r e A v := by
  obtain ⟨hpe, -, hp0⟩ := pivotRow_eq_some hp
  have hpne : toRing r (entry A p col) ≠ 0 :=
    fun h0 => hp0 ((toRing_eq_zero_iff hd (reducedTo_entry_lt h hpe col)).1 h0)
  have hdot := fun {i : Nat} (hie : i < e) => rowDot_reduceColumn hd hm hi h hp hcol hie v
  constructor
  · intro hv i hie
    have hpivot : rowDot r (e + 1) (A.getD p []) v = 0 := by
      have hv' := hv col hcol
      rw [hdot hcol, if_pos rfl] at hv'
      exact (div_eq_zero_iff.1 hv').resolve_right hpne
    by_cases hip : i = p
    · rw [hip, hpivot]
    · have hswap := swap_lt hpe hcol hie
      have hv' := hv _ hswap
      rwa [hdot hswap, if_neg fun heq => hip ((Equiv.swap_apply_eq_iff.1 heq).trans (Equiv.swap_apply_right p col)),
        Equiv.swap_apply_self, hpivot, zero_div, mul_zero, add_zero] at hv'
  · intro hv i hie
    rw [hdot hie, hv p hpe, hv _ (swap_lt hpe hcol hie), zero_div, mul_zero, add_zero, ite_self]

/-- The columns up to col are unit columns after column col is cleared. -/
theorem entry_reduceColumn {i j : Nat} (hie : i < e) (hj : j < col + 1) :
    entry (reduceColumn m r A p col) i j = if i = j then 1 else 0 := by
  obtain ⟨hpe, hcp, hp0⟩ := pivotRow_eq_some hp
  have := charP_adjoinRoot r
  have hlt : entry (reduceColumn m r A p col) i j < 2 ^ m :=
    getD_lt_of_forall_lt (fieldRow_reduceColumn hd hm hi h hp hcol hie).2 j
  have hunit : (if i = j then 1 else 0) < 2 ^ m := by
    split
    · exact Nat.one_lt_two_pow (by omega)
    · exact Nat.two_pow_pos m
  refine (toRing_inj_of_deg hd hlt hunit).1 ?_
  rw [toRing_entry_reduceColumn hd hm hi h hp hcol hie]
  rcases Nat.lt_or_eq_of_le (Nat.lt_succ_iff.1 hj) with hlt | rfl
  · have hpj : entry A p j = 0 := by rw [h.unit p hpe j hlt, if_neg (by omega)]
    have hswap : Equiv.swap p col i = j ↔ i = j := by
      rw [Equiv.swap_apply_eq_iff, Equiv.swap_apply_of_ne_of_ne (by omega) (by omega)]
    rw [hpj, toRing_zero, zero_div, mul_zero, add_zero, h.unit _ (swap_lt hpe hcol hie) j hlt]
    simp only [hswap]
    split
    · rename_i hic
      rw [if_neg (by omega), toRing_zero]
    · rfl
  · have hpne : toRing r (entry A p j) ≠ 0 :=
      fun h0 => hp0 ((toRing_eq_zero_iff hd (reducedTo_entry_lt h hpe j)).1 h0)
    rw [div_self hpne, mul_one, CharTwo.add_self_eq_zero]
    split <;> simp

theorem reducedTo_reduceColumn : ReducedTo m r e (col + 1) A0 (reduceColumn m r A p col) where
  length_eq := by simp [reduceColumn, swapRows, h.length_eq]
  fieldRow _ hie := fieldRow_reduceColumn hd hm hi h hp hcol hie
  unit _ hie _ hj := entry_reduceColumn hd hm hi h hp hcol hie hj
  solvedBy_iff v := (solvedBy_reduceColumn_iff hd hm hi h hp hcol v).trans (h.solvedBy_iff v)

end Pivot

/-! ### The whole elimination (44_decoder R242, R243) -/

section Elimination

variable {m e col : Nat} {r : Poly} {A0 A : Rows}

/-- A row of a matrix with unit columns below col. -/
theorem rowDot_of_unit {w i : Nat} {row : List Poly} (hcol : col ≤ w)
    (hunit : ∀ j < col, row.getD j 0 = if i = j then 1 else 0) (v : Nat → AdjoinRoot (toPoly r)) :
    rowDot r w row v
      = (if i < col then v i else 0) + ∑ j ∈ Finset.Ico col w, toRing r (row.getD j 0) * v j := by
  rw [rowDot, ← Finset.sum_range_add_sum_Ico _ hcol]
  congr 1
  calc ∑ j ∈ Finset.range col, toRing r (row.getD j 0) * v j
      = ∑ j ∈ Finset.range col, if i = j then v j else 0 :=
        Finset.sum_congr rfl fun j hj => by
          rw [hunit j (Finset.mem_range.1 hj)]
          split <;> simp
    _ = if i < col then v i else 0 := by rw [Finset.sum_ite_eq]; simp only [Finset.mem_range]

/-- A column that a matrix with unit columns below col sends to 0 when column col of its other rows is 0. -/
noncomputable def eliminatedColumn (r : Poly) (A : Rows) (col : Nat) (j : Nat) : AdjoinRoot (toPoly r) :=
  if j < col then toRing r (entry A j col) else if j = col then 1 else 0

theorem solvedBy_eliminatedColumn [Fact (Irreducible (toPoly r))] (h : ReducedTo m r e col A0 A) (hcol : col ≤ e)
    (hzero : ∀ i < e, col ≤ i → entry A i col = 0) : SolvedBy r e A (eliminatedColumn r A col) := by
  have := charP_adjoinRoot r
  intro i hie
  have htail : ∑ j ∈ Finset.Ico col (e + 1), toRing r ((A.getD i []).getD j 0) * eliminatedColumn r A col j
      = toRing r (entry A i col) := by
    rw [Finset.sum_eq_single_of_mem col (Finset.mem_Ico.2 ⟨le_rfl, by omega⟩)]
    · simp [eliminatedColumn, entry]
    · intro j hj hne
      simp [eliminatedColumn, hne, Nat.not_lt.2 (Finset.mem_Ico.1 hj).1]
  rw [rowDot_of_unit (i := i) (by omega) (h.unit i hie), htail]
  split
  · rename_i hlt
    rw [eliminatedColumn, if_pos hlt, CharTwo.add_self_eq_zero]
  · rename_i hge
    rw [hzero i hie (not_lt.1 hge), toRing_zero, add_zero]

variable (hd : deg r = some m) (hm : 1 ≤ m) (hi : IsIrreducible m r) [Fact (Irreducible (toPoly r))]

include hd hm hi

/-- The elimination of a matrix whose left part is not singular finds a pivot in every column. -/
theorem gaussJordanFrom_ok (hreg : ∀ v, SolvedBy r e A0 v → v e = 0 → ∀ j < e, v j = 0) {k : Nat}
    (hk : col + k = e) (h : ReducedTo m r e col A0 A) :
    ∃ A', gaussJordanFrom m r e k col A = .ok A' ∧ ReducedTo m r e e A0 A' := by
  induction k generalizing col A with
  | zero => exact ⟨A, rfl, by rwa [show col = e by omega] at h⟩
  | succ k ih =>
    have hcol : col < e := by omega
    cases hp : pivotRow A e col with
    | none =>
      have hsolved := solvedBy_eliminatedColumn h hcol.le fun i hie hci => pivotRow_eq_none hp hie hci
      have hlast : eliminatedColumn r A col e = 0 := by
        simp [eliminatedColumn, Nat.not_lt.2 hcol.le, Nat.ne_of_gt hcol]
      have hone := hreg _ ((h.solvedBy_iff _).1 hsolved) hlast col hcol
      simp [eliminatedColumn] at hone
    | some p =>
      rw [gaussJordanFrom, hp]
      exact ih (by omega) (reducedTo_reduceColumn hd hm hi h hp hcol)

/-- DEC solves the syndrome equations whenever the matrix is not singular, so it never reports DivisionByZero
(44_decoder R243). -/
theorem solveSyndromes_ok {syn : List Poly} (hsyn : ∀ x ∈ syn, x < 2 ^ m)
    (hreg : ¬ HankelSingular (fun j => toRing r (syn.getD j 0)) e) :
    ∃ u, solveSyndromes m r syn e = .ok u ∧ (∀ x ∈ u, x < 2 ^ m) ∧
      SolvesSyndromes (fun j => toRing r (syn.getD j 0)) e (fun j => toRing r (u.getD j 0)) := by
  have hdot : ∀ i < e, ∀ v : Nat → AdjoinRoot (toPoly r), rowDot r (e + 1) ((synRows syn e (e + 1)).getD i []) v
      = ∑ j ∈ Finset.range e, toRing r (syn.getD (i + j) 0) * v j + toRing r (syn.getD (i + e) 0) * v e := by
    intro i hie v
    rw [synRows_getD syn hie, rowDot_syndromes, Finset.sum_range_succ]
  have hstart : ReducedTo m r e 0 (synRows syn e (e + 1)) (synRows syn e (e + 1)) :=
    ⟨by simp [synRows], fun i hie => synRows_getD syn hie (e + 1) ▸ fieldRow_syndromes hsyn (e + 1) i,
      fun _ _ _ hj => absurd hj (Nat.not_lt_zero _), fun _ => Iff.rfl⟩
  have hregular : ∀ v, SolvedBy r e (synRows syn e (e + 1)) v → v e = 0 → ∀ j < e, v j = 0 := by
    intro v hv hve j hj
    by_contra hne
    refine hreg ⟨v, ⟨j, hj, hne⟩, fun i hie => ?_⟩
    have hvi := hv i hie
    rwa [hdot i hie, hve, mul_zero, add_zero] at hvi
  obtain ⟨A, hA, hred⟩ := gaussJordanFrom_ok hd hm hi hregular (Nat.zero_add e) hstart
  have hlt := fun {i : Nat} (hie : i < e) => reducedTo_entry_lt hred hie e
  refine ⟨(List.range e).map fun i => entry A i e, by rw [solveSyndromes, hA]; rfl,
    List.forall_mem_map.2 fun i hie => hlt (List.mem_range.1 hie), fun i hie => ?_⟩
  have := charP_adjoinRoot r
  have hsolved := (hred.solvedBy_iff _).1
    (solvedBy_eliminatedColumn hred le_rfl fun i hie hei => absurd hei (Nat.not_le.2 hie)) i hie
  rw [hdot i hie, eliminatedColumn, if_neg (lt_irrefl e), if_pos rfl, mul_one, CharTwo.add_eq_zero] at hsolved
  refine hsolved.symm.trans (Finset.sum_congr rfl fun j hj => ?_)
  have hje := Finset.mem_range.1 hj
  rw [eliminatedColumn, if_pos hje]
  exact congrArg (fun x => _ * toRing r x) (getD_map_range (fun i => entry A i e) hje 0).symm

end Elimination

end Sys2Proof.Machine
end

section
/-!
DEC (44_decoder R230 to R250): what its stages find, said once (`decodeWord_eq`), the diagnostics it reports them in
(`Reports`), and the statements about DEC of any word.
-/

namespace Sys2Proof.Machine

open Polynomial Sys2Proof.Claims

/-! ### Evaluation as a sum over the coefficients (00_scope R17) -/

theorem aeval_toPoly {K : Type} [CommRing K] [Algebra (ZMod 2) K] {p k : Nat} (hp : p < 2 ^ k) (y : K) :
    aeval y (toPoly p) = ∑ i ∈ Finset.range k, if p.testBit i then y ^ i else 0 := by
  have hsum : toPoly p = ∑ i ∈ Finset.range k, if p.testBit i then X ^ i else 0 := by
    ext i
    rw [sum_bits_coeff, toPoly_coeff]
    by_cases hi : i < k
    · simp [hi]
    · simp [hi, Nat.testBit_lt_two_pow (hp.trans_le (Nat.pow_le_pow_right Nat.two_pos (not_lt.1 hi)))]
  rw [hsum, map_sum]
  refine Finset.sum_congr rfl fun i _ => ?_
  split <;> simp

theorem sum_map_filter {K : Type} [AddCommMonoid K] (f : Nat → Bool) (g : Nat → K) (l : List Nat) :
    ((l.filter f).map g).sum = (l.map fun i => if f i then g i else 0).sum := by
  induction l with
  | nil => rfl
  | cons i l ih =>
    rw [List.filter_cons, List.map_cons, List.sum_cons, ← ih]
    split <;> simp

theorem toRing_evalList_sum {r : Poly} (hr : r ≠ 0) (L : List Poly) (y : Poly) :
    toRing r (evalList r L y) = ∑ j ∈ Finset.range L.length, toRing r (L.getD j 0) * toRing r y ^ j := by
  induction L with
  | nil => simp [evalList]
  | cons a L ih =>
    rw [evalList, toRing_padd, toRing_fmul hr, ih, List.length_cons, Finset.sum_range_succ', Finset.mul_sum, add_comm]
    congr 1
    · exact Finset.sum_congr rfl fun j _ => by rw [List.getD_cons_succ, pow_succ]; ring
    · simp

/-! ### The field of an active code -/

section CodeField

variable {mmax : Nat} {c : Code} (h : CodeOk mmax c)

include h

theorem codeOk_one_le_m : 1 ≤ c.m := Nat.le_of_succ_le h.m_ge

theorem codeOk_irreducible : Irreducible (toPoly c.r) := irreducible_toPoly (codeOk_one_le_m h) h.r_deg h.r_irreducible

/-- alpha^e read off the table of the code (41_field_arithmetic R151). -/
theorem codeOk_codeAlpha (e : Nat) : codeAlpha c e = alphaSeq c.r e := by
  rw [codeAlpha, alphaPow, h.tables.pow_length, codeOk_pow_getD_mod h]

theorem codeOk_evalBin_lt (p y : Poly) : evalBin c.r p y < 2 ^ c.m := by
  rw [← codeOk_r_log2 h]
  refine evalList_lt (codeOk_r_ne_zero h) _ (List.forall_mem_map.2 fun i _ => ?_) y
  have hone := codeOk_one_le_log2 h
  split
  · exact Nat.one_lt_two_pow (by omega)
  · exact Nat.two_pow_pos _

/-! ### The syndromes (44_decoder R232) -/

theorem codeOk_syndromes_lt (rx : Poly) : ∀ x ∈ syndromes c rx, x < 2 ^ c.m :=
  List.forall_mem_map.2 fun _ _ => codeOk_evalBin_lt h rx _

theorem codeOk_syndromes_getD (rx : Poly) {j : Nat} (hj : j < c.d - 1) :
    (syndromes c rx).getD j 0 = evalBin c.r rx (alphaSeq c.r (c.b + j)) := by
  rw [syndromes, getD_map_range _ hj, codeOk_codeAlpha h]

omit h in
theorem syndromes_length (c : Code) (rx : Poly) : (syndromes c rx).length = c.d - 1 := by simp [syndromes]

/-- A syndrome is the sum over the set bits of the received word. -/
theorem codeOk_syndromes_eq_fieldSum {k : Nat} (w : BitVec k) {j : Nat} (hj : j < c.d - 1) :
    (syndromes c w.toNat).getD j 0 =
      fieldSum (((List.range k).filter fun p => w.getLsbD p).map fun p => alphaSeq c.r ((c.b + j) * p)) := by
  have hr := codeOk_r_ne_zero h
  have hlt : fieldSum (((List.range k).filter fun p => w.getLsbD p).map fun p => alphaSeq c.r ((c.b + j) * p))
      < 2 ^ c.m := fieldSum_lt (List.forall_mem_map.2 fun p _ => codeOk_alphaSeq_lt h _)
  rw [codeOk_syndromes_getD h _ hj]
  refine (toRing_inj_of_deg h.r_deg (codeOk_evalBin_lt h _ _) hlt).1 ?_
  rw [toRing_evalBin hr, aeval_toPoly w.isLt, toRing_fieldSum, List.map_map, sum_map_filter]
  refine Finset.sum_congr rfl fun p _ => ?_
  rw [Function.comp_apply, toRing_alphaSeq hr, toRing_alphaSeq hr, pow_mul]
  rfl

end CodeField

theorem syndromes_eq_zero {c : Code} {rx : Poly} (h : ∀ j < c.d - 1, (syndromes c rx).getD j 0 = 0) (j : Nat) :
    (syndromes c rx).getD j 0 = 0 := by
  by_cases hj : j < c.d - 1
  · exact h j hj
  · exact List.getD_eq_default _ _ (by rw [syndromes_length]; omega)

theorem synNonzero_eq_true_iff (syn : List Poly) : synNonzero syn = true ↔ ∃ j < syn.length, syn.getD j 0 ≠ 0 := by
  rw [synNonzero, List.any_eq_true]
  constructor
  · rintro ⟨x, hx, hne⟩
    obtain ⟨j, hj, rfl⟩ := List.mem_iff_getElem.1 hx
    exact ⟨j, hj, by rw [List.getD_eq_getElem _ _ hj]; exact of_decide_eq_true hne⟩
  · rintro ⟨j, hj, hne⟩
    rw [List.getD_eq_getElem _ _ hj] at hne
    exact ⟨_, List.getElem_mem hj, decide_eq_true hne⟩

theorem synNonzero_eq_false_iff (syn : List Poly) : synNonzero syn = false ↔ ∀ j, syn.getD j 0 = 0 := by
  rw [← Bool.not_eq_true, synNonzero_eq_true_iff]
  push Not
  refine ⟨fun h j => ?_, fun h j _ => h j⟩
  by_cases hj : j < syn.length
  · exact h j hj
  · exact List.getD_eq_default _ _ (not_lt.1 hj)

/-! ### The locator and its roots (44_decoder R244, R245) -/

theorem locator_length (u : List Poly) : (locator u).length = u.length + 1 := by simp [locator]

theorem locator_getD_succ (u : List Poly) {h : Nat} (hh : h < u.length) :
    (locator u).getD (h + 1) 0 = u.getD (u.length - 1 - h) 0 := by
  rw [locator, List.getD_cons_succ, List.getD_eq_getElem _ _ (by simpa using hh), List.getElem_reverse,
    List.getD_eq_getElem _ _ (by omega)]

theorem locator_lt {m : Nat} (hm : 1 ≤ m) {u : List Poly} (hu : ∀ x ∈ u, x < 2 ^ m) : ∀ x ∈ locator u, x < 2 ^ m :=
  List.forall_mem_cons.2 ⟨Nat.one_lt_two_pow (by omega), fun x hx => hu x (List.mem_reverse.1 hx)⟩

theorem mem_rootPositions {c : Code} {l : List Poly} {i : Nat} :
    i ∈ rootPositions c l ↔ (1 ≤ i ∧ i ≤ c.n) ∧ evalList c.r l (codeAlpha c i) = 0 := by
  rw [rootPositions, List.mem_filter, List.mem_map, decide_eq_true_iff]
  refine and_congr_left' ⟨?_, fun hi => ⟨i - 1, List.mem_range.2 (by omega), by omega⟩⟩
  rintro ⟨j, hj, rfl⟩
  have := List.mem_range.1 hj
  omega

theorem rootPositions_nodup (c : Code) (l : List Poly) : (rootPositions c l).Nodup :=
  (List.nodup_range.map (add_left_injective 1)).filter _

/-- The locator 1 has no root (44_decoder R245). -/
theorem rootPositions_one {c : Code} (hr : c.r ≠ 0) : rootPositions c [1] = [] := by
  refine List.filter_eq_nil_iff.2 fun i _ => ?_
  simp [evalList, fmul_zero hr, padd]

/-! ### The mask (44_decoder R246, R248) -/

theorem foldl_padd (f : Nat → Poly) (l : List Nat) (a : Poly) :
    l.foldl (fun acc i => padd acc (f i)) a = padd a (l.foldl (fun acc i => padd acc (f i)) 0) := by
  induction l generalizing a with
  | nil => exact (Nat.xor_zero a).symm
  | cons i l ih =>
    have hzero : padd 0 (f i) = f i := Nat.zero_xor _
    rw [List.foldl_cons, ih, List.foldl_cons, hzero, ih (f i), padd_assoc]

theorem maskOf_cons (n i : Nat) (pos : List Nat) : maskOf n (i :: pos) = padd (2 ^ (n - i)) (maskOf n pos) := by
  rw [maskOf, List.foldl_cons, foldl_padd (fun i => 2 ^ (n - i)), padd_comm 0]
  exact congrArg (padd · _) (Nat.xor_zero _)

theorem testBit_maskOf {n : Nat} {pos : List Nat} (hnd : pos.Nodup) (hle : ∀ i ∈ pos, i ≤ n) (p : Nat) :
    (maskOf n pos).testBit p = decide (∃ i ∈ pos, n - i = p) := by
  induction pos with
  | nil => simp [maskOf]
  | cons i pos ih =>
    obtain ⟨hi, hnd⟩ := List.nodup_cons.1 hnd
    obtain ⟨hin, hle⟩ := List.forall_mem_cons.1 hle
    rw [maskOf_cons, padd, Nat.testBit_xor, Nat.testBit_two_pow, ih hnd hle]
    by_cases hp : n - i = p
    · have hnone : ¬ ∃ i' ∈ pos, n - i' = p := by
        rintro ⟨i', hi', hp'⟩
        have := hle i' hi'
        exact hi ((by omega : i = i') ▸ hi')
      simp [hp, hnone]
    · simp [hp]

theorem testBit_maskOf_rootPositions (c : Code) (l : List Poly) (p : Nat) :
    (maskOf c.n (rootPositions c l)).testBit p = true ↔ p < c.n ∧ c.n - p ∈ rootPositions c l := by
  have hmem := fun {i : Nat} (hi : i ∈ rootPositions c l) => (mem_rootPositions.1 hi).1
  rw [testBit_maskOf (rootPositions_nodup c l) (fun i hi => (hmem hi).2), decide_eq_true_iff]
  constructor
  · rintro ⟨i, hi, rfl⟩
    have hin := hmem hi
    exact ⟨by omega, by rwa [show c.n - (c.n - i) = i by omega]⟩
  · rintro ⟨hp, hi⟩
    exact ⟨_, hi, by omega⟩

theorem maskOf_rootPositions_lt (c : Code) (l : List Poly) : maskOf c.n (rootPositions c l) < 2 ^ c.n := by
  refine Nat.lt_pow_two_of_testBit _ fun p hp => Bool.eq_false_iff.2 fun htrue => ?_
  exact absurd ((testBit_maskOf_rootPositions c l p).1 htrue).1 (not_lt.2 hp)

/-- The mask has one bit for each position. -/
theorem windowWeight_of_mem_rootPositions {c : Code} {l : List Poly} {w : Window} (hn : c.n ≤ 4096)
    (hw : ∀ p, w.getLsbD p = true ↔ p < c.n ∧ c.n - p ∈ rootPositions c l) :
    windowWeight w = (rootPositions c l).length := by
  have hmem := fun {i : Nat} (hi : i ∈ rootPositions c l) => (mem_rootPositions.1 hi).1
  have hperm : ((List.range 4096).filter fun p => w.getLsbD p).Perm ((rootPositions c l).map (c.n - ·)) := by
    refine (List.perm_ext_iff_of_nodup (List.nodup_range.filter _) ?_).2 fun p => ?_
    · refine (rootPositions_nodup c l).map_on fun i hi j hj hij => ?_
      have := hmem hi
      have := hmem hj
      omega
    · rw [List.mem_filter, List.mem_range, hw, List.mem_map]
      constructor
      · rintro ⟨-, hp, hi⟩
        exact ⟨_, hi, by omega⟩
      · rintro ⟨i, hi, rfl⟩
        have hin := hmem hi
        exact ⟨by omega, by omega, by rwa [show c.n - (c.n - i) = i by omega]⟩
  rw [windowWeight, List.countP_eq_length_filter, hperm.length_eq, List.length_map]

/-! ### What DEC finds (44_decoder R230 to R248) -/

/-- What DEC has found when u is the solution of the syndrome equations. -/
def decodedOf (c : Code) (syn u : List Poly) : Decoded :=
  ⟨syn, u.length, locator u, rootPositions c (locator u), maskOf c.n (rootPositions c (locator u))⟩

/-- u holds field elements and solves the syndrome equations of the size the shrink loop ends at. -/
structure IsSolution (c : Code) (syn u : List Poly) : Prop where
  length_eq : u.length = shrink c.m c.r syn c.t
  lt : ∀ x ∈ u, x < 2 ^ c.m
  solves : SolvesSyndromes (fun j => toRing c.r (syn.getD j 0)) u.length (fun j => toRing c.r (u.getD j 0))

theorem decodeWord_tooLong {c : Code} {rx : Nat} (h : 2 ^ c.n ≤ rx) :
    decodeWord c rx = .error ⟨.codewordTooLarge, degNat rx⟩ := if_pos (degGe_eq_true.2 h)

/-- With every syndrome 0 no error is declared (44_decoder R233). -/
theorem decodeWord_of_zero {c : Code} {rx : Nat} (h : rx < 2 ^ c.n) (hzero : synNonzero (syndromes c rx) = false) :
    decodeWord c rx = .ok ⟨syndromes c rx, 0, [1], [], 0⟩ := by
  rw [decodeWord, degGe_eq_false.2 h]
  simp only [hzero, Bool.false_eq_true, if_false]

theorem decodeWord_of_nonzero {c : Code} {rx : Nat} (h : rx < 2 ^ c.n) (hne : synNonzero (syndromes c rx) = true) :
    decodeWord c rx = locateErrors c (syndromes c rx) := by
  rw [decodeWord, degGe_eq_false.2 h]
  simp only [hne, if_true, Bool.false_eq_true, if_false]

/-- With every syndrome 0 every matrix of syndromes is singular. -/
theorem hankelSingular_of_zero {K : Type} [CommRing K] [Nontrivial K] {S : Nat → K} (hS : ∀ j, S j = 0) {e : Nat}
    (he : 0 < e) : HankelSingular S e :=
  ⟨fun _ => 1, ⟨0, he, one_ne_zero⟩, fun i _ => Finset.sum_eq_zero fun j _ => by rw [hS, zero_mul]⟩

/-- DEC of a word in length finds a solution of the syndrome equations, which is empty when every syndrome is 0. -/
theorem decodeWord_eq {mmax : Nat} {c : Code} (h : CodeOk mmax c) {rx : Nat} (hrx : rx < 2 ^ c.n) :
    ∃ u, IsSolution c (syndromes c rx) u ∧ decodeWord c rx = .ok (decodedOf c (syndromes c rx) u) := by
  have : Fact (Irreducible (toPoly c.r)) := ⟨codeOk_irreducible h⟩
  have hm := codeOk_one_le_m h
  have hsyn := codeOk_syndromes_lt h rx
  cases hz : synNonzero (syndromes c rx) with
  | false =>
    have hzero := (synNonzero_eq_false_iff _).1 hz
    have hshrink : shrink c.m c.r (syndromes c rx) c.t = 0 := by
      refine shrink_eq_of_hankelSingular h.r_deg hm h.r_irreducible hsyn (Nat.zero_le _) ?_ fun e he _ => ?_
      · rintro ⟨_, ⟨_, hj, _⟩, _⟩
        exact absurd hj (Nat.not_lt_zero _)
      · exact hankelSingular_of_zero (fun j => by rw [hzero, toRing_zero]) he
    refine ⟨[], ⟨hshrink.symm, fun x hx => absurd hx List.not_mem_nil, fun i hi => absurd hi (Nat.not_lt_zero _)⟩, ?_⟩
    rw [decodeWord_of_zero hrx hz, decodedOf, locator, List.reverse_nil, rootPositions_one (codeOk_r_ne_zero h)]
    rfl
  | true =>
    have hreg := (shrink_spec h.r_deg hm h.r_irreducible hsyn c.t).1
    obtain ⟨u, hu, hlt, hsolves⟩ := solveSyndromes_ok h.r_deg hm h.r_irreducible hsyn hreg
    have hlen := solveSyndromes_length hu
    refine ⟨u, ⟨hlen, hlt, hlen ▸ hsolves⟩, ?_⟩
    rw [decodeWord_of_nonzero hrx hz, locateErrors]
    simp only [hu]
    rw [decodedOf, hlen]
    rfl

/-! ### The completion of DEC (44_decoder R250) -/

section ActiveCode

variable {s t : State} {c : Code}

theorem failsWith_dec (h : s.code = some c) (hcw : 2 ^ c.n ≤ cwPoly s) :
    FailsWith .dec s .codewordTooLarge (degNat (cwPoly s)) :=
  failsWith_of_finish rfl (by
    rw [needCode_some h]
    exact congrArg (Except.map _) (decodeWord_tooLong hcw))

theorem succeedsIn_dec (h : s.code = some c) {dw : Decoded} (hdw : decodeWord c (cwPoly s) = .ok dw) :
    SucceedsIn .dec s (setDecoded (messageOf c (cwPoly s) dw.mask) (diagnosticsOf dw) s) := by
  have hres : (needCode s).bind (fun c => decodeReceived c (cwPoly s))
      = .ok (messageOf c (cwPoly s) dw.mask, diagnosticsOf dw) := by
    rw [needCode_some h]
    exact congrArg (Except.map _) hdw
  exact succeedsIn_of_finish (install := installDecoded) rfl hres

/-- With every syndrome 0 the high coefficients are the message (44_decoder R233). -/
theorem succeedsIn_dec_of_zero (h : s.code = some c) (hcw : cwPoly s < 2 ^ c.n)
    (hzero : ∀ j, (syndromes c (cwPoly s)).getD j 0 = 0) :
    SucceedsIn .dec s
      (setDecoded (cwPoly s >>> (c.n - c.k)) (diagnosticsOf ⟨syndromes c (cwPoly s), 0, [1], [], 0⟩) s) := by
  have hmsg : messageOf c (cwPoly s) 0 = cwPoly s >>> (c.n - c.k) := congrArg (· >>> (c.n - c.k)) (Nat.xor_zero _)
  rw [← hmsg]
  exact succeedsIn_dec h (decodeWord_of_zero hcw ((synNonzero_eq_false_iff _).2 hzero))

/-- A window holds a number of at most 4096 bits. -/
theorem toWindow_getLsbD {p : Poly} (h : p < 2 ^ 4096) (j : Nat) : (toWindow p).getLsbD j = p.testBit j :=
  congrArg (Nat.testBit · j) (toWindow_toNat h)

theorem tableEntry_toTable_toNat {vs : List Nat} (h : ∀ x ∈ vs, x < 2 ^ 32) (j : Nat) :
    (tableEntry (toTable vs) j).toNat = vs.getD j 0 := by
  rw [tableEntry_toTable, toWord_toNat (getD_lt_of_forall_lt h j)]

/-- The diagnostics hold what DEC has found: no number is cut (44_decoder R250). -/
structure Reports (c : Code) (syn u : List Poly) (dg : Diagnostics) : Prop where
  syn_eq : ∀ j, (tableEntry dg.syn j).toNat = syn.getD j 0
  synNz_eq : dg.synNz = synNonzero syn
  decE_eq : dg.decE.toNat = u.length
  elp_eq : ∀ j, (tableEntry dg.elp j).toNat = (locator u).getD j 0
  errpos_eq : ∀ j, (tableEntry dg.errpos j).toNat = (rootPositions c (locator u)).getD j 0
  decNerr_eq : dg.decNerr.toNat = (rootPositions c (locator u)).length
  errmask_iff : ∀ p, dg.errmask.getLsbD p = true ↔ p < c.n ∧ c.n - p ∈ rootPositions c (locator u)

theorem isSolution_length_le {syn u : List Poly} (hu : IsSolution c syn u) : u.length ≤ c.t :=
  hu.length_eq ▸ shrink_le c.m c.r syn c.t

theorem reports_diagnosticsOf {mmax : Nat} (hc : CodeOk mmax c) (hmmax : legalMmax mmax = true) {syn u : List Poly}
    (hsyn : ∀ x ∈ syn, x < 2 ^ c.m) (hu : IsSolution c syn u) :
    Reports c syn u (diagnosticsOf (decodedOf c syn u)) := by
  have hn : c.n ≤ 4096 := codeOk_n_le hc hmmax
  have helement : ∀ x, x < 2 ^ c.m → x < 2 ^ 32 := fun x hx => by
    have := codeOk_two_pow_m_le hc hmmax
    omega
  have hpos : ∀ i ∈ rootPositions c (locator u), i < 2 ^ 32 := fun i hi => by
    have := (mem_rootPositions.1 hi).1
    omega
  have hcount := rootPositions_length_le c (locator u)
  have hmask := (maskOf_rootPositions_lt c (locator u)).trans_le (pow_le_pow_right₀ one_le_two hn)
  have he : u.length < 2 ^ 32 := by
    have hle := isSolution_length_le hu
    have ht := hc.t_eq
    have hdn := hc.d_le
    omega
  exact
    { syn_eq := tableEntry_toTable_toNat fun x hx => helement x (hsyn x hx)
      synNz_eq := rfl
      decE_eq := toWord_toNat he
      elp_eq := tableEntry_toTable_toNat fun x hx => helement x (locator_lt (codeOk_one_le_m hc) hu.lt x hx)
      errpos_eq := tableEntry_toTable_toNat hpos
      decNerr_eq := toWord_toNat (by omega : (rootPositions c (locator u)).length < 2 ^ 32)
      errmask_iff := fun p => by
        rw [← testBit_maskOf_rootPositions, ← toWindow_getLsbD hmask]
        rfl }

/-- DEC of a word in length succeeds, and the corrected word gives the message (44_decoder R249). -/
theorem succeedsIn_dec_reports (h : GoodCode s c) (hcw : cwPoly s < 2 ^ c.n) :
    ∃ u dg, IsSolution c (syndromes c (cwPoly s)) u ∧ Reports c (syndromes c (cwPoly s)) u dg ∧
      SucceedsIn .dec s (setDecoded ((s.cw ^^^ dg.errmask).toNat >>> (c.n - c.k)) dg s) := by
  obtain ⟨hmmax, hs, hc, -⟩ := h
  obtain ⟨u, hu, hdw⟩ := decodeWord_eq hc hcw
  refine ⟨u, _, hu, reports_diagnosticsOf hc hmmax (codeOk_syndromes_lt hc _) hu, ?_⟩
  have hmask := (maskOf_rootPositions_lt c (locator u)).trans_le (pow_le_pow_right₀ one_le_two (codeOk_n_le hc hmmax))
  have hcx : (s.cw ^^^ toWindow (maskOf c.n (rootPositions c (locator u)))).toNat
      = padd (cwPoly s) (maskOf c.n (rootPositions c (locator u))) := by
    rw [BitVec.toNat_xor, toWindow_toNat hmask]
    rfl
  have hsucc := succeedsIn_dec hs hdw
  rw [messageOf, decodedOf, ← hcx] at hsucc
  exact hsucc

/-- What a successful DEC leaves in the diagnostics; only a word in length gets there. -/
theorem reports_of_exec_dec (h : GoodCode s c) (ht : exec .dec s = .next t) (herr : t.err = false) :
    ∃ u, IsSolution c (syndromes c s.cw.toNat) u ∧ Reports c (syndromes c s.cw.toNat) u t.diag := by
  rcases Nat.lt_or_ge (cwPoly s) (2 ^ c.n) with hfits | hlong
  · obtain ⟨u, dg, hu, hrep, hsucc⟩ := succeedsIn_dec_reports h hfits
    obtain rfl := Host.Outcome.next.inj (ht.symm.trans hsucc)
    exact ⟨u, hu, hrep⟩
  · obtain rfl := Host.Outcome.next.inj (ht.symm.trans (failsWith_dec h.2.1 hlong))
    cases herr

end ActiveCode

/-! ### The statements -/

/-- Settles O53: the length check comes before everything else. -/
theorem decRejectsLongWord : Obligations.DecRejectsLongWord := fun _ _ => failsWith_dec

/-- Settles O54: the table holds the syndromes, each the sum over the set bits, and 0 after them. -/
theorem syndromesEvaluateReceivedWord : Obligations.SyndromesEvaluateReceivedWord := by
  intro s t c hgood ht herr
  obtain ⟨-, -, hc, -⟩ := id hgood
  obtain ⟨u, -, hrep⟩ := reports_of_exec_dec hgood ht herr
  have hne : ∀ j, tableEntry t.diag.syn j ≠ 0 ↔ (syndromes c s.cw.toNat).getD j 0 ≠ 0 := fun j => by
    rw [← hrep.syn_eq, Ne, Ne, ← BitVec.toNat_inj]
    rfl
  refine ⟨fun j hj => (hrep.syn_eq j).trans (codeOk_syndromes_eq_fieldSum hc s.cw hj), fun j hj => ?_, ?_⟩
  · refine BitVec.eq_of_toNat_eq ((hrep.syn_eq j).trans ?_)
    exact List.getD_eq_default _ _ (by rwa [syndromes_length])
  · simp only [hrep.synNz_eq, synNonzero_eq_true_iff, syndromes_length, hne]

/-- Settles O55: with every syndrome 0 the locator stage is left out. -/
theorem decZeroSyndromesReturnWord : Obligations.DecZeroSyndromesReturnWord := by
  intro s c hgood hcw hsums
  obtain ⟨-, hs, hc, -⟩ := id hgood
  have hzero : ∀ j, (syndromes c s.cw.toNat).getD j 0 = 0 := syndromes_eq_zero fun j hj =>
    (codeOk_syndromes_eq_fieldSum hc s.cw hj).trans (hsums j hj)
  refine ⟨_, succeedsIn_dec_of_zero hs hcw hzero, rfl, rfl, rfl, (synNonzero_eq_false_iff _).2 hzero, fun j => ?_,
    fun j => rfl, fun j => ?_⟩
  · exact (tableEntry_toTable _ j).trans (congrArg toWord (hzero j))
  · refine (tableEntry_toTable _ j).trans ?_
    cases j <;> rfl

/-- Settles O56: the matrix the shrink loop ends at is not singular, so the elimination finds every pivot. -/
theorem decAlwaysSucceedsInLength : Obligations.DecAlwaysSucceedsInLength := by
  intro s c hgood hcw
  obtain ⟨-, dg, -, -, hsucc⟩ := succeedsIn_dec_reports hgood hcw
  exact ⟨dg, hsucc⟩

/-- Settles O57: the positions are the roots of the locator, and the mask has the bit of each. -/
theorem decFlipsRootPositions : Obligations.DecFlipsRootPositions := by
  intro s t c hgood ht herr
  obtain ⟨hmmax, -, hc, -⟩ := id hgood
  obtain ⟨u, -, hrep⟩ := reports_of_exec_dec hgood ht herr
  have hpos : rootPositions c (locator u) =
      ((List.range c.n).map (· + 1)).filter fun i => decide (evalList c.r (locator u) (alphaSeq c.r i) = 0) := by
    simp only [rootPositions, codeOk_codeAlpha hc]
  refine ⟨locator u, by rw [locator_length, hrep.decE_eq], rfl, hrep.elp_eq, ?_, ?_⟩
  · rw [← hpos]
    refine ⟨hrep.decNerr_eq, hrep.errpos_eq, fun i h1 hin => ?_, fun p hp => ?_⟩
    · rw [hrep.errmask_iff, Nat.sub_sub_self hin]
      exact and_iff_right (by omega)
    · exact Bool.eq_false_iff.2 fun htrue => absurd ((hrep.errmask_iff p).1 htrue).1 (not_lt.2 hp)
  · rw [windowWeight_of_mem_rootPositions (codeOk_n_le hc hmmax) hrep.errmask_iff, hrep.decNerr_eq]

/-- Settles O58: the shrink loop ends at the largest size with a nonzero determinant, and the elimination keeps the
solutions of its equations. -/
theorem decLocatorSolvesSyndromes : Obligations.DecLocatorSolvesSyndromes := by
  intro s t c hgood ht herr
  obtain ⟨-, -, hc, -⟩ := id hgood
  obtain ⟨u, hu, hrep⟩ := reports_of_exec_dec hgood ht herr
  have : Fact (Irreducible (toPoly c.r)) := ⟨codeOk_irreducible hc⟩
  have hsyn := codeOk_syndromes_lt hc s.cw.toNat
  obtain ⟨hreg, hsing⟩ := shrink_spec hc.r_deg (codeOk_one_le_m hc) hc.r_irreducible hsyn c.t
  rw [← hu.length_eq] at hreg hsing
  simp only [hrep.decE_eq, hrep.syn_eq, hrep.elp_eq, syndromeSingular_iff hc.r_deg]
  refine ⟨rfl, isSolution_length_le hu, hreg, hsing, fun i hi => ?_⟩
  have hsum : fieldSum ((List.range u.length).map fun h => fmul c.r ((locator u).getD (h + 1) 0)
      ((syndromes c s.cw.toNat).getD (i + u.length - (h + 1)) 0)) < 2 ^ c.m :=
    fieldSum_lt (List.forall_mem_map.2 fun h _ => fmul_lt_of_deg hc.r_deg _ _)
  refine (toRing_inj_of_deg hc.r_deg (getD_lt_of_forall_lt hsyn _) hsum).1 ?_
  rw [toRing_fieldSum_range, ← Finset.sum_range_reflect]
  refine (hu.solves i hi).trans (Finset.sum_congr rfl fun j hj => ?_)
  have hj := Finset.mem_range.1 hj
  rw [toRing_fmul_of_deg hc.r_deg, locator_getD_succ u (by omega), mul_comm,
    show u.length - 1 - (u.length - 1 - j) = j by omega,
    show i + u.length - (u.length - 1 - j + 1) = i + j by omega]

end Sys2Proof.Machine
end

section
/-!
Why DEC corrects (44_decoder R234, R241, R251), over any field: when the syndromes are the power sums of v distinct
locators with weights that are not 0, the matrix of size v is not singular, every larger one is, and the solution of the
syndrome equations of size v is the polynomial that vanishes exactly at the locators.
-/

namespace Sys2Proof.Machine

open Polynomial Sys2Proof.Claims

variable {K : Type} [Field K]

/-! ### Columns and rows of powers -/

/-- The polynomial of degree below k with the given coefficients. -/
noncomputable def columnPoly (k : Nat) (v : Nat → K) : K[X] := ∑ j ∈ Finset.range k, C (v j) * X ^ j

theorem columnPoly_eval (k : Nat) (v : Nat → K) (x : K) :
    (columnPoly k v).eval x = ∑ j ∈ Finset.range k, v j * x ^ j := by
  simp [columnPoly, eval_finsetSum]

theorem columnPoly_coeff {k j : Nat} (v : Nat → K) (hj : j < k) : (columnPoly k v).coeff j = v j := by
  simp [columnPoly, finsetSum_coeff, coeff_X_pow, hj]

theorem columnPoly_degree_lt (k : Nat) (v : Nat → K) : (columnPoly k v).degree < k := by
  refine (degree_lt_iff_coeff_zero _ _).2 fun i hi => ?_
  simp only [columnPoly, finsetSum_coeff, coeff_C_mul, coeff_X_pow]
  refine Finset.sum_eq_zero fun j hj => ?_
  rw [if_neg (by have := Finset.mem_range.1 hj; omega), mul_zero]

/-- A polynomial with more roots than its degree is 0. -/
theorem column_eq_zero_of_roots {F : Finset K} {k : Nat} (hk : k ≤ F.card) {v : Nat → K}
    (h : ∀ x ∈ F, ∑ j ∈ Finset.range k, v j * x ^ j = 0) : ∀ j < k, v j = 0 := by
  have hzero : columnPoly k v = 0 := by
    refine eq_zero_of_degree_lt_of_eval_finset_eq_zero F ?_ fun x hx => (columnPoly_eval k v x).trans (h x hx)
    exact (columnPoly_degree_lt k v).trans_le (by exact_mod_cast hk)
  intro j hj
  rw [← columnPoly_coeff v hj, hzero, coeff_zero]

variable (E : Finset K)

theorem sum_mul_eval (Z : K → K) {Q : K[X]} {k : Nat} (hQ : Q.natDegree < k) :
    ∑ x ∈ E, Z x * Q.eval x = ∑ i ∈ Finset.range k, Q.coeff i * ∑ x ∈ E, Z x * x ^ i := by
  simp only [eval_eq_sum_range' hQ, Finset.mul_sum]
  rw [Finset.sum_comm]
  exact Finset.sum_congr rfl fun i _ => Finset.sum_congr rfl fun x _ => mul_left_comm _ _ _

variable {E}

/-- Weights whose power sums of order below the number of points are 0 are all 0. -/
theorem weights_eq_zero_of_power_sums {Z : K → K} (h : ∀ i < E.card, ∑ x ∈ E, Z x * x ^ i = 0) :
    ∀ x ∈ E, Z x = 0 := by
  classical
  intro x hx
  have hdegree : (Lagrange.nodal (E.erase x) id).natDegree < E.card := by
    rw [Lagrange.natDegree_nodal]
    exact Finset.card_erase_lt_of_mem hx
  have hzero : ∑ y ∈ E, Z y * (Lagrange.nodal (E.erase x) id).eval y = 0 := by
    rw [sum_mul_eval E Z hdegree]
    exact Finset.sum_eq_zero fun i hi => by rw [h i (Finset.mem_range.1 hi), mul_zero]
  rw [Finset.sum_eq_single_of_mem x hx fun y hy hne => by
    rw [← id_eq y, Lagrange.eval_nodal_at_node (Finset.mem_erase.2 ⟨hne, hy⟩), mul_zero]] at hzero
  refine (mul_eq_zero.1 hzero).resolve_right (Lagrange.eval_nodal_not_at_node fun y hy => ?_)
  exact (Finset.ne_of_mem_erase hy).symm

/-! ### Power sums (44_decoder R234, R241) -/

/-- S j is the power sum of order j of the locators E with weights Y, none of them 0, for j below k. -/
structure IsPowerSum {K : Type} [CommRing K] (E : Finset K) (Y : K → K) (S : Nat → K) (k : Nat) : Prop where
  eq_sum : ∀ j < k, S j = ∑ x ∈ E, Y x * x ^ j
  weight_ne_zero : ∀ x ∈ E, Y x ≠ 0

variable {Y : K → K} {S : Nat → K} {t : Nat} (h : IsPowerSum E Y S (2 * t))

include h

/-- A row of the matrix of syndromes on a column. -/
theorem sum_powerSum_mul {e i : Nat} (hie : i + e ≤ 2 * t) (v : Nat → K) :
    ∑ j ∈ Finset.range e, S (i + j) * v j = ∑ x ∈ E, Y x * (∑ j ∈ Finset.range e, v j * x ^ j) * x ^ i := by
  simp only [Finset.mul_sum, Finset.sum_mul]
  rw [Finset.sum_comm]
  refine Finset.sum_congr rfl fun j hj => ?_
  have hj := Finset.mem_range.1 hj
  rw [h.eq_sum _ (by omega), Finset.sum_mul]
  exact Finset.sum_congr rfl fun x _ => by rw [pow_add]; ring

/-- The coefficients of the polynomial of the locators make every larger matrix singular. -/
theorem hankelSingular_of_card_lt {e : Nat} (he : E.card < e) (het : e ≤ t) : HankelSingular S e := by
  have hdegree : (Lagrange.nodal E id).natDegree = E.card := Lagrange.natDegree_nodal
  have hlead : (Lagrange.nodal E id).coeff E.card = 1 := hdegree ▸ Lagrange.nodal_monic.coeff_natDegree
  refine ⟨(Lagrange.nodal E id).coeff, ⟨E.card, he, fun h0 => one_ne_zero (hlead.symm.trans h0)⟩, fun i hi => ?_⟩
  rw [sum_powerSum_mul h (by omega)]
  refine Finset.sum_eq_zero fun x hx => ?_
  rw [← eval_eq_sum_range' (hdegree ▸ he), ← id_eq x, Lagrange.eval_nodal_at_node hx, mul_zero, zero_mul]

/-- The matrix of the size of the number of locators is not singular. -/
theorem not_hankelSingular_card (hcard : E.card ≤ t) : ¬ HankelSingular S E.card := by
  rintro ⟨v, ⟨j, hj, hvj⟩, hv⟩
  have hweights := weights_eq_zero_of_power_sums fun i hi => (sum_powerSum_mul h (by omega) v).symm.trans (hv i hi)
  exact hvj (column_eq_zero_of_roots le_rfl
    (fun x hx => (mul_eq_zero.1 (hweights x hx)).resolve_left (h.weight_ne_zero x hx)) j hj)

section Solution

variable (hcard : E.card ≤ t) {u : Nat → K} (hu : SolvesSyndromes S E.card u)

include hcard hu

/-- The polynomial that a solution of the syndrome equations gives vanishes at the locators. -/
theorem pow_card_eq_of_mem {x : K} (hx : x ∈ E) : x ^ E.card = ∑ j ∈ Finset.range E.card, u j * x ^ j := by
  have hweights : ∀ x ∈ E, Y x * (x ^ E.card - ∑ j ∈ Finset.range E.card, u j * x ^ j) = 0 := by
    refine weights_eq_zero_of_power_sums fun i hi => ?_
    have hrow := hu i hi
    rw [sum_powerSum_mul h (by omega), h.eq_sum _ (by omega), ← sub_eq_zero, ← Finset.sum_sub_distrib] at hrow
    rw [← hrow]
    exact Finset.sum_congr rfl fun x _ => by rw [pow_add]; ring
  exact sub_eq_zero.1 ((mul_eq_zero.1 (hweights x hx)).resolve_left (h.weight_ne_zero x hx))

/-- It has no other root, since its degree is the number of the locators. -/
theorem pow_card_eq_iff_mem (y : K) : y ^ E.card = ∑ j ∈ Finset.range E.card, u j * y ^ j ↔ y ∈ E := by
  classical
  refine ⟨fun hy => ?_, pow_card_eq_of_mem h hcard hu⟩
  by_contra hmem
  have hroots : ∀ x ∈ insert y E, x ^ E.card = ∑ j ∈ Finset.range E.card, u j * x ^ j :=
    Finset.forall_mem_insert _ _ _ |>.2 ⟨hy, fun x hx => pow_card_eq_of_mem h hcard hu hx⟩
  have hcolumn : ∀ x ∈ insert y E,
      ∑ j ∈ Finset.range (E.card + 1), Function.update u E.card (-1) j * x ^ j = 0 := by
    intro x hx
    rw [Finset.sum_range_succ, Function.update_self, neg_one_mul, hroots x hx, ← sub_eq_add_neg, sub_eq_zero]
    exact Finset.sum_congr rfl fun j hj => by
      rw [Function.update_of_ne (Nat.ne_of_lt (Finset.mem_range.1 hj))]
  have hlast := column_eq_zero_of_roots (Finset.card_insert_of_notMem hmem).ge hcolumn E.card (Nat.lt_succ_self _)
  rw [Function.update_self] at hlast
  exact absurd hlast (neg_ne_zero.2 one_ne_zero)

end Solution

end Sys2Proof.Machine
end

section
/-!
DEC of a codeword with errors (44_decoder R234, R241, R251), for a code of GEN with ord = n: every codeword has all
syndromes 0, the syndromes of a word are the power sums of alpha^p over its error positions p, so DEC finds the errors;
and the statements about it.
-/

namespace Sys2Proof.Machine

open Polynomial Sys2Proof.Claims

/-! ### The roots of the generator polynomial (42_code_generator R180 to R182) -/

/-- The minimal polynomial M_i is the product over its class, at every element of the field. -/
theorem aeval_isMinPoly {r M : Poly} {n i : Nat} (hr : r ≠ 0) (h : IsMinPoly r n i M) (y : AdjoinRoot (toPoly r)) :
    aeval y (toPoly M) = ((conjClass n i).map fun e => y + toRing r 2 ^ e).prod := by
  have hmap : (toPoly M).map (algebraMap (ZMod 2) (AdjoinRoot (toPoly r)))
      = (((conjClass n i).map (alphaSeq r)).map fun a => X + C (toRing r a)).prod := by
    ext j
    rw [coeff_map, toPoly_coeff, ← toRing_prodCoeff hr, h j]
    split <;> simp
  rw [aeval_def, eval₂_eq_eval_map, hmap, eval_list_prod, List.map_map, List.map_map]
  refine congrArg List.prod (List.map_congr_left fun e _ => ?_)
  simp only [Function.comp_apply, eval_add, eval_X, eval_C, toRing_alphaSeq hr]

section CodeField

variable {mmax : Nat} {c : Code} (h : CodeOk mmax c)

include h

theorem codeOk_alpha_ne_zero (e : Nat) : toRing c.r 2 ^ e ≠ 0 := by
  rw [← toRing_alphaSeq (codeOk_r_ne_zero h)]
  exact fun h0 => codeOk_alphaSeq_ne_zero h e ((toRing_eq_zero_iff h.r_deg (codeOk_alphaSeq_lt h e)).1 h0)

theorem codeOk_alpha_pow_injOn {i j : Nat} (hi : i < c.ord) (hj : j < c.ord)
    (heq : toRing c.r 2 ^ i = toRing c.r 2 ^ j) : i = j := by
  have hr := codeOk_r_ne_zero h
  rw [← toRing_alphaSeq hr, ← toRing_alphaSeq hr,
    toRing_inj_of_deg h.r_deg (codeOk_alphaSeq_lt h i) (codeOk_alphaSeq_lt h j)] at heq
  exact alphaSeq_injOn hr (codeOk_one_le_log2 h) h.ord_is hi hj heq

theorem codeOk_alpha_pow_ord : toRing c.r 2 ^ c.ord = 1 := by
  rw [← toRing_alphaSeq (codeOk_r_ne_zero h), h.ord_is.2.2.1, toRing_one]

/-- A syndrome is the value of the received word in the field (44_decoder R232). -/
theorem codeOk_toRing_syndromes (rx : Poly) {j : Nat} (hj : j < c.d - 1) :
    toRing c.r ((syndromes c rx).getD j 0) = aeval (toRing c.r 2 ^ (c.b + j)) (toPoly rx) := by
  have hr := codeOk_r_ne_zero h
  rw [codeOk_syndromes_getD h rx hj, toRing_evalBin hr, toRing_alphaSeq hr]

variable (hord : c.ord = c.n)

include hord

/-- alpha^i is a root of M_i when ord = n. -/
theorem aeval_isMinPoly_self {M : Poly} {i : Nat} (hM : IsMinPoly c.r c.n i M) :
    aeval (toRing c.r 2 ^ i) (toPoly M) = 0 := by
  have : Fact (Irreducible (toPoly c.r)) := ⟨codeOk_irreducible h⟩
  have := charP_adjoinRoot c.r
  have hr := codeOk_r_ne_zero h
  have hmem : i % c.n ∈ conjClass c.n i := List.mem_of_head? (conjClass_head h.n_ge (isOrder_odd h.order) i)
  have hpow : toRing c.r 2 ^ (i % c.n) = toRing c.r 2 ^ i := by
    rw [← hord, ← toRing_alphaSeq hr, ← toRing_alphaSeq hr, alphaSeq_mod hr (codeOk_one_le_log2 h) h.ord_is]
  rw [aeval_isMinPoly hr hM]
  refine List.prod_eq_zero (List.mem_map.2 ⟨_, hmem, ?_⟩)
  rw [hpow, CharTwo.add_self_eq_zero]

variable (hgen : generate mmax c.n c.b c.d = .ok c)

include hgen

/-- Every multiple of g vanishes at alpha^b, ..., alpha^(b + d - 2) (44_decoder R234). -/
theorem aeval_eq_zero_of_polyDivides {p : Poly} (hp : PolyDivides c.g p) {j : Nat} (hj : j < c.d - 1) :
    aeval (toRing c.r 2 ^ (c.b + j)) (toPoly p) = 0 := by
  obtain ⟨Ms, hMs, hg⟩ := exists_areMinPolys_of_generate hgen
  have hM := isLcmOf_mem_polyDivides hg (areMinPolys_getD_mem hMs hj)
  rw [polyDivides_iff_toPoly_dvd] at hM hp
  exact aeval_eq_zero_of_dvd_aeval_eq_zero (hM.trans hp) (aeval_isMinPoly_self h hord (hMs.2 j hj))

theorem syndromes_eq_zero_of_polyDivides {p : Poly} (hp : PolyDivides c.g p) (j : Nat) :
    (syndromes c p).getD j 0 = 0 := by
  refine syndromes_eq_zero (fun j hj => ?_) j
  rw [← toRing_eq_zero_iff h.r_deg (getD_lt_of_forall_lt (codeOk_syndromes_lt h p) j), codeOk_toRing_syndromes h p hj,
    aeval_eq_zero_of_polyDivides h hord hgen hp hj]

end CodeField

/-! ### The error positions and their locators -/

/-- The set bits of an error pattern. -/
def errorPositions {w : Nat} (err : BitVec w) : List Nat := (List.range w).filter fun p => err.getLsbD p

theorem errorPositions_length (err : Window) : (errorPositions err).length = windowWeight err :=
  List.countP_eq_length_filter.symm

theorem lt_of_testBit {a p n : Nat} (hbit : a.testBit p = true) (ha : a < 2 ^ n) : p < n :=
  (Nat.pow_lt_pow_iff_right Nat.one_lt_two).1 ((Nat.ge_two_pow_of_testBit hbit).trans_lt ha)

theorem mem_errorPositions_iff {w n : Nat} {err : BitVec w} (herr : err.toNat < 2 ^ n) {p : Nat} :
    p ∈ errorPositions err ↔ p < n ∧ err.getLsbD p = true := by
  rw [errorPositions, List.mem_filter, List.mem_range]
  refine and_congr_left fun hbit => iff_of_true ?_ ?_
  · by_contra hge
    rw [BitVec.getLsbD_of_ge _ _ (not_lt.1 hge)] at hbit
    cases hbit
  · exact lt_of_testBit hbit herr

/-- alpha^p for the set bits p of an error pattern. -/
noncomputable def errorLocators (r : Poly) {w : Nat} (err : BitVec w) : Finset (AdjoinRoot (toPoly r)) :=
  @List.toFinset _ (Classical.decEq _) ((errorPositions err).map (toRing r 2 ^ ·))

/-- The locator at y is the reverse polynomial at the inverse of y (44_decoder R244). -/
theorem toRing_evalList_locator {r : Poly} (hr : r ≠ 0) (u : List Poly) {y : Poly} {y' : AdjoinRoot (toPoly r)}
    (hy : toRing r y * y' = 1) :
    toRing r (evalList r (locator u) y) = toRing r y ^ u.length *
      (y' ^ u.length + ∑ j ∈ Finset.range u.length, toRing r (u.getD j 0) * y' ^ j) := by
  have hpow : ∀ j ≤ u.length, toRing r y ^ u.length * y' ^ j = toRing r y ^ (u.length - j) := fun j hj => by
    rw [← Nat.sub_add_cancel hj, pow_add, mul_assoc, ← mul_pow, hy, one_pow, mul_one, Nat.add_sub_cancel]
  rw [toRing_evalList_sum hr, locator_length, Finset.sum_range_succ', ← Finset.sum_range_reflect, mul_add,
    hpow _ le_rfl, Nat.sub_self, add_comm, Finset.mul_sum]
  congr 1
  · simp [locator]
  · refine Finset.sum_congr rfl fun j hj => ?_
    have hj := Finset.mem_range.1 hj
    rw [locator_getD_succ u (by omega), mul_left_comm, hpow j hj.le,
      show u.length - 1 - (u.length - 1 - j) = j by omega, show u.length - 1 - j + 1 = u.length - j by omega]

section Errors

variable {mmax w : Nat} {c : Code} (h : CodeOk mmax c) {err : BitVec w} (herr : err.toNat < 2 ^ c.n)

include h herr

theorem codeOk_alpha_pow_injOn_errors {p q : Nat} (hp : p ∈ errorPositions err) (hq : q < c.n)
    (heq : toRing c.r 2 ^ p = toRing c.r 2 ^ q) : p = q :=
  codeOk_alpha_pow_injOn h (((mem_errorPositions_iff herr).1 hp).1.trans_le h.ord_ge) (hq.trans_le h.ord_ge) heq

theorem errorLocators_nodup : ((errorPositions err).map (toRing c.r 2 ^ ·)).Nodup :=
  (List.nodup_range.filter _).map_on fun _ hp _ hq heq =>
    codeOk_alpha_pow_injOn_errors h herr hp ((mem_errorPositions_iff herr).1 hq).1 heq

theorem errorLocators_card : (errorLocators c.r err).card = (errorPositions err).length := by
  rw [errorLocators, List.toFinset_card_of_nodup (errorLocators_nodup h herr), List.length_map]

theorem alpha_pow_mem_errorLocators {p : Nat} (hp : p < c.n) :
    toRing c.r 2 ^ p ∈ errorLocators c.r err ↔ err.getLsbD p = true := by
  rw [errorLocators, List.mem_toFinset, List.mem_map]
  constructor
  · rintro ⟨q, hq, heq⟩
    exact codeOk_alpha_pow_injOn_errors h herr hq hp heq ▸ ((mem_errorPositions_iff herr).1 hq).2
  · exact fun hbit => ⟨p, (mem_errorPositions_iff herr).2 ⟨hp, hbit⟩, rfl⟩

variable (hord : c.ord = c.n) (hgen : generate mmax c.n c.b c.d = .ok c) {cw : Nat} (hcw : PolyDivides c.g cw)

include hord hgen hcw

/-- The syndromes of a codeword with errors are the power sums of the locators (44_decoder R234). -/
theorem isPowerSum_syndromes :
    IsPowerSum (errorLocators c.r err) (· ^ c.b)
      (fun j => toRing c.r ((syndromes c (padd cw err.toNat)).getD j 0)) (2 * c.t) := by
  refine ⟨fun j hj => ?_, fun x hx => ?_⟩
  · have ht := h.t_eq
    have hjd : j < c.d - 1 := by omega
    have hterm : ∀ p, (toRing c.r 2 ^ (c.b + j)) ^ p = (toRing c.r 2 ^ p) ^ c.b * (toRing c.r 2 ^ p) ^ j :=
      fun p => by ring
    rw [codeOk_toRing_syndromes h _ hjd, toPoly_padd, map_add, aeval_eq_zero_of_polyDivides h hord hgen hcw hjd,
      zero_add, aeval_toPoly err.isLt, errorLocators, List.sum_toFinset _ (errorLocators_nodup h herr), List.map_map,
      errorPositions, sum_map_filter]
    exact Finset.sum_congr rfl fun p _ => if_congr Iff.rfl (hterm p) rfl
  · obtain ⟨p, -, rfl⟩ := List.mem_map.1 (List.mem_toFinset.1 hx)
    rw [← pow_mul]
    exact codeOk_alpha_ne_zero h (p * c.b)

variable (hweight : (errorPositions err).length ≤ c.t) {u : List Poly}
  (hu : IsSolution c (syndromes c (padd cw err.toNat)) u)

include hweight hu

/-- The shrink loop ends at the number of errors (44_decoder R241). -/
theorem isSolution_length_eq_card : u.length = (errorLocators c.r err).card := by
  have : Fact (Irreducible (toPoly c.r)) := ⟨codeOk_irreducible h⟩
  have hcard := (errorLocators_card h herr).trans_le hweight
  have hsums := isPowerSum_syndromes h herr hord hgen hcw
  rw [hu.length_eq]
  exact shrink_eq_of_hankelSingular h.r_deg (codeOk_one_le_m h) h.r_irreducible (codeOk_syndromes_lt h _) hcard
    (not_hankelSingular_card hsums hcard) fun e he het => hankelSingular_of_card_lt hsums he het

/-- The roots of the locator DEC solves for are the positions of the errors (44_decoder R241, R246). -/
theorem mem_rootPositions_iff_error (i : Nat) :
    i ∈ rootPositions c (locator u) ↔ (1 ≤ i ∧ i ≤ c.n) ∧ err.getLsbD (c.n - i) = true := by
  have : Fact (Irreducible (toPoly c.r)) := ⟨codeOk_irreducible h⟩
  have := charP_adjoinRoot c.r
  have hr := codeOk_r_ne_zero h
  have hcard := (errorLocators_card h herr).trans_le hweight
  have hsums := isPowerSum_syndromes h herr hord hgen hcw
  have hsize := isSolution_length_eq_card h herr hord hgen hcw hweight hu
  have hsolves := hu.solves
  rw [hsize] at hsolves
  rw [mem_rootPositions]
  refine and_congr_right fun ⟨h1, hin⟩ => ?_
  have hinv : toRing c.r (alphaSeq c.r i) * toRing c.r 2 ^ (c.n - i) = 1 := by
    rw [toRing_alphaSeq hr, ← pow_add, Nat.add_sub_of_le hin, ← hord, codeOk_alpha_pow_ord h]
  have hlt : evalList c.r (locator u) (alphaSeq c.r i) < 2 ^ c.m := by
    have hl := locator_lt (codeOk_one_le_m h) hu.lt
    rw [← codeOk_r_log2 h] at hl ⊢
    exact evalList_lt hr _ hl _
  rw [codeOk_codeAlpha h, ← toRing_eq_zero_iff h.r_deg hlt, toRing_evalList_locator hr u hinv,
    mul_eq_zero_iff_left (pow_ne_zero _ (left_ne_zero_of_mul_eq_one hinv)), CharTwo.add_eq_zero, hsize,
    pow_card_eq_iff_mem hsums hcard hsolves,
    alpha_pow_mem_errorLocators h herr (by omega)]

end Errors

/-- The positions DEC reports, in increasing order (44_decoder R248). -/
theorem rootPositions_eq_of_mem_iff {c : Code} {l : List Poly} {f : Nat → Bool}
    (h : ∀ i, i ∈ rootPositions c l ↔ (1 ≤ i ∧ i ≤ c.n) ∧ f i = true) :
    rootPositions c l = (List.range' 1 c.n).filter f := by
  have hrange : (List.range c.n).map (· + 1) = List.range' 1 c.n := by
    rw [List.range'_eq_map_range]
    exact List.map_congr_left fun j _ => Nat.add_comm j 1
  rw [rootPositions, hrange]
  refine List.filter_congr fun i hi => Bool.eq_iff_iff.2 ?_
  have hin := List.mem_range'_1.1 hi
  have hi := (mem_rootPositions (c := c) (l := l) (i := i)).symm.trans (h i)
  rw [and_congr_right_iff] at hi
  exact decide_eq_true_iff.trans (hi (by omega))

theorem toWindow_toNat_self (w : Window) : toWindow w.toNat = w := by
  rw [toWindow, BitVec.ofNat_toNat, BitVec.setWidth_eq]

/-- The high coefficients of a codeword are the message (43_encoder R213). -/
theorem toWindow_codeword_shiftRight {mmax : Nat} {c : Code} (h : CodeOk mmax c) (s : State) :
    toWindow (codeword c (msgPoly s) >>> (c.n - c.k)) = s.msg := by
  rw [codeword_shiftRight h]
  exact toWindow_toNat_self s.msg

/-! ### The statements -/

/-- Settles O59: a codeword has every syndrome 0, and its high coefficients are the message. -/
theorem encodeThenDecodeRoundTrip : Obligations.EncodeThenDecodeRoundTrip := by
  intro s c hgood hgen hord hmsg
  obtain ⟨-, hs, hc, -⟩ := id hgood
  have hcw := goodCode_toWindow_codeword hgood hmsg
  have hzero := syndromes_eq_zero_of_polyDivides hc hord hgen (codeword_polyDivides hc (msgPoly s))
  have hhigh := toWindow_codeword_shiftRight hc s
  rw [← hcw] at hzero hhigh
  have hdec := succeedsIn_dec_of_zero (s := completed (setCw (codeword c (msgPoly s)) s)) hs
    (hcw.trans_lt (codeword_lt hc hmsg)) hzero
  exact ⟨_, _, succeedsIn_enc hs hmsg, rfl, hdec, rfl, hhigh, (synNonzero_eq_false_iff _).2 hzero, rfl, rfl⟩

/-- DEC corrects every pattern of at most t errors in a multiple of g of degree below n (44_decoder R251). -/
theorem exec_dec_corrects {s : State} {c : Code} {err : Window} {cw : Nat} (hgood : GoodCode s c)
    (hgen : generate s.mmax c.n c.b c.d = .ok c) (hord : c.ord = c.n) (hcw : PolyDivides c.g cw) (hlt : cw < 2 ^ c.n)
    (herr : err.toNat < 2 ^ c.n) (hweight : windowWeight err ≤ c.t) (hrx : cwPoly s = padd cw err.toNat) :
    ∃ u, exec .dec s = .next u ∧ u.err = false ∧ u.msg = toWindow (cw >>> (c.n - c.k)) ∧ u.diag.errmask = err ∧
      u.diag.decNerr.toNat = windowWeight err ∧
      ∀ j, (tableEntry u.diag.errpos j).toNat =
        ((List.range' 1 c.n).filter fun i => err.getLsbD (c.n - i)).getD j 0 := by
  obtain ⟨hmmax, -, hc, -⟩ := id hgood
  have hfits : cwPoly s < 2 ^ c.n := hrx ▸ padd_lt hlt herr
  obtain ⟨u, dg, hu, hrep, hsucc⟩ := succeedsIn_dec_reports hgood hfits
  rw [hrx] at hu
  rw [← errorPositions_length] at hweight
  have hmem := mem_rootPositions_iff_error hc herr hord hgen hcw hweight hu
  have hbit : ∀ p, dg.errmask.getLsbD p = true ↔ err.getLsbD p = true := fun p => by
    rw [hrep.errmask_iff, hmem]
    constructor
    · rintro ⟨hp, -, hbit⟩
      rwa [Nat.sub_sub_self hp.le] at hbit
    · intro hbit
      have hp := lt_of_testBit hbit herr
      exact ⟨hp, by omega, by rwa [Nat.sub_sub_self hp.le]⟩
  have hmask : dg.errmask = err := BitVec.eq_of_getLsbD_eq fun p _ => Bool.eq_iff_iff.2 (hbit p)
  have hcorrected : (s.cw ^^^ dg.errmask).toNat = cw := by
    rw [hmask, BitVec.toNat_xor]
    exact (congrArg (padd · err.toNat) hrx).trans (Nat.xor_xor_cancel_right cw err.toNat)
  rw [hcorrected] at hsucc
  refine ⟨_, hsucc, rfl, rfl, hmask, ?_, fun j => ?_⟩
  · exact hrep.decNerr_eq.trans ((windowWeight_of_mem_rootPositions (codeOk_n_le hc hmmax) hrep.errmask_iff).symm.trans
      (congrArg windowWeight hmask))
  · exact (hrep.errpos_eq j).trans (congrArg (List.getD · j 0) (rootPositions_eq_of_mem_iff hmem))

/-- Settles O60: the roots of the locator are the error positions, so the mask is the error pattern. -/
theorem decCorrectsUpToRadius : Obligations.DecCorrectsUpToRadius := by
  intro s t c err hgood hgen hord hmsg ht herr hweight
  obtain ⟨-, hs, hc, -⟩ := id hgood
  obtain rfl := Host.Outcome.next.inj (ht.symm.trans (succeedsIn_enc hs hmsg))
  have hrx : (toWindow (codeword c (msgPoly s)) ^^^ err).toNat = padd (codeword c (msgPoly s)) err.toNat := by
    rw [BitVec.toNat_xor, goodCode_toWindow_codeword hgood hmsg]
    rfl
  rw [← toWindow_codeword_shiftRight hc s]
  exact exec_dec_corrects (s := { completed (setCw (codeword c (msgPoly s)) s) with
      cw := toWindow (codeword c (msgPoly s)) ^^^ err }) hgood hgen hord
    (codeword_polyDivides hc (msgPoly s)) (codeword_lt hc hmsg) herr hweight hrx

end Sys2Proof.Machine
end

section
/-!
LOAD, SAVE and NOP (45_descriptor_and_control R280 to R288): what each of the eight checks of LOAD answers, given those
before it; the staging registers hold every record; a record fixes its code; and the statements about the three commands.
-/

namespace Sys2Proof.Machine

open Sys2Proof.Claims

/-! ### The checks of r (45_descriptor_and_control R281, steps 4 to 6) -/

section CheckFieldPoly

variable {m n : Nat} {r : Poly}

/-- CPOW finds ord(r) whenever it is defined (41_field_arithmetic R141). -/
theorem exists_powTable_of_isOrd {e : Nat} (h : IsOrd m r e) : ∃ pow, powTable m r = some pow ∧ pow.length = e := by
  cases hp : powTable m r with
  | none => exact absurd h (powTable_none hp e)
  | some pow => exact ⟨pow, rfl, isOrd_unique (powTable_some hp).1 h⟩

theorem checkFieldPoly_wrongDegree (hd : deg r ≠ some m) : checkFieldPoly m n r = .error ⟨.invalidParameters, 3⟩ :=
  if_pos hd

theorem checkFieldPoly_reducible (hd : deg r = some m) (hi : ¬ IsIrreducible m r) :
    checkFieldPoly m n r = .error ⟨.noValidExtension, 3⟩ := by
  rw [← irreducible_iff, Bool.not_eq_true] at hi
  simp [checkFieldPoly, hd, hi]

theorem checkFieldPoly_shortOrd (hd : deg r = some m) (hi : IsIrreducible m r)
    (hord : ¬ ∃ e, IsOrd m r e ∧ n ≤ e) : checkFieldPoly m n r = .error ⟨.noValidExtension, 4⟩ := by
  rw [← irreducible_iff] at hi
  cases hp : powTable m r with
  | none => simp [checkFieldPoly, hd, hi, hp]
  | some pow =>
    have hlt : pow.length < n := Nat.lt_of_not_le fun hn => hord ⟨_, (powTable_some hp).1, hn⟩
    simp [checkFieldPoly, hd, hi, hp, hlt]

theorem exists_checkFieldPoly (h : IsAccepted m n r) : ∃ pow, checkFieldPoly m n r = .ok pow := by
  obtain ⟨hd, hi, e, he, hn⟩ := h
  obtain ⟨pow, hp, rfl⟩ := exists_powTable_of_isOrd he
  exact ⟨pow, checkFieldPoly_ok.2 ⟨hd, hi, hp, hn⟩⟩

end CheckFieldPoly

/-! ### The checks of LOAD in order (45_descriptor_and_control R281) -/

section LoadRecord

variable {mmax n b d m : Nat} {r g : Poly} {pow : List Poly}

theorem badParameters_eq_true (h : n < 3 ∨ b < 1 ∨ d < 1 ∨ n < d) : badParameters n b d = true := by
  by_contra hne
  have := badParameters_eq_false.1 (Bool.eq_false_iff.2 hne)
  omega

theorem notDivisor_eq_true (hg : g ≠ 0) (h : ¬ PolyDivides g (xnPlusOne n)) : notDivisor n g = true := by
  rwa [← notDivisor_eq_false hg, Bool.not_eq_false] at h

theorem loadRecord_badParameters (h : n < 3 ∨ b < 1 ∨ d < 1 ∨ n < d) :
    loadRecord mmax n b d r g = .error ⟨.invalidParameters, 1⟩ := if_pos (badParameters_eq_true h)

section Parameters

variable (hpar : badParameters n b d = false)

include hpar

theorem loadRecord_noOrder (h : ∀ m, ¬ IsOrder n m) :
    loadRecord mmax n b d r g = .error ⟨.noValidExtension, 1⟩ := by
  simp [loadRecord, hpar, order2_none.2 h]

theorem loadRecord_capacity (ho : IsOrder n m) (h : mmax < m) :
    loadRecord mmax n b d r g = .error ⟨.capacityExceeded, m⟩ := by
  simp [loadRecord, hpar, order2_some.2 ho, h]

variable (ho : IsOrder n m) (hm : m ≤ mmax)

include ho hm

theorem loadRecord_of_checkFieldPoly_error {e : Raise} (h : checkFieldPoly m n r = .error e) :
    loadRecord mmax n b d r g = .error e := by
  simp [loadRecord, hpar, order2_some.2 ho, Nat.not_lt.2 hm, h]

theorem loadRecord_of_checkFieldPoly (h : checkFieldPoly m n r = .ok pow) :
    loadRecord mmax n b d r g =
      if badDegree n g then .error ⟨.invalidParameters, 2⟩
      else if notDivisor n g then .error ⟨.invalidParameters, 4⟩
      else .ok (mkCode n b d m r pow g) := by
  simp only [loadRecord, hpar, order2_some.2 ho, Nat.not_lt.2 hm, h, Bool.false_eq_true, if_false]

variable (hr : IsAccepted m n r)

include hr

theorem loadRecord_badDegree (hdeg : degNat g = 0 ∨ n ≤ degNat g) :
    loadRecord mmax n b d r g = .error ⟨.invalidParameters, 2⟩ := by
  obtain ⟨pow, hpow⟩ := exists_checkFieldPoly hr
  rw [loadRecord_of_checkFieldPoly hpar ho hm hpow, if_pos (badDegree_eq_true hdeg)]

variable (hpos : 0 < degNat g) (hlt : degNat g < n)

include hpos hlt

theorem loadRecord_notDivisor (hdvd : ¬ PolyDivides g (xnPlusOne n)) :
    loadRecord mmax n b d r g = .error ⟨.invalidParameters, 4⟩ := by
  obtain ⟨pow, hpow⟩ := exists_checkFieldPoly hr
  simp [loadRecord_of_checkFieldPoly hpar ho hm hpow, badDegree_eq_false_of_degNat hpos hlt,
    notDivisor_eq_true (ne_zero_of_degNat_pos hpos) hdvd]

/-- A record that passes the eight checks gives a code (45_descriptor_and_control R281, R282). -/
theorem exists_loadRecord (hdvd : PolyDivides g (xnPlusOne n)) :
    ∃ pow, loadRecord mmax n b d r g = .ok (mkCode n b d m r pow g) := by
  obtain ⟨pow, hpow⟩ := exists_checkFieldPoly hr
  refine ⟨pow, ?_⟩
  simp [loadRecord_of_checkFieldPoly hpar ho hm hpow, badDegree_eq_false_of_degNat hpos hlt,
    (notDivisor_eq_false (ne_zero_of_degNat_pos hpos)).2 hdvd]

end Parameters

end LoadRecord

section Completion

variable {s : State}

theorem failsWith_load {code : ErrCode} {info : Nat}
    (h : loadRecord s.mmax s.staged.n.toNat s.staged.b.toNat s.staged.d.toNat s.staged.r.toNat s.staged.g.toNat =
      .error ⟨code, info⟩) : FailsWith .load s code info := failsWith_of_finish rfl h

theorem succeedsIn_load {c : Code}
    (h : loadRecord s.mmax s.staged.n.toNat s.staged.b.toNat s.staged.d.toNat s.staged.r.toNat s.staged.g.toNat =
      .ok c) : SucceedsIn .load s (installCode c s) := succeedsIn_of_finish rfl h

end Completion

/-! ### The record in the staging registers (45_descriptor_and_control R280, R286) -/

/-- The staging registers hold the record of c, every bit of it (45_descriptor_and_control R280). -/
def HoldsRecord (rec : Staging) (c : Code) : Prop :=
  rec.n.toNat = c.n ∧ rec.b.toNat = c.b ∧ rec.d.toNat = c.d ∧ rec.r.toNat = c.r ∧ rec.g.toNat = c.g

theorem codeOk_g_lt {mmax : Nat} {c : Code} (h : CodeOk mmax c) : c.g < 2 ^ c.n :=
  (Nat.log2_lt (codeOk_g_ne_zero h)).1 h.g_deg_lt

/-- r has degree m, at most 12, and g has degree below n, at most 4096. -/
theorem setRecord_holdsRecord {s : State} {c : Code} (h : GoodCode s c) : HoldsRecord (setRecord c s).staged c := by
  obtain ⟨hmmax, -, hc, hb⟩ := h
  have hn := codeOk_n_le hc hmmax
  have hd := hc.d_le.trans hn
  have hm := codeOk_two_pow_m_le hc hmmax
  have hm32 : 2 ^ c.m + 2 ^ c.m ≤ 2 ^ 32 := by omega
  exact ⟨toWord_toNat (by omega), toWord_toNat hb, toWord_toNat (by omega),
    toWord_toNat ((deg_candidate.1 hc.r_deg).2.trans_le hm32),
    toWindow_toNat ((codeOk_g_lt hc).trans_le (pow_le_pow_right₀ one_le_two hn))⟩

theorem succeedsIn_save {s : State} {c : Code} (h : s.code = some c) : SucceedsIn .save s (setRecord c s) :=
  succeedsIn_of_finish rfl (needCode_some h)

/-! ### A record fixes its code (45_descriptor_and_control R282, R287) -/

/-- r and its order fix the tables (41_field_arithmetic R142). -/
theorem tablesOk_unique {m ord : Nat} {r : Poly} {pow pow' : List Poly} {log log' : List (Option Nat)}
    (h : TablesOk m r ord pow log) (h' : TablesOk m r ord pow' log') : pow = pow' ∧ log = log' := by
  constructor
  · refine List.ext_getElem (h.pow_length.trans h'.pow_length.symm) fun e he he' => ?_
    have hlt : e < ord := h.pow_length ▸ he
    rw [← List.getD_eq_getElem _ 0 he, ← List.getD_eq_getElem _ 0 he', h.pow_entry e hlt, h'.pow_entry e hlt]
  · refine List.ext_getElem (h.log_length.trans h'.log_length.symm) fun v hv hv' => ?_
    rw [← List.getD_eq_getElem _ none hv, ← List.getD_eq_getElem _ none hv']
    exact Option.ext fun e => (h.log_entry v e).trans (h'.log_entry v e).symm

/-- Two codes that satisfy 10_state R70 and have one record are equal: R70 gives m as deg r, k, t and q by their
equations, and the order and the tables as those of r. -/
theorem codeOk_unique {mmax mmax' : Nat} {c c' : Code} (h : CodeOk mmax c) (h' : CodeOk mmax' c') (hn : c.n = c'.n)
    (hb : c.b = c'.b) (hd : c.d = c'.d) (hr : c.r = c'.r) (hg : c.g = c'.g) : c = c' := by
  have hm : c.m = c'.m := by rw [← codeOk_r_log2 h, ← codeOk_r_log2 h', hr]
  have hord : c.ord = c'.ord := isOrd_unique h.ord_is (by rw [hm, hr]; exact h'.ord_is)
  have hk : c.k = c'.k := by rw [h.k_eq, h'.k_eq, hn, hg]
  have ht : c.t = c'.t := by rw [h.t_eq, h'.t_eq, hd]
  have hq : c.q = c'.q := by rw [h.q_eq, h'.q_eq]
  obtain ⟨hpow, hlog⟩ := tablesOk_unique h.tables (by rw [hm, hr, hord]; exact h'.tables)
  cases c
  cases c'
  simp only [Code.mk.injEq]
  exact ⟨hn, hb, hd, hm, hk, ht, hq, hr, hg, hord, hpow, hlog⟩

/-- LOAD of the record of a code that satisfies 10_state R70 gives this code. -/
theorem loadRecord_of_codeOk {mmax : Nat} {c : Code} (h : CodeOk mmax c) :
    loadRecord mmax c.n c.b c.d c.r c.g = .ok c := by
  have hpar := badParameters_eq_false.2 ⟨h.n_ge, h.b_ge, h.d_ge, h.d_le⟩
  have hr : IsAccepted c.m c.n c.r := ⟨h.r_deg, h.r_irreducible, c.ord, h.ord_is, h.ord_ge⟩
  obtain ⟨pow, hload⟩ := exists_loadRecord hpar h.order h.m_le hr h.g_deg_pos h.g_deg_lt h.g_divides
  rw [hload, codeOk_unique (loadRecord_codeOk hload) h rfl rfl rfl rfl rfl]

theorem succeedsIn_load_of_holdsRecord {s : State} {c : Code} (h : CodeOk s.mmax c) (hrec : HoldsRecord s.staged c) :
    SucceedsIn .load s (installCode c s) := by
  obtain ⟨hn, hb, hd, hr, hg⟩ := hrec
  exact succeedsIn_load (by rw [hn, hb, hd, hr, hg]; exact loadRecord_of_codeOk h)

/-! ### The statements -/

/-- Settles O30: the completion of NOP installs nothing. -/
theorem nopOnlyCompletes : Obligations.NopOnlyCompletes :=
  ⟨rfl, fun _ => succeedsIn_of_finish (res := .ok ()) (install := fun _ s => s) rfl rfl⟩

/-- Settles O46: every check passes, and a code made of checked parts meets the invariants. -/
theorem loadInstallsRecord : Obligations.LoadInstallsRecord := by
  rintro s n b d m r g rfl rfl rfl rfl rfl hn hb hd hdn ho hm hdeg hi hord hpos hlt hdvd
  have hpar := badParameters_eq_false.2 ⟨hn, hb, hd, hdn⟩
  obtain ⟨pow, hload⟩ := exists_loadRecord hpar ho hm ⟨hdeg, hi, hord⟩ hpos hlt hdvd
  exact ⟨_, succeedsIn_load hload, rfl, rfl, rfl, rfl, rfl, rfl, rfl, rfl, rfl, loadRecord_codeOk hload⟩

/-- Settles O47: the result of each check, given those before it. -/
theorem loadChecksInOrder : Obligations.LoadChecksInOrder := by
  rintro s n b d r g rfl rfl rfl rfl rfl
  refine ⟨fun h => failsWith_load (loadRecord_badParameters h), fun hn hb hd hdn => ?_⟩
  have hpar := badParameters_eq_false.2 ⟨hn, hb, hd, hdn⟩
  refine ⟨fun h => failsWith_load (loadRecord_noOrder hpar (not_exists.1 h)), fun m ho =>
    ⟨fun hm => failsWith_load (loadRecord_capacity hpar ho hm), fun hm => ?_⟩⟩
  have hfail : ∀ {code info}, checkFieldPoly m _ _ = .error ⟨code, info⟩ → FailsWith .load s code info :=
    fun h => failsWith_load (loadRecord_of_checkFieldPoly_error hpar ho hm h)
  refine ⟨fun hdeg => hfail (checkFieldPoly_wrongDegree hdeg), fun hdeg =>
    ⟨fun hi => hfail (checkFieldPoly_reducible hdeg hi), fun hi =>
    ⟨fun hord => hfail (checkFieldPoly_shortOrd hdeg hi hord), fun hord => ?_⟩⟩⟩
  have hr : IsAccepted m _ _ := ⟨hdeg, hi, hord⟩
  refine ⟨fun hg => failsWith_load (loadRecord_badDegree hpar ho hm hr hg), fun hpos hlt =>
    ⟨fun hdvd => failsWith_load (loadRecord_notDivisor hpar ho hm hr hpos hlt hdvd), fun hdvd => ?_⟩⟩
  obtain ⟨pow, hload⟩ := exists_loadRecord hpar ho hm hr hpos hlt hdvd
  exact ⟨_, succeedsIn_load hload, rfl, rfl, rfl, rfl, rfl⟩

/-- Settles O48: every field of the record fits its register. -/
theorem saveWritesRecord : Obligations.SaveWritesRecord := by
  refine ⟨rfl, fun s => failsWith_noCode (by decide), fun s c hgood => ?_⟩
  obtain ⟨-, hs, -, -⟩ := id hgood
  exact ⟨_, succeedsIn_save hs, setRecord_holdsRecord hgood⟩

/-- Settles O49: the saved record passes the checks, and a record fixes its code. -/
theorem saveThenLoadRestoresCode : Obligations.SaveThenLoadRestoresCode := by
  intro s t u c hgood ht hmmax hstaged
  obtain ⟨-, hs, hc, -⟩ := id hgood
  obtain rfl := Host.Outcome.next.inj (ht.symm.trans (succeedsIn_save hs))
  have hrec : HoldsRecord u.staged c := hstaged ▸ setRecord_holdsRecord hgood
  exact ⟨_, succeedsIn_load_of_holdsRecord (hmmax ▸ hc) hrec, rfl, rfl⟩

end Sys2Proof.Machine
end

section
/-!
Errors and the completion interrupt (60_exceptions), and the statements about them: what the engine's completion of a
command word can do, said once, and the level of irq after each event that raises or ends it.
-/

namespace Sys2Proof.Machine

open Sys2Proof.Claims

/-! ### The completion of a command word (60_exceptions R305, R306) -/

/-- Everything the completion of a command word can do: the effect of a legal word, or an error with nothing else
changed, of a legal or an illegal word. -/
theorem engineStep_next {s t : State} (h : engineStep s = .next t) :
    (∃ i u, decode s.lastCmd = .ok i ∧ CommandEffect i s u ∧ t = complete u) ∨ ∃ e, t = raiseError e s := by
  cases hd : decode s.lastCmd with
  | ok i =>
    rw [engineStep_of_legal hd] at h
    rcases exec_next h with ⟨u, hu, ht⟩ | he
    · exact .inl ⟨i, u, rfl, hu, ht⟩
    · exact .inr he
  | error e =>
    rw [engineStep_of_illegal hd] at h
    exact .inr ⟨_, (Host.Outcome.next.inj h).symm⟩

theorem commandEffect_irqEn {i : Instr} {s u : State} (h : CommandEffect i s u) : u.irqEn = s.irqEn := by
  rw [(commandEffect_frame h).1]

/-! ### The level of irq (60_exceptions R315) -/

theorem irq_eq_true_iff (s : State) : irq s = true ↔ s.irqEn = true ∧ s.done = true := Bool.and_eq_true_iff

theorem irq_of_done {s : State} (h : s.done = true) : irq s = s.irqEn := by rw [irq, h, Bool.and_true]

theorem irq_of_not_done {s : State} (h : s.done = false) : irq s = false := by rw [irq, h, Bool.and_false]

theorem engineStep_irqEn {s t : State} (h : engineStep s = .next t) : t.irqEn = s.irqEn := by
  rcases engineStep_next h with ⟨i, u, -, hu, rfl⟩ | ⟨e, rfl⟩
  · exact (complete_irqEn u).trans (commandEffect_irqEn hu)
  · rfl

theorem engineStep_done {s t : State} (h : engineStep s = .next t) : t.done = true := by
  rcases engineStep_next h with ⟨i, u, -, -, rfl⟩ | ⟨e, rfl⟩ <;> rfl

theorem acceptCommand_idle {s : State} (h : s.phase = .idle) (w : Word) : acceptCommand w s = startCommand w s := by
  rw [acceptCommand, (busy_false_iff s).2 h]; rfl

theorem irq_writeStatus_of_clear {v : Word} (h : v.getLsbD 1 = true) (s : State) : irq (writeStatus v s) = false :=
  irq_of_not_done (by rw [writeStatus, h]; exact Bool.and_false _)

/-- After a write to CTRL irq is high exactly when the write enables it, does not reset the core, and DONE is 1. -/
theorem irq_writeCtrl (v : Word) (s : State) :
    irq (writeCtrl v s) = (!v.getLsbD 1 && v.getLsbD 0 && s.done) := by
  cases h : v.getLsbD 1 <;> rw [writeCtrl, h] <;> rfl

/-- A bus write of a register answers the state after the write. -/
theorem eq_writeReg_of_busAccess {name : Reg} {v : Word} {s t : State}
    (h : busAccess (.write 4 (regOffset name) v) s = .next t) : t = writeReg name v s :=
  (Host.Outcome.next.inj ((busAccess_write_reg name v s).symm.trans h)).symm

/-! ### The statements -/

/-- Settles O37: the check of the active code is the first of each of the six commands. -/
theorem noCodeIsReported : Obligations.NoCodeIsReported := fun _ hs _ hi => failsWith_noCode hi hs

/-- Settles O8: a success leaves ERR = 0, and an error, of a legal or an illegal word, writes nothing else. -/
theorem errorChangesNothingElse : Obligations.ErrorChangesNothingElse := by
  intro s t h herr
  rcases engineStep_next h with ⟨i, u, -, -, rfl⟩ | ⟨e, rfl⟩
  · cases herr
  · rfl

/-- Settles O23: a completion sets DONE and keeps IRQ_EN; an accept and the two clearing writes lower one of the two. -/
theorem completionInterrupt : Obligations.CompletionInterrupt := by
  refine ⟨irq_eq_true_iff, fun s t h => ?_, fun s t w hidle h => ?_, fun s t v hv h => ?_, fun s t v hv h => ?_,
    fun s t v hen hrst h => ?_⟩
  · have hdone := engineStep_done h
    exact ⟨hdone, (irq_of_done hdone).trans (engineStep_irqEn h)⟩
  · rw [eq_writeReg_of_busAccess (name := .cmd) h, writeReg, acceptCommand_idle hidle]
    exact irq_of_not_done rfl
  · rw [eq_writeReg_of_busAccess (name := .status) h, writeReg, irq_writeStatus_of_clear hv]
  · rw [eq_writeReg_of_busAccess (name := .ctrl) h, writeReg, irq_writeCtrl]
    rcases hv with hoff | hrst
    · rw [hoff, Bool.and_false, Bool.false_and]
    · rw [hrst]; rfl
  · rw [eq_writeReg_of_busAccess (name := .ctrl) h, writeReg, irq_writeCtrl, hen, hrst]
    rfl

end Sys2Proof.Machine
end

section
/-!
Power-on (70_reset_and_hazards R340), and the statement about it: what cleared flags, a cleared window, a
cleared table and HWCFG read.
-/

namespace Sys2Proof.Machine

open Sys2Proof.Claims

/-! ### The words of a state in which everything is 0 (10_state R69) -/

theorem flagWord_clear : flagWord false false false false false = 0 := by decide

theorem windowWord_zero (j : Nat) : windowWord 0 j = 0 := BitVec.extractLsb'_zero

theorem tableEntry_nil (j : Nat) : tableEntry [] j = 0 := List.getD_nil

/-- A legal MMAX fits the four bits of HWCFG (10_state R34). -/
theorem peek_hwcfg {s : State} (h : legalMmax s.mmax = true) : peek s (.reg .hwcfg) = BitVec.ofNat 32 s.mmax := by
  have hle := legalMmax_le h
  refine BitVec.eq_of_toNat_eq ?_
  rw [hwcfg_toNat h, BitVec.toNat_ofNat, Nat.mod_eq_of_lt (by omega)]

theorem peekWindow_reset (mmax : Nat) (w : PolyWin) : peekWindow { State.reset with mmax := mmax } w = 0 := by
  cases w <;> rfl

/-! ### The statement -/

/-- Settles O20: every flag, window and table is cleared, and with no active code every LOG entry is NOLOG. -/
theorem resetReads : Obligations.ResetReads := by
  refine ⟨fun mmax hm l _ => ?_, rfl, rfl, rfl⟩
  cases l with
  | reg name =>
    cases name with
    | hwcfg => exact peek_hwcfg (s := { State.reset with mmax := mmax }) hm
    | ctrl | status | decFlags => exact flagWord_clear
    | _ => rfl
  | poly w j => rw [peek, peekWindow_reset, windowWord_zero]
  | table t j =>
    cases t with
    | syn | elp | errpos => exact tableEntry_nil j
    | pow | log => rfl
  | reserved => rfl

end Sys2Proof.Machine
end
